-- ==== Sys2Proof/Word.lean ====
section
/-! DEFINITION. The value types of CBCE: bytes, byte sequences and 32-bit words (00_scope.md R14, R16). -/

namespace Sys2Proof

/-- A byte is 8 bits (R14). -/
abbrev Byte := BitVec 8

/-- A finite byte sequence, index 0 first (R14, R52). No rule reads a sequence as a number. -/
abbrev Bytes := List Byte

/-- A 32-bit word: a command word, STATUS or CFG; bit 0 is the least significant (R16). -/
abbrev Word := BitVec 32

/-- A sequence of exactly `n` bytes (`bytes[n]` of R14), carrying the proof of its length. -/
abbrev Block (n : Nat) := { b : Bytes // b.length = n }

end Sys2Proof
end

