-- ==== Sys2Proof/Config.lean ====
section
/-! DEFINITION. What is fixed for a run and is not state (R41): the payload type `Info` (R9), the types of the
collaborators `Ciph` and `Pad` (R7, R8, R150, R158), the capacities (R10), and the values the spec leaves open. The type
of payloads is the argument `ι` of every definition that holds or handles one. -/

namespace Sys2Proof

/-- The default of the parameter `Info`, the payload an error carries: a 32-bit word (R9). -/
abbrev Info := Word

/-- The parameter `Info` (R9, R41): a payload type `ι`, and how it holds the payloads that are not a collaborator's
(R33, R200): numbers and command words. Nothing is asked of the two: no rule inspects a payload (R9). DESIGN CHOICE of
the form (log entry 22). -/
structure InfoRep (ι : Type) where
  /-- A number as a payload: 0, a remainder, a length. -/
  number : Nat → ι
  /-- A command word as a payload. -/
  word : Word → ι

/-- What a collaborator's call answers: `ok` with a value, or `err` with its payload (R150, R158). -/
inductive Result (α : Type) (ι : Type := Info) where
  | err (info : ι)
  | ok (a : α)
  deriving DecidableEq, Repr, Inhabited

/-- The same answer with its value mapped; the payload of an error is copied unchanged. -/
def Result.map {α β ι : Type} (f : α → β) : Result α ι → Result β ι
  | .err info => .err info
  | .ok a => .ok (f a)

/-- The collaborator BlockCipher as data (R7, R150). Calls are functions of (key, block size, block) alone (R154);
the type of `enc` and `dec` says that a block of `n` bytes goes in and one of `n` bytes comes out, or an error. -/
structure BlockCipher (ι : Type := Info) where
  /-- Whether a pair (key length, block size) with block size at least 1 is supported. -/
  supported : Nat → Nat → Bool
  /-- The payload of the ConfigurationError of an unsupported pair. -/
  cfgErr : Nat → Nat → ι
  enc : Bytes → (n : Nat) → Block n → Result (Block n) ι
  dec : Bytes → (n : Nat) → Block n → Result (Block n) ι
  deriving Inhabited

/-- `Ciph.supports(keylen, bs)`. R151 requires of every legal `Ciph` that a block size of 0 is unsupported, and asks
nothing else of it: every legal `supports` is of this form. -/
def BlockCipher.supports {ι : Type} (c : BlockCipher ι) (keylen bs : Nat) : Bool :=
  bs != 0 && c.supported keylen bs

/-- The collaborator PaddingScheme as data (R8, R158); the block size is the first argument. PadDeterministic (R159)
holds by the type. -/
structure PaddingScheme (ι : Type := Info) where
  encode : Nat → Bytes → Bytes
  decode : Nat → Bytes → Result Bytes ι

/-- The parameters of a run (R7 to R10, R41): `Info` is the argument `I`, the others are the fields. `bufCap = none` is
the unbounded capacity. -/
structure Params {ι : Type} (I : InfoRep ι) where
  ciph : BlockCipher ι
  pad : PaddingScheme ι
  /-- BUF_CAP, the capacity in bytes of each data buffer; `none` is unbounded. -/
  bufCap : Option Nat
  /-- LENW, the width in bits of the length registers. -/
  lenw : Nat

variable {ι : Type} {I : InfoRep ι}

/-- R10's requirement on the parameters: `BUF_CAP < 2^LENW` when `BUF_CAP` is finite. -/
def Params.legal (P : Params I) : Bool :=
  match P.bufCap with
  | none => true
  | some c => decide (c < 2 ^ P.lenw)

/-- Whether a sequence of `n` bytes fits a buffer (R10, R59). -/
def Params.fits (P : Params I) (n : Nat) : Bool :=
  match P.bufCap with
  | none => true
  | some c => decide (n ≤ c)

/-- The block cipher of this engine: R5 (a) leaves the transform out and R7 makes it a parameter, so nothing is
known of it. FREE VALUE (log entry 3). -/
opaque Config.ciph : BlockCipher

/-- FREE VALUE (log entry 5): what a 32-bit ERRINFO holds for a number that does not fit 32 bits. -/
opaque Config.wideInfo : Nat → Info

/-- `Info` at the default the spec chose, a 32-bit word (R9): a command word is held as it is, a number as its 32 bits.
A number without a 32-bit representation has none the spec states: it is the free value of log entry 5, never a
truncation (R16). -/
def Config.info : InfoRep Info where
  number n := if n < 2 ^ 32 then BitVec.ofNat 32 n else Config.wideInfo n
  word w := w

/-- BUF_CAP, at the default the spec chose: unbounded (R10). Log entry 4. -/
def Config.bufCap : Option Nat := none

/-- LENW, at the default the spec chose: 32 (R10). Log entry 4. -/
def Config.lenw : Nat := 32

end Sys2Proof
end

