-- ==== Sys2Proof/Syntax.lean ====
section
/-! DEFINITION. The command set: one constructor per row of spec/opcode_table.json (30_encoding.md R73). The
micro-operations and XORBLK are not commands and have no row (R81). -/

namespace Sys2Proof

/-- The three commands (R73). -/
inductive Instr where
  /-- `NEW n`: construct the engine with block size `n` bytes (R90). The key is the content of KEYBUF. -/
  | new (bs : Nat)
  /-- `ENCRYPT`: operands IVBUF and INBUF (R100). -/
  | encrypt
  /-- `DECRYPT`: operands IVBUF and INBUF (R115). -/
  | decrypt
  deriving DecidableEq, Repr

end Sys2Proof
end

