-- ==== Sys2Proof/WellFormed.lean ====
section
/-! DEFINITION. Which terms of `Instr` a command word can express (30_encoding.md R72). -/

namespace Sys2Proof

/-- `BSARG` is an 8-bit unsigned field: a block size above 255 bytes cannot be expressed (R72). Every value from 0
to 255 is a legal encoding, whatever the cipher supports. -/
def Instr.wf : Instr → Bool
  | .new bs => decide (bs ≤ 255)
  | .encrypt => true
  | .decrypt => true

end Sys2Proof
end

