-- ==== Sys2Proof/Decode.lean ====
section
/-! DEFINITION. Decoding a command word (30_encoding.md R71, R73, R74, R82), total on all 2^32 words and rejecting by
name, and the encoder written from the same table. -/

namespace Sys2Proof

/-- `OPCODE = w[7:0]` (R71). -/
def opcodeOf (w : Word) : BitVec 8 := w.extractLsb' 0 8

/-- `BSARG = w[15:8]` (R71). -/
def bsargOf (w : Word) : BitVec 8 := w.extractLsb' 8 8

/-- `ZERO = w[31:16]` (R71). -/
def zeroOf (w : Word) : BitVec 16 := w.extractLsb' 16 16

/-- Why a word is no command (R74). All of them are one thing to the engine: ILLEGAL. -/
inductive Illegal where
  /-- A nonzero bit in 31:16. -/
  | reservedBits
  /-- OPCODE is 0x00 or 0x04 to 0xFF. -/
  | opcode
  /-- ENCRYPT or DECRYPT with nonzero BSARG. -/
  | bsarg
  deriving DecidableEq, Repr

/-- What a command word decodes to. -/
inductive Decoded where
  | legal (i : Instr)
  | illegal (why : Illegal)
  deriving DecidableEq, Repr

/-- The decode function of R82. -/
def decode (w : Word) : Decoded :=
  if zeroOf w ≠ 0#16 then .illegal .reservedBits
  else if opcodeOf w = 0x01#8 then .legal (.new (bsargOf w).toNat)
  else if opcodeOf w = 0x02#8 then
    if bsargOf w = 0#8 then .legal .encrypt else .illegal .bsarg
  else if opcodeOf w = 0x03#8 then
    if bsargOf w = 0#8 then .legal .decrypt else .illegal .bsarg
  else .illegal .opcode

/-- The command word of an instruction: fields ZERO, BSARG, OPCODE from bit 31 down (R71, R73). -/
def encode : Instr → Word
  | .new bs => 0#16 ++ BitVec.ofNat 8 bs ++ 0x01#8
  | .encrypt => 0#16 ++ 0#8 ++ 0x02#8
  | .decrypt => 0#16 ++ 0#8 ++ 0x03#8

/-- One row of the opcode map of R73: a word `w` is the command exactly when `w & mask = match`. -/
structure Row where
  mnemonic : String
  bits : Word
  mask : Word
  deriving DecidableEq, Repr

def rowNew : Row := ⟨"NEW", 0x00000001#32, 0xFFFF00FF#32⟩
def rowEncrypt : Row := ⟨"ENCRYPT", 0x00000002#32, 0xFFFFFFFF#32⟩
def rowDecrypt : Row := ⟨"DECRYPT", 0x00000003#32, 0xFFFFFFFF#32⟩

/-- The opcode map of R73, whole. -/
def opcodeRows : List Row := [rowNew, rowEncrypt, rowDecrypt]

/-- Whether `w` is the row's command (R73). -/
def Row.matchesWord (r : Row) (w : Word) : Bool := (w &&& r.mask) == r.bits

/-- The row an instruction stands in. -/
def rowOf : Instr → Row
  | .new _ => rowNew
  | .encrypt => rowEncrypt
  | .decrypt => rowDecrypt

/-- The instruction of a decoding, if it is one. -/
def Decoded.instr? : Decoded → Option Instr
  | .legal i => some i
  | .illegal _ => none

/-- The command word whose `nbits` bits are `w`, the bits above them 0 (R70: every command is one 32-bit word). -/
def commandWord (nbits w : Nat) : Word := BitVec.ofNat 32 (w % 2 ^ nbits)

/-- What the decoder reads from an instruction of the opcode table whose bits are `w`; a number with a bit above
bit 31 is no command word. -/
def decodeTableWord (nbits w : Nat) : Option Instr :=
  if w % 2 ^ nbits < 2 ^ 32 then (decode (commandWord nbits w)).instr? else none

end Sys2Proof
end

