-- ==== Sys2Proof/Machine/State.lean ====
section
/-! DEFINITION. The state of CBCE (10_state.md R20 to R42), the host program it is driven by (R12, R13, R40), and the
reasons a step can stop. All of it is plain data. -/

namespace Sys2Proof.Machine

/-- `PHASE` (R30): which micro-operation the ENGINE performs next; IDLE when the HOST has the move (R12). -/
inductive Phase where
  | idle | newop | encPad | encIv | encBlk | decChk | decIv | decBlk
  deriving DecidableEq, Repr

/-- `OP` with its operand latches (R30): the command in progress and the operands accepted for it (R138). -/
inductive Op where
  /-- `NONE`: no command in progress. -/
  | none
  /-- `NEW`, with `OP.bs` and `OP.key`. -/
  | new (bs : BitVec 8) (key : Bytes)
  /-- `ENCRYPT`, with `OP.iv` and `OP.data`. -/
  | encrypt (iv data : Bytes)
  /-- `DECRYPT`, with `OP.iv` and `OP.data`. -/
  | decrypt (iv data : Bytes)
  deriving DecidableEq, Repr

/-- An event of the ghost history TRACE (R38): one collaborator call with its answer. -/
inductive Event (ι : Type := Info) where
  | evNew (keylen bs : Nat) (r : Result Unit ι)
  | evPadEncode (bs : Nat) (data out : Bytes)
  | evEnc (i : Nat) (x : Bytes) (r : Result Bytes ι)
  | evDec (i : Nat) (y : Bytes) (r : Result Bytes ι)
  | evPadDecode (bs : Nat) (data : Bytes) (r : Result Bytes ι)
  deriving DecidableEq, Repr

/-- The buffers whose length `READ_LEN` returns (R40). -/
inductive LenSel where
  | key | iv | inp | out
  deriving DecidableEq, Repr

/-- A host move (R40), and the one event of the environment, a reset in mid-operation (R230, U14). -/
inductive HostMove where
  | loadKey (k : Bytes)
  | loadIv (v : Bytes)
  | loadIn (s : Bytes)
  | writeCmd (w : Word)
  | readStatus
  | readErrinfo
  | readErridx
  | readCfg
  | readOut
  | readLen (which : LenSel)
  /-- RST, issued when the command before it has completed. -/
  | rst
  /-- RST arriving while the command before it runs, after `k` of its engine steps; if the command has ended by
  then, RST arrives in IDLE (log entry 8). -/
  | rstDuring (k : Nat)
  deriving DecidableEq, Repr

/-- What a READ move returns to the host (R40). -/
inductive Reply (ι : Type := Info) where
  | status (w : Word)
  | errinfo (i : ι)
  | erridx (n : Nat)
  | cfg (w : Word)
  | out (s : Bytes)
  /-- READ_OUT with `OUTBUF = none` returns no value (R40, R206). -/
  | noValue
  | len (n : Nat)
  deriving DecidableEq, Repr

/-- What makes a run faulted, never final (R13, R206): recorded in the run, which goes on as the spec describes
(log entry 1). -/
inductive RunFault where
  /-- UsageFault at ACCEPT of the word `w`. -/
  | usage (w : Word)
  /-- IvSizeError for an IV of `len` bytes (R205). -/
  | ivSize (len : Nat)
  /-- READ_OUT with no result to read. -/
  | readOutAbsent
  deriving DecidableEq, Repr

/-- Why a step stops with a fault. No state that a run from reset reaches raises one (Safety.lean, `State.Inv`);
each is SAFE: where the spec gives the machine no value it does not go on with an invented one. -/
inductive Fault where
  /-- A micro-operation finds `none` in a register, buffer or latch it needs (R17). -/
  | operandAbsent
  /-- The operands of XORBLK, or a block and the block size, differ in length (R136, U3). -/
  | unequalBlocks
  /-- A length is to be divided by a block size of 0 (R15: never evaluated). -/
  | zeroBlockSize
  /-- `IDX` is beyond `NBLK` in a block phase (R27: outside its range; R148 gives no step). -/
  | indexPastEnd
  deriving DecidableEq, Repr

/-- Why a step is refused: the spec says that no such move or step exists. Each is SAFE. -/
inductive Refusal where
  /-- An instruction without a meaning (none is left). Raised by exec. -/
  | notModelled (mnemonic : String)
  /-- A host move while `PHASE ≠ IDLE` (R12, U8). Raised by exec; step never asks for it. -/
  | hostMoveWhileBusy
  /-- A LOAD longer than BUF_CAP (R10, R40, R59). Raised by the LOAD moves; never with the default capacity. -/
  | loadOverCapacity
  /-- `Pad.encode` answered a length that is no multiple of the block size (R140, R158, U9). Raised by PADENC; never
  with ZeroPad. -/
  | framingUnaligned
  /-- The framed plaintext is longer than BUF_CAP (R59, R140, U10). Raised by PADENC; never with the default
  capacity. -/
  | framingOverCapacity
  deriving DecidableEq, Repr

/-- The state, with payloads of type `ι`; `State` alone is the state at the default `Info`. The four groups of R20, then
the run's own data: the rest of the host program, what the host has read, and the faults the run has recorded. The
length registers, STATUS.BUSY, STATUS and CFG are views (Flags.lean, Operands.lean). -/
structure State (ι : Type := Info) where
  /-- `CFG.VALID` (R21). -/
  cfgValid : Bool
  /-- `CFG.BS`, 8 bits as stored (R22). -/
  cfgBs : BitVec 8
  /-- `CFG.PBS`, 8 bits as stored (R23). -/
  cfgPbs : BitVec 8
  /-- `KEYSTORE` (R24). -/
  keystore : Option Bytes
  /-- `PHASE` (R30). -/
  phase : Phase
  /-- `OP` and its latches (R30). -/
  op : Op
  /-- `FB`, the feedback block (R26). -/
  fb : Option Bytes
  /-- `BLK` (R26). -/
  blk : Option Bytes
  /-- `TMP` (R26). -/
  tmp : Option Bytes
  /-- `OUTB` (R26). -/
  outb : Option Bytes
  /-- `IDX` (R27). -/
  idx : Option Nat
  /-- `NBLK` (R28). -/
  nblk : Option Nat
  /-- `WORK`, the padded plaintext (R29). -/
  work : Option Bytes
  /-- `ACC`, the output accumulator (R29). -/
  acc : Option Bytes
  /-- `STATUS.ERR` (R32). -/
  err : BitVec 4
  /-- `STATUS.DONE` (R32). -/
  done : Bool
  /-- `STATUS.LASTOP` (R32). -/
  lastop : BitVec 2
  /-- `ERRINFO` (R33). -/
  errinfo : ι
  /-- `ERRIDX` (R34). -/
  erridx : Nat
  /-- `KEYBUF` (R35). -/
  keybuf : Option Bytes
  /-- `IVBUF` (R36). -/
  ivbuf : Option Bytes
  /-- `INBUF` (R37). -/
  inbuf : Option Bytes
  /-- `OUTBUF` (R37). -/
  outbuf : Option Bytes
  /-- `TRACE`, oldest first (R38). -/
  trace : List (Event ι)
  /-- MODEL'S OWN: the host moves still to come (R13: a host program is a finite list of host moves). -/
  host : List HostMove
  /-- MODEL'S OWN: what the READ moves have returned to the host, oldest first (R40). -/
  replies : List (Reply ι)
  /-- MODEL'S OWN: the faults the run has recorded, oldest first (R13). -/
  runFaults : List RunFault
  deriving DecidableEq, Repr

/-- The machine right after reset: the table of R42, whole, for any `Info`. No host program is loaded. -/
def State.resetOf {ι : Type} (I : InfoRep ι) : State ι where
  cfgValid := false
  cfgBs := 0#8
  cfgPbs := 0#8
  keystore := none
  phase := .idle
  op := .none
  fb := none
  blk := none
  tmp := none
  outb := none
  idx := none
  nblk := none
  work := none
  acc := none
  err := 0#4
  done := false
  lastop := 0#2
  errinfo := I.number 0
  erridx := 0
  keybuf := none
  ivbuf := none
  inbuf := none
  outbuf := none
  trace := []
  host := []
  replies := []
  runFaults := []

/-- The machine right after reset, at the default `Info`: ERRINFO is the 32-bit word 0. -/
def State.reset : State := State.resetOf Config.info

/-- What one step of the machine answers. -/
abbrev Outcome (ι : Type := Info) := Host.Outcome (State ι) Fault Refusal

end Sys2Proof.Machine
end

