-- ==== Sys2Proof/Machine/Flags.lean ====
section
/-! DEFINITION. The status and configuration words and the error codes (10_state.md R25, R32; 60_exceptions.md R200).
The only flag-like state is STATUS.ERR, STATUS.DONE and STATUS.LASTOP; BUSY is a view of PHASE. -/

namespace Sys2Proof.Machine

/-- The outcomes a command can have (R200). Codes 6 to 14 are reserved and never produced. -/
inductive ErrKind where
  | ok | configuration | invalidSize | cipher | padding | ivSize | usage
  deriving DecidableEq, Repr

/-- The code table of R200. -/
def ErrKind.code : ErrKind → BitVec 4
  | .ok => 0#4
  | .configuration => 1#4
  | .invalidSize => 2#4
  | .cipher => 3#4
  | .padding => 4#4
  | .ivSize => 5#4
  | .usage => 15#4

/-- The value of STATUS.LASTOP for a command in progress (R32, R139). -/
def Op.lastop : Op → BitVec 2
  | .none => 0#2
  | .new _ _ => 1#2
  | .encrypt _ _ => 2#2
  | .decrypt _ _ => 3#2

variable {ι : Type}

/-- `STATUS.BUSY`: 1 exactly when `PHASE ≠ IDLE` (R32). -/
def State.busy (s : State ι) : Bool := s.phase != .idle

/-- The STATUS word (R32): zero, LASTOP, BUSY, DONE, ERR from bit 31 down. -/
def State.statusWord (s : State ι) : Word :=
  0#24 ++ s.lastop ++ BitVec.ofBool s.busy ++ BitVec.ofBool s.done ++ s.err

/-- The CFG word (R25): zero, PBS, BS, zero, VALID from bit 31 down. -/
def State.cfgWord (s : State ι) : Word :=
  0#8 ++ s.cfgPbs ++ s.cfgBs ++ 0#7 ++ BitVec.ofBool s.cfgValid

end Sys2Proof.Machine
end

