-- ==== Sys2Proof/Machine/Ops.lean ====
section
/-! DEFINITION. The named operations the rules are written in: XORBLK (43_xorblock_sequencer.md R135), block access
(R17, R52, R55), command acceptance and CLEAR (R138), the one way a command ends or raises an error, COMPLETE (R139,
R208), the rejection of a command, USAGE (R138, R206), and reset (R230). -/

namespace Sys2Proof.Machine

variable {ι : Type}

/-- XORBLK (R135): byte-wise exclusive-or of two blocks of one length. It is not defined on unequal lengths (R136). -/
def xorblk {n : Nat} (a b : Block n) : Block n :=
  ⟨List.zipWith (· ^^^ ·) a.val b.val, by rw [List.length_zipWith, a.property, b.property, Nat.min_self]⟩

/-- A sequence as a block of `n` bytes, when it has that length. -/
def asBlock (n : Nat) (s : Bytes) : Option (Block n) :=
  if h : s.length = n then some ⟨s, h⟩ else none

/-- `MemRead(SPACE, addr, n)` (R17): bytes `addr` to `addr + n − 1`; it needs them to exist. -/
def memRead (space : Option Bytes) (addr n : Nat) : Option (Block n) :=
  match space with
  | none => none
  | some s =>
    if h : addr + n ≤ s.length then
      some ⟨(s.drop addr).take n, by rw [List.length_take, List.length_drop]; omega⟩
    else none

/-- `MemWrite(SPACE, addr, n, v)` (R17): replaces bytes `addr` to `addr + n − 1`. The notation defines it; no rule of
the engine uses it. -/
def memWrite (space : Option Bytes) (addr : Nat) {n : Nat} (v : Block n) : Option Bytes :=
  match space with
  | none => none
  | some s => if addr + n ≤ s.length then some (s.take addr ++ v.val ++ s.drop (addr + n)) else none

/-- `MemAppend(SPACE, v)` on a held sequence (R17). -/
def memAppend (s : Bytes) {n : Nat} (v : Block n) : Bytes := s ++ v.val

/-- `TRACE += ev` (R17). -/
def addEvent (ev : Event ι) (s : State ι) : State ι := { s with trace := s.trace ++ [ev] }

/-- The run is faulted from here on (R13). -/
def addRunFault (f : RunFault) (s : State ι) : State ι := { s with runFaults := s.runFaults ++ [f] }

/-- CLEAR (R138). -/
def clear (I : InfoRep ι) (s : State ι) : State ι :=
  { s with outbuf := none, err := ErrKind.ok.code, done := false, lastop := 0#2, errinfo := I.number 0, erridx := 0 }

/-- The acceptance of a command (R138): its operands stand in the latches of `op`, CLEAR, and the first phase. -/
def accept (I : InfoRep ι) (op : Op) (ph : Phase) (s : State ι) : State ι :=
  { clear I s with op := op, phase := ph }

/-- USAGE(w) (R138, R206): the rejection of a command word. STATUS, ERRINFO and ERRIDX report it and nothing else of
the engine changes; the run is faulted (R13). -/
def usage (I : InfoRep ι) (w : Word) (s : State ι) : State ι :=
  addRunFault (.usage w)
    { s with err := ErrKind.usage.code, done := true, lastop := 0#2, errinfo := I.word w, erridx := 0 }

/-- COMPLETE(code, info, idx, out) (R139): how every operation ends, and what raising an error does (R208). -/
def complete (kind : ErrKind) (info : ι) (idx : Nat) (out : Option Bytes) (s : State ι) : State ι :=
  { s with
    err := kind.code, errinfo := info, erridx := idx, outbuf := out, done := true, lastop := s.op.lastop
    fb := none, blk := none, tmp := none, outb := none, idx := none, nblk := none, work := none, acc := none
    op := .none, phase := .idle }

/-- RST (R230): every piece of the engine's state takes its reset value of R42. The host keeps its program and what it
has read, and a faulted run stays faulted (log entry 8). -/
def resetEngine (I : InfoRep ι) (s : State ι) : State ι :=
  { State.resetOf I with host := s.host, replies := s.replies, runFaults := s.runFaults }

end Sys2Proof.Machine
end

