-- ==== Sys2Proof/Machine/Operands.lean ====
section
/-! DEFINITION. The operands of the commands and micro-operations: the block sizes and the key (R22 to R24), the
lengths the host reads (R35 to R37), and the byte-addressed spaces (R50). -/

namespace Sys2Proof.Machine

variable {ι : Type}

/-- `BS`, which in all pseudocode means `CFG.BS` (R22). -/
def State.bs (s : State ι) : Nat := s.cfgBs.toNat

/-- `PBS`, the block size every call of `Pad` is given (R23). -/
def State.pbs (s : State ι) : Nat := s.cfgPbs.toNat

/-- The length a buffer reads as: 0 when it holds `none` (R35). -/
def lenOf (buf : Option Bytes) : Nat :=
  match buf with
  | none => 0
  | some s => s.length

/-- KEYLEN, IVLEN, INLEN, OUTLEN (R35 to R37). -/
def State.len (s : State ι) : LenSel → Nat
  | .key => lenOf s.keybuf
  | .iv => lenOf s.ivbuf
  | .inp => lenOf s.inbuf
  | .out => lenOf s.outbuf

/-- The six byte-addressed spaces of R50 and the operand latches, which are addressed the same way. -/
inductive Space where
  | keybuf | ivbuf | inbuf | work | acc | outbuf | opKey | opIv | opData
  deriving DecidableEq, Repr

/-- The content of a space (R50). -/
def State.space (s : State ι) : Space → Option Bytes
  | .keybuf => s.keybuf
  | .ivbuf => s.ivbuf
  | .inbuf => s.inbuf
  | .work => s.work
  | .acc => s.acc
  | .outbuf => s.outbuf
  | .opKey => match s.op with
    | .new _ key => some key
    | _ => none
  | .opIv => match s.op with
    | .encrypt iv _ => some iv
    | .decrypt iv _ => some iv
    | _ => none
  | .opData => match s.op with
    | .encrypt _ data => some data
    | .decrypt _ data => some data
    | _ => none

/-- The byte at address `a` of a space: the address of a byte is its index in the sequence (R50). -/
def State.readByte (s : State ι) (sp : Space) (a : Nat) : Option Byte :=
  (s.space sp).bind (fun b => b[a]?)

end Sys2Proof.Machine
end

