-- ==== Sys2Proof/Machine/Padding.lean ====
section
/-! DEFINITION. ZeroPad, the framer the constructor builds (44_collaborators.md R160 to R162), and the parameters of
this engine (R7 to R10). -/

namespace Sys2Proof.Machine

variable {ι : Type}

/-- `ZeroPad.encode(bs, d) = d ++ 0^p` with `p = bs − (|d| mod bs)` (R161): 1 to `bs` zero bytes. DESIGN CHOICE (log
entry 25): at `bs = 0`, outside R161's domain, it answers `d` itself. -/
def zeroPadEncode (bs : Nat) (d : Bytes) : Bytes :=
  d ++ List.replicate (bs - d.length % bs) 0#8

/-- A sequence without its trailing zero bytes, all of them (R162). -/
def stripZeros : Bytes → Bytes
  | [] => []
  | b :: rest =>
    match stripZeros rest with
    | [] => if b = 0#8 then [] else [b]
    | c :: cs => b :: c :: cs

/-- `ZeroPad.decode` (R162): `err 0` when the sequence is empty or its last byte is not `00`; otherwise the sequence
without all its trailing zero bytes, however many and across block boundaries. The block size is not used: DESIGN CHOICE
(log entry 25), at `bs = 0` and on unaligned sequences, outside R162's domain, it answers as on aligned ones. -/
def zeroPadDecode (I : InfoRep ι) (_bs : Nat) (p : Bytes) : Result Bytes ι :=
  if p.getLast? = some 0#8 then .ok (stripZeros p) else .err (I.number 0)

/-- ZeroPad, the framer the constructor builds (R160). -/
def zeroPad (I : InfoRep ι) : PaddingScheme ι := ⟨zeroPadEncode, zeroPadDecode I⟩

/-- The parameters of this engine: the unspecified block cipher, ZeroPad, the default `Info`, and the default capacities
(R7 to R10). -/
def params : Params Config.info :=
  { ciph := Config.ciph, pad := zeroPad Config.info, bufCap := Config.bufCap, lenw := Config.lenw }

end Sys2Proof.Machine
end

