-- ==== Sys2Proof/Machine/Construction.lean ====
section
/-! DEFINITION. The command NEW (40_construction.md R90 to R94): its acceptance (R138) and its micro-operation NEWOP
(R147). -/

namespace Sys2Proof.Machine

variable {ι : Type} {I : InfoRep ι}

/-- `WRITE_CMD` of `NEW bs` (R91, R138). Accepted when the engine is not constructed and a key is loaded; the key is
consumed. Otherwise UsageFault (R93, R94 (c)). -/
def commandNew (I : InfoRep ι) (bs : Nat) (s : State ι) : Outcome ι :=
  match s.phase with
  | .idle =>
    match s.cfgValid, s.keybuf with
    | false, some key => .next (accept I (.new (BitVec.ofNat 8 bs) key) .newop { s with keybuf := none })
    | _, _ => .next (usage I (encode (.new bs)) s)
  | _ => .refused .hostMoveWhileBusy

/-- `WRITE_CMD` of `NEW bs` (R91, R138) at the default `Info`. -/
def execNew (bs : Nat) (s : State) : Outcome := commandNew Config.info bs s

/-- NEWOP (R147): the cipher alone decides, by lengths, whether the pair is supported (R92). -/
def newop (P : Params I) (s : State ι) : Outcome ι :=
  match s.op with
  | .new bs key =>
    if P.ciph.supports key.length bs.toNat then
      .next (complete .ok (I.number 0) 0 none
        { addEvent (.evNew key.length bs.toNat (.ok ())) s with
          keystore := some key, cfgBs := bs, cfgPbs := bs, cfgValid := true })
    else
      let info := P.ciph.cfgErr key.length bs.toNat
      .next (complete .configuration info 0 none (addEvent (.evNew key.length bs.toNat (.err info)) s))
  | _ => .fault .operandAbsent

end Sys2Proof.Machine
end

