-- ==== Sys2Proof/Machine/Feedback.lean ====
section
/-! DEFINITION. IVLOAD (43_xorblock_sequencer.md R142), the micro-operation ENCRYPT and DECRYPT share, and the error it
raises (60_exceptions.md R205). -/

namespace Sys2Proof.Machine

variable {ι : Type} {I : InfoRep ι}

/-- Raising IvSizeError (R142, R205): COMPLETE with code 5 and the IV's length; the run is faulted (R13). -/
def raiseIvSize (I : InfoRep ι) (n : Nat) (s : State ι) : State ι :=
  addRunFault (.ivSize n) (complete .ivSize (I.number n) 0 none s)

/-- IVLOAD on the latched IV: it must have exactly `BS` bytes (R103, R118); `ph` is the block phase that follows. -/
def ivload (I : InfoRep ι) (iv : Bytes) (ph : Phase) (s : State ι) : Outcome ι :=
  if iv.length = s.bs then .next { s with fb := some iv, phase := ph }
  else .next (raiseIvSize I iv.length s)

end Sys2Proof.Machine
end

