-- ==== Sys2Proof/Machine/Decryption.lean ====
section
/-! DEFINITION. The command DECRYPT (42_decrypt.md R115 to R124): its acceptance (R138) and its micro-operations
SIZECHK (R141), DECBLK (R144) and PADDEC (R146). -/

namespace Sys2Proof.Machine

variable {ι : Type} {I : InfoRep ι}

/-- `WRITE_CMD` of `DECRYPT` (R115, R138). Accepted when the engine is constructed and an IV and data are loaded; both
are consumed. Otherwise UsageFault. -/
def commandDecrypt (I : InfoRep ι) (s : State ι) : Outcome ι :=
  match s.phase with
  | .idle =>
    match s.cfgValid, s.ivbuf, s.inbuf with
    | true, some iv, some data => .next (accept I (.decrypt iv data) .decChk { s with ivbuf := none, inbuf := none })
    | _, _, _ => .next (usage I (encode .decrypt) s)
  | _ => .refused .hostMoveWhileBusy

/-- `WRITE_CMD` of `DECRYPT` (R115, R138) at the default `Info`. -/
def execDecrypt (s : State) : Outcome := commandDecrypt Config.info s

/-- SIZECHK (R116, R141): the ciphertext's length must be a multiple of `BS`; the IV is not looked at. -/
def sizechk (I : InfoRep ι) (s : State ι) : Outcome ι :=
  match s.op with
  | .decrypt _ data =>
    if s.bs = 0 then .fault .zeroBlockSize
    else if data.length % s.bs ≠ 0 then
      .next (complete .invalidSize (I.number (data.length % s.bs)) 0 none s)
    else .next { s with nblk := some (data.length / s.bs), idx := some 0, acc := some [], phase := .decIv }
  | _ => .fault .operandAbsent

/-- DECBLK (R144) on its operands: block `i` of the latched ciphertext, the feedback and the accumulator. The cipher
call comes before the exclusive-or, and the feedback for the next block is the ciphertext block just consumed
(R118, R119). -/
def decblkOn (P : Params I) (s : State ι) (i : Nat) (key acc : Bytes) (blk fb : Block s.bs) : Outcome ι :=
  let r := P.ciph.dec key s.bs blk
  let s1 := addEvent (.evDec i blk.val (r.map (·.val))) { s with blk := some blk.val }
  match r with
  | .err info => .next (complete .cipher info i none s1)
  | .ok d =>
    let recovered := xorblk d fb
    .next { s1 with
      tmp := some d.val, outb := some recovered.val, acc := some (memAppend acc recovered), fb := some blk.val,
      idx := some (i + 1) }

/-- DECBLK (R144): fetches its operands. -/
def decblk (P : Params I) (i : Nat) (s : State ι) : Outcome ι :=
  match s.keystore, memRead (s.space .opData) (i * s.bs) s.bs, s.fb, s.acc with
  | some key, some blk, some fb, some acc =>
    match asBlock s.bs fb with
    | some fb => decblkOn P s i key acc blk fb
    | none => .fault .unequalBlocks
  | _, _, _, _ => .fault .operandAbsent

/-- PADDEC (R146): the deframing step, on the whole accumulator. DESIGN CHOICE (log entry 27): a deframed
result longer than a finite BUF_CAP is delivered like any other. R10 says that a result beyond BUF_CAP is refused, R59
that a decryption cannot exceed it, and R146 and R149 give PADDEC no such refusal; they differ only for a finite BUF_CAP
and a scheme, unlike ZeroPad, whose decode can answer more bytes than it was given. -/
def paddec (P : Params I) (s : State ι) : Outcome ι :=
  match s.acc with
  | some acc =>
    let r := P.pad.decode s.pbs acc
    let s1 := addEvent (.evPadDecode s.pbs acc r) s
    match r with
    | .err info => .next (complete .padding info 0 none s1)
    | .ok plain => .next (complete .ok (I.number 0) 0 (some plain) s1)
  | none => .fault .operandAbsent

/-- The step of phase DEC_BLK (R148): DECBLK below `NBLK`, PADDEC at it. -/
def decBlkStep (P : Params I) (s : State ι) : Outcome ι :=
  match s.idx, s.nblk with
  | some i, some n => if i < n then decblk P i s else if i = n then paddec P s else .fault .indexPastEnd
  | _, _ => .fault .operandAbsent

/-- The step of phase DEC_IV (R148). -/
def decIvStep (I : InfoRep ι) (s : State ι) : Outcome ι :=
  match s.op with
  | .decrypt iv _ => ivload I iv .decBlk s
  | _ => .fault .operandAbsent

end Sys2Proof.Machine
end

