-- ==== Sys2Proof/Machine/Encryption.lean ====
section
/-! DEFINITION. The command ENCRYPT (41_encrypt.md R100 to R109): its acceptance (R138) and its micro-operations PADENC
(R140), ENCBLK (R143) and ENCFIN (R145). -/

namespace Sys2Proof.Machine

variable {ι : Type} {I : InfoRep ι}

/-- `WRITE_CMD` of `ENCRYPT` (R100, R101, R138). Accepted when the engine is constructed and an IV and data are loaded;
both are consumed. Otherwise UsageFault. -/
def commandEncrypt (I : InfoRep ι) (s : State ι) : Outcome ι :=
  match s.phase with
  | .idle =>
    match s.cfgValid, s.ivbuf, s.inbuf with
    | true, some iv, some data => .next (accept I (.encrypt iv data) .encPad { s with ivbuf := none, inbuf := none })
    | _, _, _ => .next (usage I (encode .encrypt) s)
  | _ => .refused .hostMoveWhileBusy

/-- `WRITE_CMD` of `ENCRYPT` (R100, R138) at the default `Info`. -/
def execEncrypt (s : State) : Outcome := commandEncrypt Config.info s

/-- PADENC (R140): the framing step. `Pad.encode` is called once, whatever the plaintext (R102). -/
def padenc (P : Params I) (s : State ι) : Outcome ι :=
  match s.op with
  | .encrypt _ data =>
    if s.bs = 0 then .fault .zeroBlockSize
    else
      let padded := P.pad.encode s.pbs data
      if padded.length % s.bs ≠ 0 then .refused .framingUnaligned
      else if P.fits padded.length = false then .refused .framingOverCapacity
      else .next { addEvent (.evPadEncode s.pbs data padded) s with
        work := some padded, nblk := some (padded.length / s.bs), idx := some 0, acc := some [], phase := .encIv }
  | _ => .fault .operandAbsent

/-- ENCBLK (R143) on its operands: block `i` of WORK, the feedback and the accumulator. The exclusive-or comes before
the cipher call, and the feedback for the next block is the block the cipher put out (R104). -/
def encblkOn (P : Params I) (s : State ι) (i : Nat) (key acc : Bytes) (blk fb : Block s.bs) : Outcome ι :=
  let chained := xorblk blk fb
  let r := P.ciph.enc key s.bs chained
  let s1 := addEvent (.evEnc i chained.val (r.map (·.val))) { s with blk := some blk.val, tmp := some chained.val }
  match r with
  | .err info => .next (complete .cipher info i none s1)
  | .ok ob => .next { s1 with
      outb := some ob.val, acc := some (memAppend acc ob), fb := some ob.val, idx := some (i + 1) }

/-- ENCBLK (R143): fetches its operands. -/
def encblk (P : Params I) (i : Nat) (s : State ι) : Outcome ι :=
  match s.keystore, memRead s.work (i * s.bs) s.bs, s.fb, s.acc with
  | some key, some blk, some fb, some acc =>
    match asBlock s.bs fb with
    | some fb => encblkOn P s i key acc blk fb
    | none => .fault .unequalBlocks
  | _, _, _, _ => .fault .operandAbsent

/-- ENCFIN (R145): the result is the concatenation of all output blocks. -/
def encfin (I : InfoRep ι) (s : State ι) : Outcome ι :=
  match s.acc with
  | some acc => .next (complete .ok (I.number 0) 0 (some acc) s)
  | none => .fault .operandAbsent

/-- The step of phase ENC_BLK (R148): ENCBLK below `NBLK`, ENCFIN at it. -/
def encBlkStep (P : Params I) (s : State ι) : Outcome ι :=
  match s.idx, s.nblk with
  | some i, some n => if i < n then encblk P i s else if i = n then encfin I s else .fault .indexPastEnd
  | _, _ => .fault .operandAbsent

/-- The step of phase ENC_IV (R148). -/
def encIvStep (I : InfoRep ι) (s : State ι) : Outcome ι :=
  match s.op with
  | .encrypt iv _ => ivload I iv .encBlk s
  | _ => .fault .operandAbsent

end Sys2Proof.Machine
end

