-- ==== Sys2Proof/Machine/Engine.lean ====
section
/-! DEFINITION. The two agents (00_scope.md R12): the ENGINE's step by the phase table (43_xorblock_sequencer.md R148),
the HOST's moves (10_state.md R40), and which of the two has the step. -/

namespace Sys2Proof.Machine

variable {ι : Type} {I : InfoRep ι}

/-- The ENGINE's step (R148): exactly one in every phase other than IDLE. In IDLE it has none and waits (R42). -/
def engineStep (P : Params I) (s : State ι) : Outcome ι :=
  match s.phase with
  | .idle => .next s
  | .newop => newop P s
  | .encPad => padenc P s
  | .encIv => encIvStep I s
  | .encBlk => encBlkStep P s
  | .decChk => sizechk I s
  | .decIv => decIvStep I s
  | .decBlk => decBlkStep P s

/-- A READ move: the reply goes to the host and no state of the engine changes (R40, R57). -/
def reply (r : Reply ι) (s : State ι) : State ι := { s with replies := s.replies ++ [r] }

/-- LOAD_KEY (R35, R40). -/
def loadKey (P : Params I) (k : Bytes) (s : State ι) : Outcome ι :=
  if P.fits k.length then .next { s with keybuf := some k } else .refused .loadOverCapacity

/-- LOAD_IV (R36, R40): any length is taken; IVLOAD checks it later. -/
def loadIv (P : Params I) (v : Bytes) (s : State ι) : Outcome ι :=
  if P.fits v.length then .next { s with ivbuf := some v } else .refused .loadOverCapacity

/-- LOAD_IN (R37, R40). -/
def loadIn (P : Params I) (d : Bytes) (s : State ι) : Outcome ι :=
  if P.fits d.length then .next { s with inbuf := some d } else .refused .loadOverCapacity

/-- What WRITE_CMD does with a decoded command, for any `Info`; at the default it is `exec`
(`StepRunsTheDecodedCommand`). -/
def command (I : InfoRep ι) (i : Instr) (s : State ι) : Outcome ι :=
  match i with
  | .new bs => commandNew I bs s
  | .encrypt => commandEncrypt I s
  | .decrypt => commandDecrypt I s

/-- WRITE_CMD (R40, R82, R138): a word is decoded in the move itself; an illegal one is a UsageFault (R74). -/
def writeCmd (I : InfoRep ι) (w : Word) (s : State ι) : Outcome ι :=
  match decode w with
  | .legal i => command I i s
  | .illegal _ => .next (usage I w s)

/-- READ_OUT (R40): the whole of OUTBUF; with nothing to read it returns no value, changes nothing, and the run is
faulted (R206, U6). -/
def readOut (s : State ι) : State ι :=
  match s.outbuf with
  | some b => reply (.out b) s
  | none => addRunFault .readOutAbsent (reply .noValue s)

/-- A host move in IDLE (R40). -/
def hostMove (P : Params I) (m : HostMove) (s : State ι) : Outcome ι :=
  match m with
  | .loadKey k => loadKey P k s
  | .loadIv v => loadIv P v s
  | .loadIn d => loadIn P d s
  | .writeCmd w => writeCmd I w s
  | .readStatus => .next (reply (.status s.statusWord) s)
  | .readErrinfo => .next (reply (.errinfo s.errinfo) s)
  | .readErridx => .next (reply (.erridx s.erridx) s)
  | .readCfg => .next (reply (.cfg s.cfgWord) s)
  | .readOut => .next (readOut s)
  | .readLen which => .next (reply (.len (s.len which)) s)
  | .rst => .next (resetEngine I s)
  | .rstDuring _ => .next (resetEngine I s)

/-- The HOST's step: its next move, if its program has one; otherwise the engine waits in IDLE (R13, R42). -/
def hostStep (P : Params I) (s : State ι) : Outcome ι :=
  match s.host with
  | [] => .next s
  | m :: rest => hostMove P m { s with host := rest }

/-- A step while an operation runs: the ENGINE's, unless a reset in mid-operation arrives now (R230); the host has no
other move (R12, R243). -/
def busyStep (P : Params I) (s : State ι) : Outcome ι :=
  match s.host with
  | .rstDuring 0 :: rest => .next (resetEngine I { s with host := rest })
  | .rstDuring (k + 1) :: rest => engineStep P { s with host := .rstDuring k :: rest }
  | _ => engineStep P s

/-- One step of the machine with parameters `P` (R11, R12): the HOST's exactly when `PHASE = IDLE`. -/
def stepUnder (P : Params I) (s : State ι) : Outcome ι :=
  match s.phase with
  | .idle => hostStep P s
  | _ => busyStep P s

/-- The host writes the command word `w` next: the move stands first in its program, and PHASE is IDLE, without which
the host has no move (R12). -/
def placeCommand (w : Word) (s : State ι) : State ι :=
  { s with phase := .idle, host := .writeCmd w :: s.host }

end Sys2Proof.Machine
end

