-- ==== Sys2Proof/Machine/Step.lean ====
section
/-! DEFINITION. One step of this engine, and the placing of a command where the next step takes it. -/

namespace Sys2Proof.Machine

/-- One step of CBCE: `stepUnder` with the parameters of this engine. -/
def step (s : State) : Host.Outcome State Fault Refusal := stepUnder params s

/-- The state in which the next step runs the command whose bits are `w`: CBCE fetches nothing from memory (R63), so
the command is the host's next move. Log entry 7. -/
def State.withFetchWord (s : State) (nbits w : Nat) : State := placeCommand (commandWord nbits w) s

end Sys2Proof.Machine
end

