-- ==== Sys2Proof/Machine/Reference.lean ====
section
/-! DEFINITION. The commands as pure functions (45_properties.md R183, R184), and the collaborator calls they make
(41_encrypt.md R109, 42_decrypt.md R124). The engine does not use them: they are what it is compared with. -/

namespace Sys2Proof.Machine

variable {ι : Type} {I : InfoRep ι}

/-- `Res α = ok α | err (code, info, idx)` (R183). -/
inductive Res (α : Type) (ι : Type := Info) where
  | err (kind : ErrKind) (info : ι) (idx : Nat)
  | ok (a : α)
  deriving DecidableEq, Repr

/-- `blk(s, i) = s[i·bs .. (i+1)·bs)` (R14), defined where `(i+1)·bs ≤ |s|`; the other branch only makes the function
total, and no reference function reaches it on a block-aligned sequence. -/
def blockAt (bs : Nat) (s : Bytes) (i : Nat) : Block bs :=
  if h : i * bs + bs ≤ s.length then
    ⟨(s.drop (i * bs)).take bs, by rw [List.length_take, List.length_drop]; omega⟩
  else ⟨List.replicate bs 0#8, List.length_replicate⟩

/-- `chain_enc` (R183), with `left` blocks still to do. -/
def chainEnc (c : BlockCipher ι) (key : Bytes) (bs : Nat) (padded : Bytes) :
    (left i : Nat) → Block bs → Bytes → Res Bytes ι
  | 0, _, _, out => .ok out
  | left + 1, i, fb, out =>
    match c.enc key bs (xorblk (blockAt bs padded i) fb) with
    | .err info => .err .cipher info i
    | .ok ob => chainEnc c key bs padded left (i + 1) ob (out ++ ob.val)

/-- `cbc_encrypt` (R183). -/
def cbcEncrypt (P : Params I) (key : Bytes) (bs pbs : Nat) (iv pt : Bytes) : Res Bytes ι :=
  let padded := P.pad.encode pbs pt
  match asBlock bs iv with
  | none => .err .ivSize (I.number iv.length) 0
  | some fb => chainEnc P.ciph key bs padded (padded.length / bs) 0 fb []

/-- `chain_dec` (R184), with `left` blocks still to do. -/
def chainDec (c : BlockCipher ι) (key : Bytes) (bs : Nat) (ct : Bytes) :
    (left i : Nat) → Block bs → Bytes → Res Bytes ι
  | 0, _, _, acc => .ok acc
  | left + 1, i, fb, acc =>
    match c.dec key bs (blockAt bs ct i) with
    | .err info => .err .cipher info i
    | .ok d => chainDec c key bs ct left (i + 1) (blockAt bs ct i) (acc ++ (xorblk d fb).val)

/-- The recovered bytes before deframing: what DECRYPT accumulates in ACC (R119, R178). -/
def cbcRecover (P : Params I) (key : Bytes) (bs : Nat) (iv ct : Bytes) : Res Bytes ι :=
  if ct.length % bs ≠ 0 then .err .invalidSize (I.number (ct.length % bs)) 0
  else
    match asBlock bs iv with
    | none => .err .ivSize (I.number iv.length) 0
    | some fb => chainDec P.ciph key bs ct (ct.length / bs) 0 fb []

/-- `cbc_decrypt` (R184). -/
def cbcDecrypt (P : Params I) (key : Bytes) (bs pbs : Nat) (iv ct : Bytes) : Res Bytes ι :=
  match cbcRecover P key bs iv ct with
  | .err kind info idx => .err kind info idx
  | .ok acc =>
    match P.pad.decode pbs acc with
    | .err info => .err .padding info 0
    | .ok plain => .ok plain

/-- The `EvEnc` events of `chainEnc` (R109). -/
def chainEncEvents (c : BlockCipher ι) (key : Bytes) (bs : Nat) (padded : Bytes) :
    (left i : Nat) → Block bs → List (Event ι)
  | 0, _, _ => []
  | left + 1, i, fb =>
    let x := xorblk (blockAt bs padded i) fb
    match c.enc key bs x with
    | .err info => [.evEnc i x.val (.err info)]
    | .ok ob => .evEnc i x.val (.ok ob.val) :: chainEncEvents c key bs padded left (i + 1) ob

/-- What an accepted ENCRYPT appends to TRACE (R100, R109). -/
def encryptEvents (P : Params I) (key : Bytes) (bs pbs : Nat) (iv pt : Bytes) : List (Event ι) :=
  let padded := P.pad.encode pbs pt
  .evPadEncode pbs pt padded ::
    match asBlock bs iv with
    | none => []
    | some fb => chainEncEvents P.ciph key bs padded (padded.length / bs) 0 fb

/-- The `EvDec` events of `chainDec` (R124). -/
def chainDecEvents (c : BlockCipher ι) (key : Bytes) (bs : Nat) (ct : Bytes) : (left i : Nat) → List (Event ι)
  | 0, _ => []
  | left + 1, i =>
    let y := blockAt bs ct i
    match c.dec key bs y with
    | .err info => [.evDec i y.val (.err info)]
    | .ok d => .evDec i y.val (.ok d.val) :: chainDecEvents c key bs ct left (i + 1)

/-- What an accepted DECRYPT appends to TRACE (R115, R124). -/
def decryptEvents (P : Params I) (key : Bytes) (bs pbs : Nat) (iv ct : Bytes) : List (Event ι) :=
  if ct.length % bs ≠ 0 then []
  else if iv.length ≠ bs then []
  else
    chainDecEvents P.ciph key bs ct (ct.length / bs) 0 ++
      match cbcRecover P key bs iv ct with
      | .err _ _ _ => []
      | .ok acc => [.evPadDecode pbs acc (P.pad.decode pbs acc)]

end Sys2Proof.Machine
end

