-- ==== Sys2Proof/Machine/Script.lean ====
section
/-! DEFINITION. The host-script lines and the pseudo-instructions (30_encoding.md R79, R80) as host moves, and the port
labels of 10_state.md R40. -/

namespace Sys2Proof.Machine

/-- A line of a host script (R79); byte sequences stand as they are. `NEW n` is a line of R79 for `0 ≤ n ≤ 255` only;
terms with a larger `n` are no lines (DESIGN CHOICE, log entry 24). -/
inductive Line where
  | rst
  | ldkey (b : Bytes)
  | ldiv (b : Bytes)
  | ldin (b : Bytes)
  | new (n : Nat)
  | encrypt
  | decrypt
  | cmd (w : Word)
  | rdst | rdcfg | rdinfo | rdidx | rdout
  | rdlen (which : LenSel)
  deriving DecidableEq, Repr

/-- The host move of a line (R79). DESIGN CHOICE (log entry 24): outside `0 ≤ n ≤ 255`, where R79 gives `NEW n` no move,
the sum is taken modulo 2^32 as a word, whatever that word decodes to. -/
def Line.move : Line → HostMove
  | .rst => .rst
  | .ldkey b => .loadKey b
  | .ldiv b => .loadIv b
  | .ldin b => .loadIn b
  | .new n => .writeCmd (BitVec.ofNat 32 (0x00000001 + n * 256))
  | .encrypt => .writeCmd 0x00000002#32
  | .decrypt => .writeCmd 0x00000003#32
  | .cmd w => .writeCmd w
  | .rdst => .readStatus
  | .rdcfg => .readCfg
  | .rdinfo => .readErrinfo
  | .rdidx => .readErridx
  | .rdout => .readOut
  | .rdlen which => .readLen which

/-- The pseudo-instructions (R80). The `n` of INIT is that of its line `NEW n` (log entry 24). -/
inductive Pseudo where
  | init (key : Bytes) (n : Nat)
  | enc (iv data : Bytes)
  | dec (iv data : Bytes)
  deriving DecidableEq, Repr

/-- The lines of a pseudo-instruction up to and with its RDST (R80). -/
def Pseudo.lines : Pseudo → List Line
  | .init key n => [.rst, .ldkey key, .new n, .rdst]
  | .enc iv data => [.ldiv iv, .ldin data, .encrypt, .rdst]
  | .dec iv data => [.ldiv iv, .ldin data, .decrypt, .rdst]

/-- The lines that follow once RDST has returned `st`: ENC and DEC read the result only if `ERR = 0` (R80, R233). -/
def Pseudo.linesAfter (p : Pseudo) (st : Word) : List Line :=
  match p with
  | .init _ _ => []
  | .enc _ _ => if st.extractLsb' 0 4 = 0#4 then [.rdout] else []
  | .dec _ _ => if st.extractLsb' 0 4 = 0#4 then [.rdout] else []

/-- The port a host move goes through, by its label (R40); RST is a signal and has none. No rule depends on it. -/
def HostMove.port : HostMove → Option Nat
  | .loadKey _ => some 0
  | .loadIv _ => some 1
  | .loadIn _ => some 2
  | .writeCmd _ => some 3
  | .readStatus => some 4
  | .readErrinfo => some 5
  | .readErridx => some 6
  | .readCfg => some 7
  | .readOut => some 8
  | .readLen _ => some 9
  | .rst => none
  | .rstDuring _ => none

end Sys2Proof.Machine
end

