-- ==== Sys2Proof/Safety.lean ====
section
/-! DEFINITION. The terms claims are made in: final and faulted runs (00_scope.md R13), the invariant of the machine,
the capacity of the spaces (20_memory.md R51, R59), and the named properties of the collaborators
(44_collaborators.md R155, R158, R159), and the mapping of payloads (00_scope.md R9). -/

namespace Sys2Proof

variable {ι κ : Type} {I : InfoRep ι}

/-- The payload type `κ` that holds, as a payload, the image of what `ι` holds. -/
def InfoRep.mapInfo (f : ι → κ) (I : InfoRep ι) : InfoRep κ where
  number n := f (I.number n)
  word w := f (I.word w)

/-- The same answer, with `f` on the payload of an error. -/
def Result.mapInfo {α : Type} (f : ι → κ) : Result α ι → Result α κ
  | .err info => .err (f info)
  | .ok a => .ok a

/-- The same parameters, with `f` on every payload a collaborator answers. -/
def Params.mapInfo (f : ι → κ) (P : Params I) : Params (I.mapInfo f) where
  ciph :=
    { supported := P.ciph.supported
      cfgErr := fun keylen bs => f (P.ciph.cfgErr keylen bs)
      enc := fun key n x => (P.ciph.enc key n x).mapInfo f
      dec := fun key n y => (P.ciph.dec key n y).mapInfo f }
  pad := { encode := P.pad.encode, decode := fun bs p => (P.pad.decode bs p).mapInfo f }
  bufCap := P.bufCap
  lenw := P.lenw

end Sys2Proof

namespace Sys2Proof.Machine

variable {ι : Type} {I : InfoRep ι}

/-- A run that has recorded a UsageFault, an IvSizeError or a read of an absent result is faulted (R13, R206). -/
def State.faulted (s : State ι) : Bool := !s.runFaults.isEmpty

/-- The end of a run that is not faulted: no host move is left and `PHASE = IDLE` (R13). -/
def State.final (s : State ι) : Bool := s.host.isEmpty && s.phase == .idle && !s.faulted

/-- A reset in mid-operation stands next in the host's program (R230). -/
def State.rstPending (s : State ι) : Bool :=
  match s.host with
  | .rstDuring _ :: _ => true
  | _ => false

/-- Between operations the working group holds nothing (R31). -/
def State.quiet (s : State ι) : Prop :=
  s.fb = none ∧ s.blk = none ∧ s.tmp = none ∧ s.outb = none ∧
  s.idx = none ∧ s.nblk = none ∧ s.work = none ∧ s.acc = none

/-- The configuration group (R21 to R24, R151): constructed with one supported pair, or holding nothing. -/
def State.cfgInv (P : Params I) (s : State ι) : Prop :=
  (s.cfgValid = false → s.cfgBs = 0#8 ∧ s.cfgPbs = 0#8 ∧ s.keystore = none) ∧
  (s.cfgValid = true → s.cfgBs ≠ 0#8 ∧ s.cfgPbs = s.cfgBs ∧
    ∃ key, s.keystore = some key ∧ P.ciph.supports key.length s.bs = true)

/-- The values of STATUS that occur with `BUSY = 0` (R32). -/
def statusValues : List Word :=
  [0x00#32, 0x50#32, 0x51#32, 0x90#32, 0x93#32, 0x95#32, 0xD0#32, 0xD2#32, 0xD3#32, 0xD4#32, 0xD5#32, 0x1F#32]

/-- What the host finds in IDLE (R32 to R34, R37, R245). -/
def State.reportInv (I : InfoRep ι) (s : State ι) : Prop :=
  s.statusWord ∈ statusValues ∧
  (s.err = 0#4 → s.errinfo = I.number 0) ∧
  (s.err ≠ 3#4 → s.erridx = 0) ∧
  (s.outbuf ≠ none → s.err = 15#4 ∨ (s.err = 0#4 ∧ (s.lastop = 2#2 ∨ s.lastop = 3#2))) ∧
  (s.err = 0#4 → (s.lastop = 2#2 ∨ s.lastop = 3#2) → s.outbuf ≠ none)

/-- While an operation runs the report is cleared and there is no result (R138 CLEAR). -/
def State.cleared (I : InfoRep ι) (s : State ι) : Prop :=
  s.err = 0#4 ∧ s.done = false ∧ s.lastop = 0#2 ∧ s.errinfo = I.number 0 ∧ s.erridx = 0 ∧ s.outbuf = none

/-- The block registers other than FB at block `i`: nothing before the first block, a block of `BS` bytes after it
(R26). -/
def State.blockRegs (s : State ι) (i : Nat) : Prop :=
  (i = 0 → s.blk = none ∧ s.tmp = none ∧ s.outb = none) ∧
  (i ≠ 0 → ∃ b t o, s.blk = some b ∧ s.tmp = some t ∧ s.outb = some o ∧
    b.length = s.bs ∧ t.length = s.bs ∧ o.length = s.bs)

/-- The working group while ENCRYPT stands at block `i` of `n` (R27 to R29, R143): `|ACC| = IDX·BS`, and FB is the last
block of `iv ++ ACC`: the IV at block 0, the ciphertext block just produced afterwards. -/
def State.encInv (P : Params I) (s : State ι) : Prop :=
  ∃ iv data work acc n i,
    s.op = .encrypt iv data ∧ work = P.pad.encode s.pbs data ∧ s.work = some work ∧ work.length = n * s.bs ∧
    s.nblk = some n ∧ s.idx = some i ∧ i ≤ n ∧ s.acc = some acc ∧ acc.length = i * s.bs ∧
    iv.length = s.bs ∧ s.fb = some ((iv ++ acc).drop (i * s.bs)) ∧ s.blockRegs i

/-- The working group while DECRYPT stands at block `i` of `n` (R27 to R29, R144): FB is block `i` of `iv ++ data`: the
IV at block 0, the ciphertext block just consumed afterwards. -/
def State.decInv (s : State ι) : Prop :=
  ∃ iv data acc n i,
    s.op = .decrypt iv data ∧ s.work = none ∧ data.length = n * s.bs ∧
    s.nblk = some n ∧ s.idx = some i ∧ i ≤ n ∧ s.acc = some acc ∧ acc.length = i * s.bs ∧
    iv.length = s.bs ∧ s.fb = some (((iv ++ data).drop (i * s.bs)).take s.bs) ∧ s.blockRegs i

/-- What holds of the working group, the latches and the report in each phase (R30, R31, R138 to R148). -/
def State.phaseInv (P : Params I) (s : State ι) : Prop :=
  match s.phase with
  | .idle => s.quiet ∧ s.op = .none ∧ s.reportInv I
  | .newop => s.quiet ∧ s.cleared I ∧ s.cfgValid = false ∧ ∃ bs key, s.op = .new bs key
  | .encPad => s.quiet ∧ s.cleared I ∧ s.cfgValid = true ∧ ∃ iv data, s.op = .encrypt iv data
  | .encIv => s.cleared I ∧ s.cfgValid = true ∧ s.fb = none ∧ s.blockRegs 0 ∧ s.idx = some 0 ∧ s.acc = some [] ∧
      ∃ iv data n, s.op = .encrypt iv data ∧ s.work = some (P.pad.encode s.pbs data) ∧
        (P.pad.encode s.pbs data).length = n * s.bs ∧ s.nblk = some n
  | .encBlk => s.cleared I ∧ s.cfgValid = true ∧ s.encInv P
  | .decChk => s.quiet ∧ s.cleared I ∧ s.cfgValid = true ∧ ∃ iv data, s.op = .decrypt iv data
  | .decIv => s.cleared I ∧ s.cfgValid = true ∧ s.fb = none ∧ s.blockRegs 0 ∧ s.idx = some 0 ∧ s.acc = some [] ∧
      s.work = none ∧ ∃ iv data n, s.op = .decrypt iv data ∧ data.length = n * s.bs ∧ s.nblk = some n
  | .decBlk => s.cleared I ∧ s.cfgValid = true ∧ s.decInv

/-- An IvSizeError or UsageFault in STATUS belongs to a faulted run (R13). -/
def State.faultInv (s : State ι) : Prop :=
  s.err = 5#4 ∨ s.err = 15#4 → s.faulted = true

/-- The invariant of the machine with parameters `P`. -/
def State.Inv (P : Params I) (s : State ι) : Prop :=
  s.cfgInv P ∧ s.phaseInv P ∧ s.faultInv

/-- Every space holds a sequence that fits the capacity: no address exceeds `BUF_CAP − 1` (R51, R59).
Every step keeps it with ZeroPad (`SpacesStayWithinCapacity`); PADDEC with a lengthening scheme may not (log entry 27). -/
def Memory.wf (P : Params I) (s : State ι) : Bool :=
  [Space.keybuf, .ivbuf, .inbuf, .work, .acc, .outbuf, .opKey, .opIv, .opData].all
    (fun sp => P.fits (lenOf (s.space sp)))

/-- `CiphInverse(key, bs)` (R155): on every block encryption succeeds and decryption undoes it. -/
def CiphInverse (c : BlockCipher ι) (key : Bytes) (bs : Nat) : Prop :=
  ∀ x : Block bs, ∃ y : Block bs, c.enc key bs x = .ok y ∧ c.dec key bs y = .ok x

/-- PadAligned (R158), the one property the engine relies on. -/
def PadAligned (p : PaddingScheme ι) : Prop :=
  ∀ bs d, 1 ≤ bs → (p.encode bs d).length % bs = 0

/-- PadExtends (R159): the data is a prefix of the framed data. Asked, like PadAligned, for block sizes of at least 1
(DEDUCED, log entry 26). -/
def PadExtends (p : PaddingScheme ι) : Prop :=
  ∀ bs d, 1 ≤ bs → d <+: p.encode bs d

/-- PadAlways (R159): every data gains padding. Asked for block sizes of at least 1 (DEDUCED, log entry 26). -/
def PadAlways (p : PaddingScheme ι) : Prop :=
  ∀ bs d, 1 ≤ bs → d.length + 1 ≤ (p.encode bs d).length

/-- PadInverse(bs, d) (R159): a property of a scheme and a datum. -/
def PadInverse (p : PaddingScheme ι) (bs : Nat) (d : Bytes) : Prop :=
  p.decode bs (p.encode bs d) = .ok d

/-- The machine with parameters `P`; `Sys2Proof.core` is the one with `params`. -/
def coreUnder (P : Params I) : Host.Core :=
  { State := State ι, Fault := Fault, Refusal := Refusal, step := stepUnder P, reset := State.resetOf I }

/-- The same event, with `f` on its payload. -/
def Event.mapInfo {κ : Type} (f : ι → κ) : Event ι → Event κ
  | .evNew keylen bs r => .evNew keylen bs (r.mapInfo f)
  | .evPadEncode bs data out => .evPadEncode bs data out
  | .evEnc i x r => .evEnc i x (r.mapInfo f)
  | .evDec i y r => .evDec i y (r.mapInfo f)
  | .evPadDecode bs data r => .evPadDecode bs data (r.mapInfo f)

/-- The same reply, with `f` on its payload. -/
def Reply.mapInfo {κ : Type} (f : ι → κ) : Reply ι → Reply κ
  | .status w => .status w
  | .errinfo i => .errinfo (f i)
  | .erridx n => .erridx n
  | .cfg w => .cfg w
  | .out s => .out s
  | .noValue => .noValue
  | .len n => .len n

/-- The same state, with `f` on every payload: ERRINFO, and those in TRACE and in the replies. -/
def State.mapInfo {κ : Type} (f : ι → κ) (s : State ι) : State κ :=
  { s with errinfo := f s.errinfo, trace := s.trace.map (·.mapInfo f), replies := s.replies.map (·.mapInfo f) }

/-- The same outcome of a step, with `f` on every payload of its next state. -/
def mapOutcome {κ : Type} (f : ι → κ) : Outcome ι → Outcome κ
  | .next s => .next (s.mapInfo f)
  | .fault r => .fault r
  | .refused r => .refused r

/-- `k` steps of the machine with parameters `P` lead from `s` to `t`, none of them stopping. -/
def runsTo (P : Params I) (k : Nat) (s t : State ι) : Prop :=
  Host.Core.run (coreUnder P) k s = .next t

/-- The operation in progress in `s` ends after exactly `k` steps, in `t`: IDLE is reached there and not before
(R149). -/
def endsAfter (P : Params I) (k : Nat) (s t : State ι) : Prop :=
  runsTo P k s t ∧ t.phase = .idle ∧ ∀ j u, j < k → runsTo P j s u → u.phase ≠ .idle

/-- Whether a decoded command, written in IDLE, is acceptable (R138, R148); it is rejected by USAGE otherwise. -/
def State.accepts (s : State ι) : Instr → Prop
  | .new _ => s.cfgValid = false ∧ s.keybuf ≠ none
  | .encrypt => s.cfgValid = true ∧ s.ivbuf ≠ none ∧ s.inbuf ≠ none
  | .decrypt => s.cfgValid = true ∧ s.ivbuf ≠ none ∧ s.inbuf ≠ none

/-- A state in which the constructed engine, holding `key`, can accept a command (R101, R138): the host has the move
and no reset in mid-operation stands next in its program. -/
def State.ready (P : Params I) (s : State ι) (key : Bytes) : Prop :=
  s.Inv P ∧ s.phase = .idle ∧ s.rstPending = false ∧ s.cfgValid = true ∧ s.keystore = some key

/-- Every piece of the engine's state has the value of the table of R42. -/
def State.atReset (I : InfoRep ι) (s : State ι) : Prop :=
  s.cfgValid = false ∧ s.cfgBs = 0#8 ∧ s.cfgPbs = 0#8 ∧ s.keystore = none ∧
  s.phase = .idle ∧ s.op = .none ∧
  s.fb = none ∧ s.blk = none ∧ s.tmp = none ∧ s.outb = none ∧
  s.idx = none ∧ s.nblk = none ∧ s.work = none ∧ s.acc = none ∧
  s.statusWord = 0x00000000#32 ∧ s.errinfo = I.number 0 ∧ s.erridx = 0 ∧
  s.keybuf = none ∧ s.ivbuf = none ∧ s.inbuf = none ∧ s.outbuf = none ∧
  (∀ which, s.len which = 0) ∧ s.trace = []

/-- A bound on the engine's steps still to do (R149): 1 for NEW, `3 + NBLK` for ENCRYPT and DECRYPT, one less for each
step done. -/
def State.stepsLeft (P : Params I) (s : State ι) : Nat :=
  match s.phase, s.op with
  | .newop, _ => 1
  | .encPad, .encrypt _ data => 3 + (P.pad.encode s.pbs data).length / s.bs
  | .decChk, .decrypt _ data => 3 + data.length / s.bs
  | .encIv, _ => 2 + s.nblk.getD 0
  | .decIv, _ => 2 + s.nblk.getD 0
  | .encBlk, _ => 1 + (s.nblk.getD 0 - s.idx.getD 0)
  | .decBlk, _ => 1 + (s.nblk.getD 0 - s.idx.getD 0)
  | _, _ => 0

end Sys2Proof.Machine
end

