-- ==== Sys2Proof/Certificates/Slice0/Obligations.lean ====
section
/-! DEFINITION. The statements for the provers. Each is for every choice of the parameters (00_scope.md R7 to R10: the
payload type `ι` with its `I`, and in `P` the block cipher, the padding scheme and the capacity) unless it names one;
the engine itself is the case `I = Config.info`, `P = params` (`StepRunsTheDecodedCommand`). A statement about `exec`, which
is fixed at the default `Info`, is for that `Info`; `command I` is the same for any. -/

open Sys2Proof Sys2Proof.Machine

/-! ### Encoding (30_encoding.md) -/

/-- Decoding the encoding of a command a word can express gives that command back, its block size included
(R71 to R73, R82). -/
def Obligations.DecodeOfEncode : Prop :=
  ∀ i : Instr, i.wf = true → decode (encode i) = .legal i

/-- A word that decodes to a command is the encoding of that command and of no other (R73, R82). -/
def Obligations.EncodeOfDecode : Prop :=
  ∀ (w : Word) (i : Instr), decode w = .legal i → i.wf = true ∧ encode i = w

/-- R73: a word `w` is the command exactly when `w & mask = match`; the block size of NEW is `w[15:8]`; the examples. -/
def Obligations.CommandsAreTheirOpcodeRows : Prop :=
  (∀ w : Word,
    ((∃ bs, decode w = .legal (.new bs)) ↔ w &&& 0xFFFF00FF#32 = 0x00000001#32) ∧
    (decode w = .legal .encrypt ↔ w &&& 0xFFFFFFFF#32 = 0x00000002#32) ∧
    (decode w = .legal .decrypt ↔ w &&& 0xFFFFFFFF#32 = 0x00000003#32) ∧
    (∀ bs, decode w = .legal (.new bs) → bs = w.toNat / 256 % 256)) ∧
  encode (.new 16) = 0x00001001#32 ∧ encode (.new 4) = 0x00000401#32 ∧ encode (.new 32) = 0x00002001#32 ∧
  encode (.new 0) = 0x00000001#32 ∧ encode .encrypt = 0x00000002#32 ∧ encode .decrypt = 0x00000003#32

/-- R74: which words are illegal, and that writing one is a UsageFault that reports the word and changes nothing else;
the run is faulted (R13). MODEL'S OWN: how the run records it and goes on (log entry 1). -/
def Obligations.IllegalWordsAreRejected : Prop :=
  (∀ w : Word, (∃ why, decode w = .illegal why) ↔
    (w.toNat % 256 = 0 ∨ 4 ≤ w.toNat % 256 ∨ w.toNat / 65536 ≠ 0 ∨
      ((w.toNat % 256 = 2 ∨ w.toNat % 256 = 3) ∧ w.toNat / 256 % 256 ≠ 0))) ∧
  (∀ (ι : Type) (I : InfoRep ι) (P : Params I) (s : State ι) (w : Word) (rest : List HostMove),
    s.phase = .idle → s.host = .writeCmd w :: rest → (∃ why, decode w = .illegal why) →
    stepUnder P s = .next { s with
      host := rest, err := 15#4, done := true, lastop := 0#2, errinfo := I.word w, erridx := 0
      runFaults := s.runFaults ++ [.usage w] })

/-- The words of 95_test_vectors.md 3.1 (V70 to V7C), written out, decode as the table there says. -/
def Obligations.WrittenWordsDecode : Prop :=
  decode 0x00000401#32 = .legal (.new 4) ∧ decode 0x00001001#32 = .legal (.new 16) ∧
  decode 0x0000FF01#32 = .legal (.new 255) ∧ decode 0x00000001#32 = .legal (.new 0) ∧
  decode 0x00000002#32 = .legal .encrypt ∧ decode 0x00000003#32 = .legal .decrypt ∧
  decode 0x00000000#32 = .illegal .opcode ∧
  decode 0x00000004#32 = .illegal .opcode ∧
  decode 0x00000102#32 = .illegal .bsarg ∧
  decode 0x00000403#32 = .illegal .bsarg ∧
  decode 0x00010001#32 = .illegal .reservedBits ∧
  decode 0x80000002#32 = .illegal .reservedBits ∧
  decode 0xFFFFFFFF#32 = .illegal .reservedBits

/-! ### The step -/

/-- The step of the engine is the step with its own parameters, for which the statements about every `P` hold; it takes
the command port's word, decodes it and runs the command it decodes to (R40, R82, R138): `exec` of it, which at any
other `Info` is `command` of it. -/
def Obligations.StepRunsTheDecodedCommand : Prop :=
  (∀ s : State, step s = stepUnder params s) ∧
  (∀ (P : Params Config.info) (s : State) (w : Word) (rest : List HostMove) (i : Instr),
    s.phase = .idle → s.host = .writeCmd w :: rest → decode w = .legal i →
    stepUnder P s = exec i { s with host := rest }) ∧
  (∀ (ι : Type) (I : InfoRep ι) (P : Params I) (s : State ι) (w : Word) (rest : List HostMove) (i : Instr),
    s.phase = .idle → s.host = .writeCmd w :: rest → decode w = .legal i →
    stepUnder P s = command I i { s with host := rest }) ∧
  ∀ (i : Instr) (s : State), exec i s = command Config.info i s

/-- MODEL'S OWN (log entry 7): in IDLE, a table word placed as the host's next move is run by the very next step. -/
def Obligations.PlacedCommandRunsNext : Prop :=
  ∀ (s : State) (w : Nat) (i : Instr),
    s.phase = .idle → decodeTableWord 32 w = some i → step (s.withFetchWord 32 w) = exec i s

/-- While an operation runs there is no host move (R12): a command then is refused. MODEL'S OWN form of "no move"
(log entry 6). -/
def Obligations.NoCommandWhileBusy : Prop :=
  ∀ (i : Instr) (s : State), s.phase ≠ .idle → exec i s = .refused .hostMoveWhileBusy

/-- MODEL'S OWN (log entry 2): with no host move left, the engine waits in IDLE and nothing changes. -/
def Obligations.IdleEngineWaits : Prop :=
  ∀ (ι : Type) (I : InfoRep ι) (P : Params I) (s : State ι), s.phase = .idle → s.host = [] → stepUnder P s = .next s

/-! ### Reset (10_state.md R42, 70_reset_and_hazards.md R230) -/

/-- R42: after power-on, and after the RST move, every piece of state has the value of the table. -/
def Obligations.ResetValues : Prop :=
  State.reset.atReset Config.info ∧ State.reset.errinfo = 0#32 ∧
  (∀ (ι : Type) (I : InfoRep ι), (State.resetOf I).atReset I) ∧
  ∀ (ι : Type) (I : InfoRep ι) (P : Params I) (s : State ι) (rest : List HostMove),
    s.phase = .idle → s.host = .rst :: rest → ∃ t, stepUnder P s = .next t ∧ t.atReset I

/-- RST resets from every phase in one step and abandons the operation (R230); the host's own data stays
(MODEL'S OWN, log entry 8). -/
def Obligations.RstResetsFromEveryPhase : Prop :=
  ∀ (ι : Type) (I : InfoRep ι) (P : Params I) (s : State ι) (rest : List HostMove),
    ((s.phase = .idle ∧ s.host = .rst :: rest) ∨ s.host = .rstDuring 0 :: rest) →
    ∃ t, stepUnder P s = .next t ∧ t.atReset I ∧
      t.host = rest ∧ t.replies = s.replies ∧ t.runFaults = s.runFaults

/-! ### XORBLK (43_xorblock_sequencer.md R135, R137) -/

/-- R135: byte `k` of the result is the exclusive-or of the bytes `k` of the operands, for every `k`; the example. -/
def Obligations.XorblkIsBytewise : Prop :=
  (∀ (n : Nat) (a b : Block n), (xorblk a b).val.length = n ∧
    ∀ k, k < n → (xorblk a b).val.getD k 0#8 = a.val.getD k 0#8 ^^^ b.val.getD k 0#8) ∧
  xorblk (n := 4) ⟨[0x41#8, 0x42#8, 0x43#8, 0x44#8], rfl⟩ ⟨[0x10#8, 0x20#8, 0x30#8, 0x40#8], rfl⟩ =
    ⟨[0x51#8, 0x62#8, 0x73#8, 0x04#8], rfl⟩

/-- R137 (a) to (g): the algebra of XORBLK. -/
def Obligations.XorblkAlgebra : Prop :=
  ∀ (n : Nat) (a a' b c z : Block n), z.val = List.replicate n 0#8 →
    xorblk a b = xorblk b a ∧
    xorblk (xorblk a b) c = xorblk a (xorblk b c) ∧
    xorblk a z = a ∧
    xorblk a a = z ∧
    xorblk (xorblk a b) b = a ∧
    (xorblk a b = xorblk a' b → a = a') ∧
    (∀ k, k < n →
      (xorblk a b).val.getD k 0#8 ^^^ (xorblk a' b).val.getD k 0#8 = a.val.getD k 0#8 ^^^ a'.val.getD k 0#8) ∧
    (∀ k, k < n →
      ((xorblk a b).val.getD k 0#8 ≠ (xorblk a' b).val.getD k 0#8 ↔ a.val.getD k 0#8 ≠ a'.val.getD k 0#8))

/-! ### ZeroPad (44_collaborators.md R161 to R163) -/

/-- R161: what ZeroPad appends, the length of the result, PadAligned, PadExtends and PadAlways, and the examples. The
rule is the spec's own choice ("(v), minimality, is this spec's assumption"; log entry 11). -/
def Obligations.ZeroPadEncodes : Prop :=
  (∀ (ι : Type) (I : InfoRep ι) (bs : Nat) (d : Bytes), 1 ≤ bs →
    (∃ p, p = bs - d.length % bs ∧ 1 ≤ p ∧ p ≤ bs ∧ (zeroPad I).encode bs d = d ++ List.replicate p 0#8) ∧
    ((zeroPad I).encode bs d).length = (d.length / bs + 1) * bs ∧
    ((zeroPad I).encode bs d).length % bs = 0 ∧
    d <+: (zeroPad I).encode bs d ∧
    d.length + 1 ≤ ((zeroPad I).encode bs d).length) ∧
  (∀ (ι : Type) (I : InfoRep ι), PadAligned (zeroPad I) ∧ PadExtends (zeroPad I) ∧ PadAlways (zeroPad I)) ∧
  (zeroPad Config.info).encode 4 [] = [0x00#8, 0x00#8, 0x00#8, 0x00#8] ∧
  (zeroPad Config.info).encode 4 [0x41#8] = [0x41#8, 0x00#8, 0x00#8, 0x00#8] ∧
  (zeroPad Config.info).encode 4 [0x41#8, 0x42#8, 0x43#8] = [0x41#8, 0x42#8, 0x43#8, 0x00#8] ∧
  (zeroPad Config.info).encode 4 [0x41#8, 0x42#8, 0x43#8, 0x44#8] =
    [0x41#8, 0x42#8, 0x43#8, 0x44#8, 0x00#8, 0x00#8, 0x00#8, 0x00#8] ∧
  (zeroPad Config.info).encode 4 [0x41#8, 0x42#8, 0x43#8, 0x44#8, 0x45#8] =
    [0x41#8, 0x42#8, 0x43#8, 0x44#8, 0x45#8, 0x00#8, 0x00#8, 0x00#8]

/-- R162: decode fails with payload 0 on an empty sequence and on one whose last byte is not `00`, and otherwise
removes all trailing zero bytes. The rule is the spec's own choice ("the exact rule is this spec's"; log entry 11).
MODEL'S OWN: that it answers so at block size 0 and on unaligned sequences too (log entry 25). -/
def Obligations.ZeroPadDecodes : Prop :=
  (∀ (ι : Type) (I : InfoRep ι) (bs : Nat) (p : Bytes),
    p = [] ∨ p.getLast? ≠ some 0#8 → (zeroPad I).decode bs p = .err (I.number 0)) ∧
  (∀ (ι : Type) (I : InfoRep ι) (bs z : Nat) (m : Bytes), 1 ≤ z → m = [] ∨ m.getLast? ≠ some 0#8 →
    (zeroPad I).decode bs (m ++ List.replicate z 0#8) = .ok m)

/-- R163: ZeroPad inverts exactly on data that is empty or does not end in `00`; on other data it returns the data
without all its trailing zero bytes, and no error. -/
def Obligations.ZeroPadInvertsUnlessDataEndsInZero : Prop :=
  ∀ (ι : Type) (I : InfoRep ι) (bs : Nat) (d : Bytes), 1 ≤ bs →
    (PadInverse (zeroPad I) bs d ↔ d = [] ∨ d.getLast? ≠ some 0#8) ∧
    (∀ (m : Bytes) (z : Nat), 1 ≤ z → d = m ++ List.replicate z 0#8 → m = [] ∨ m.getLast? ≠ some 0#8 →
      (zeroPad I).decode bs ((zeroPad I).encode bs d) = .ok m)

/-! ### Accepting a command (43_xorblock_sequencer.md R138) -/

/-- R138: in IDLE, the word `w` written to CMD is accepted, its operands moved from the buffers into the latches and the
report cleared, or rejected by USAGE. MODEL'S OWN: how the run records the UsageFault and goes on (log entry 1). -/
def Obligations.AcceptProcedure : Prop :=
  ∀ (ι : Type) (I : InfoRep ι) (P : Params I) (s : State ι) (w : Word) (rest : List HostMove),
    s.phase = .idle → s.host = .writeCmd w :: rest →
    let usageState : State ι := { s with
      host := rest, err := 15#4, done := true, lastop := 0#2, errinfo := I.word w, erridx := 0
      runFaults := s.runFaults ++ [.usage w] }
    ((∃ why, decode w = .illegal why) → stepUnder P s = .next usageState) ∧
    (∀ bs, decode w = .legal (.new bs) →
      (s.cfgValid = true ∨ s.keybuf = none → stepUnder P s = .next usageState) ∧
      (∀ key, s.cfgValid = false → s.keybuf = some key → stepUnder P s = .next { s with
        host := rest, op := .new (BitVec.ofNat 8 bs) key, keybuf := none, phase := .newop
        outbuf := none, err := 0#4, done := false, lastop := 0#2, errinfo := I.number 0, erridx := 0 })) ∧
    (decode w = .legal .encrypt →
      (s.cfgValid = false ∨ s.ivbuf = none ∨ s.inbuf = none → stepUnder P s = .next usageState) ∧
      (∀ iv data, s.cfgValid = true → s.ivbuf = some iv → s.inbuf = some data → stepUnder P s = .next { s with
        host := rest, op := .encrypt iv data, ivbuf := none, inbuf := none, phase := .encPad
        outbuf := none, err := 0#4, done := false, lastop := 0#2, errinfo := I.number 0, erridx := 0 })) ∧
    (decode w = .legal .decrypt →
      (s.cfgValid = false ∨ s.ivbuf = none ∨ s.inbuf = none → stepUnder P s = .next usageState) ∧
      (∀ iv data, s.cfgValid = true → s.ivbuf = some iv → s.inbuf = some data → stepUnder P s = .next { s with
        host := rest, op := .decrypt iv data, ivbuf := none, inbuf := none, phase := .decChk
        outbuf := none, err := 0#4, done := false, lastop := 0#2, errinfo := I.number 0, erridx := 0 }))

/-- The frame of the three commands' acceptance or rejection: the configuration group, the block registers, the
counters, WORK, ACC, TRACE and the host's own data are unchanged; a space keeps every byte unless the command consumed
it (R64), and OUTBUF unless the command was accepted. -/
def Obligations.CommandFrame : Prop :=
  ∀ (i : Instr) (s t : State), exec i s = .next t →
    t.cfgValid = s.cfgValid ∧ t.cfgBs = s.cfgBs ∧ t.cfgPbs = s.cfgPbs ∧ t.keystore = s.keystore ∧
    t.fb = s.fb ∧ t.blk = s.blk ∧ t.tmp = s.tmp ∧ t.outb = s.outb ∧ t.idx = s.idx ∧ t.nblk = s.nblk ∧
    t.trace = s.trace ∧ t.host = s.host ∧ t.replies = s.replies ∧
    (∀ a, t.readByte .work a = s.readByte .work a ∧ t.readByte .acc a = s.readByte .acc a) ∧
    ((∀ bs, i ≠ .new bs) → ∀ a, t.readByte .keybuf a = s.readByte .keybuf a) ∧
    (∀ bs, i = .new bs → ∀ a, t.readByte .ivbuf a = s.readByte .ivbuf a ∧ t.readByte .inbuf a = s.readByte .inbuf a) ∧
    (t.phase = .idle → t.op = s.op ∧
      ∀ sp a, t.readByte sp a = s.readByte sp a)

/-! ### The micro-operations (43_xorblock_sequencer.md R140 to R147) -/

/-- R147 NEWOP: the whole effect in both outcomes. -/
def Obligations.NewopStep : Prop :=
  ∀ (ι : Type) (I : InfoRep ι) (P : Params I) (s : State ι) (bs : BitVec 8) (key : Bytes),
    s.phase = .newop → s.op = .new bs key →
    (P.ciph.supports key.length bs.toNat = true → engineStep P s = .next { s with
      trace := s.trace ++ [.evNew key.length bs.toNat (.ok ())]
      keystore := some key, cfgBs := bs, cfgPbs := bs, cfgValid := true
      err := 0#4, done := true, lastop := 1#2, errinfo := I.number 0, erridx := 0, outbuf := none
      fb := none, blk := none, tmp := none, outb := none, idx := none, nblk := none, work := none, acc := none
      op := .none, phase := .idle }) ∧
    (P.ciph.supports key.length bs.toNat = false → engineStep P s = .next { s with
      trace := s.trace ++ [.evNew key.length bs.toNat (.err (P.ciph.cfgErr key.length bs.toNat))]
      err := 1#4, done := true, lastop := 1#2, errinfo := P.ciph.cfgErr key.length bs.toNat, erridx := 0
      outbuf := none
      fb := none, blk := none, tmp := none, outb := none, idx := none, nblk := none, work := none, acc := none
      op := .none, phase := .idle })

/-- R140 PADENC: the framing, and that there is no step for an unaligned result or one beyond the capacity. MODEL'S OWN:
the form of "no step", a refusal under a name for each (log entry 13, DESIGN CHOICE). -/
def Obligations.PadencStep : Prop :=
  ∀ (ι : Type) (I : InfoRep ι) (P : Params I) (s : State ι) (iv data : Bytes),
    s.phase = .encPad → s.op = .encrypt iv data → s.bs ≠ 0 →
    let padded := P.pad.encode s.pbs data
    (padded.length % s.bs = 0 → P.fits padded.length = true → engineStep P s = .next { s with
      trace := s.trace ++ [.evPadEncode s.pbs data padded]
      work := some padded, nblk := some (padded.length / s.bs), idx := some 0, acc := some [], phase := .encIv }) ∧
    (padded.length % s.bs ≠ 0 → engineStep P s = .refused .framingUnaligned) ∧
    (padded.length % s.bs = 0 → P.fits padded.length = false → engineStep P s = .refused .framingOverCapacity)

/-- R141 SIZECHK: InvalidSizeError with the remainder as payload, or the number of blocks. -/
def Obligations.SizechkStep : Prop :=
  ∀ (ι : Type) (I : InfoRep ι) (P : Params I) (s : State ι) (iv data : Bytes),
    s.phase = .decChk → s.op = .decrypt iv data → s.bs ≠ 0 →
    (data.length % s.bs ≠ 0 → engineStep P s = .next { s with
      err := 2#4, done := true, lastop := 3#2, errinfo := I.number (data.length % s.bs), erridx := 0
      outbuf := none
      fb := none, blk := none, tmp := none, outb := none, idx := none, nblk := none, work := none, acc := none
      op := .none, phase := .idle }) ∧
    (data.length % s.bs = 0 → engineStep P s = .next { s with
      nblk := some (data.length / s.bs), idx := some 0, acc := some [], phase := .decIv })

/-- R142 IVLOAD, in ENC_IV and in DEC_IV: the feedback is loaded, or IvSizeError with the IV's length as payload (at the
default `Info` a length of 2^32 or more has no payload the spec states: log entry 5), and the run is faulted (R13, log
entry 1). -/
def Obligations.IvloadStep : Prop :=
  ∀ (ι : Type) (I : InfoRep ι) (P : Params I) (s : State ι) (iv data : Bytes),
    ((s.phase = .encIv ∧ s.op = .encrypt iv data) ∨ (s.phase = .decIv ∧ s.op = .decrypt iv data)) →
    (iv.length = s.bs → engineStep P s = .next { s with
      fb := some iv, phase := if s.phase = .encIv then .encBlk else .decBlk }) ∧
    (iv.length ≠ s.bs → engineStep P s = .next { s with
      err := 5#4, done := true, lastop := if s.phase = .encIv then 2#2 else 3#2, errinfo := I.number iv.length
      erridx := 0, outbuf := none
      fb := none, blk := none, tmp := none, outb := none, idx := none, nblk := none, work := none, acc := none
      op := .none, phase := .idle, runFaults := s.runFaults ++ [.ivSize iv.length] })

/-- R143 ENCBLK: block `i` of WORK xor FB goes through the cipher; on success it is appended to ACC and becomes FB, so
that `|ACC| = IDX·BS` and FB is the last block of ACC, on failure the operation ends with CipherError, the payload
unchanged and the index recorded. -/
def Obligations.EncblkStep : Prop :=
  ∀ (ι : Type) (I : InfoRep ι) (P : Params I) (s : State ι) (iv data key work acc : Bytes) (i n : Nat) (blk fb : Block s.bs),
    s.phase = .encBlk → s.op = .encrypt iv data → s.keystore = some key → s.idx = some i → s.nblk = some n → i < n →
    s.work = some work → i * s.bs + s.bs ≤ work.length → blk.val = (work.drop (i * s.bs)).take s.bs →
    s.fb = some fb.val → s.acc = some acc →
    (∀ ob, P.ciph.enc key s.bs (xorblk blk fb) = .ok ob → engineStep P s = .next { s with
      trace := s.trace ++ [.evEnc i (xorblk blk fb).val (.ok ob.val)]
      blk := some blk.val, tmp := some (xorblk blk fb).val, outb := some ob.val
      acc := some (acc ++ ob.val), fb := some ob.val, idx := some (i + 1) } ∧
      (acc.length = i * s.bs → (acc ++ ob.val).length = (i + 1) * s.bs ∧ (acc ++ ob.val).drop (i * s.bs) = ob.val)) ∧
    (∀ info, P.ciph.enc key s.bs (xorblk blk fb) = .err info → engineStep P s = .next { s with
      trace := s.trace ++ [.evEnc i (xorblk blk fb).val (.err info)]
      err := 3#4, done := true, lastop := 2#2, errinfo := info, erridx := i, outbuf := none
      fb := none, blk := none, tmp := none, outb := none, idx := none, nblk := none, work := none, acc := none
      op := .none, phase := .idle })

/-- R144 DECBLK: block `i` of the latched ciphertext goes through the cipher and is xored with FB; on success the result
is appended to ACC, so that `|ACC| = IDX·BS`, and the CIPHERTEXT block becomes FB, on failure as in ENCBLK. -/
def Obligations.DecblkStep : Prop :=
  ∀ (ι : Type) (I : InfoRep ι) (P : Params I) (s : State ι) (iv data key acc : Bytes) (i n : Nat) (blk fb : Block s.bs),
    s.phase = .decBlk → s.op = .decrypt iv data → s.keystore = some key → s.idx = some i → s.nblk = some n → i < n →
    i * s.bs + s.bs ≤ data.length → blk.val = (data.drop (i * s.bs)).take s.bs →
    s.fb = some fb.val → s.acc = some acc →
    (∀ d, P.ciph.dec key s.bs blk = .ok d → engineStep P s = .next { s with
      trace := s.trace ++ [.evDec i blk.val (.ok d.val)]
      blk := some blk.val, tmp := some d.val, outb := some (xorblk d fb).val
      acc := some (acc ++ (xorblk d fb).val), fb := some blk.val, idx := some (i + 1) } ∧
      (acc.length = i * s.bs → (acc ++ (xorblk d fb).val).length = (i + 1) * s.bs)) ∧
    (∀ info, P.ciph.dec key s.bs blk = .err info → engineStep P s = .next { s with
      trace := s.trace ++ [.evDec i blk.val (.err info)]
      err := 3#4, done := true, lastop := 3#2, errinfo := info, erridx := i, outbuf := none
      fb := none, blk := none, tmp := none, outb := none, idx := none, nblk := none, work := none, acc := none
      op := .none, phase := .idle })

/-- R145 ENCFIN: after the last block the accumulator is the result. -/
def Obligations.EncfinStep : Prop :=
  ∀ (ι : Type) (I : InfoRep ι) (P : Params I) (s : State ι) (iv data acc : Bytes) (n : Nat),
    s.phase = .encBlk → s.op = .encrypt iv data → s.idx = some n → s.nblk = some n → s.acc = some acc →
    engineStep P s = .next { s with
      err := 0#4, done := true, lastop := 2#2, errinfo := I.number 0, erridx := 0, outbuf := some acc
      fb := none, blk := none, tmp := none, outb := none, idx := none, nblk := none, work := none, acc := none
      op := .none, phase := .idle }

/-- R146 PADDEC: after the last block `Pad.decode` gives the result or PaddingError, its payload unchanged. MODEL'S OWN:
that this is so of a result longer than a finite BUF_CAP too, which ZeroPad never gives (log entry 27, DESIGN
CHOICE). -/
def Obligations.PaddecStep : Prop :=
  ∀ (ι : Type) (I : InfoRep ι) (P : Params I) (s : State ι) (iv data acc : Bytes) (n : Nat),
    s.phase = .decBlk → s.op = .decrypt iv data → s.idx = some n → s.nblk = some n → s.acc = some acc →
    (∀ plain, P.pad.decode s.pbs acc = .ok plain → engineStep P s = .next { s with
      trace := s.trace ++ [.evPadDecode s.pbs acc (.ok plain)]
      err := 0#4, done := true, lastop := 3#2, errinfo := I.number 0, erridx := 0, outbuf := some plain
      fb := none, blk := none, tmp := none, outb := none, idx := none, nblk := none, work := none, acc := none
      op := .none, phase := .idle }) ∧
    (∀ info, P.pad.decode s.pbs acc = .err info → engineStep P s = .next { s with
      trace := s.trace ++ [.evPadDecode s.pbs acc (.err info)]
      err := 4#4, done := true, lastop := 3#2, errinfo := info, erridx := 0, outbuf := none
      fb := none, blk := none, tmp := none, outb := none, idx := none, nblk := none, work := none, acc := none
      op := .none, phase := .idle })

/-! ### The commands, from acceptance to completion -/

/-- R91 NEW: rejected with nothing else changed, or accepted and completed one step later with the engine constructed,
or with ConfigurationError and the configuration group unchanged. MODEL'S OWN: how the run records a UsageFault and goes
on (log entry 1). -/
def Obligations.NewCommand : Prop :=
  ∀ (P : Params Config.info) (s : State) (bs : Nat), bs ≤ 255 → s.Inv P → s.phase = .idle → s.rstPending = false →
    (s.cfgValid = true ∨ s.keybuf = none → exec (.new bs) s = .next { s with
      err := 15#4, done := true, lastop := 0#2, errinfo := BitVec.ofNat 32 (1 + 256 * bs), erridx := 0
      runFaults := s.runFaults ++ [.usage (BitVec.ofNat 32 (1 + 256 * bs))] }) ∧
    (∀ key, s.cfgValid = false → s.keybuf = some key →
      ∃ t, exec (.new bs) s = .next t ∧
        t = { s with
          keybuf := none, outbuf := none, err := 0#4, done := false, lastop := 0#2, errinfo := 0#32, erridx := 0
          op := .new (BitVec.ofNat 8 bs) key, phase := .newop } ∧
        (P.ciph.supports key.length bs = true → stepUnder P t = .next { s with
          keybuf := none, outbuf := none, errinfo := 0#32, erridx := 0
          trace := s.trace ++ [.evNew key.length bs (.ok ())]
          keystore := some key, cfgBs := BitVec.ofNat 8 bs, cfgPbs := BitVec.ofNat 8 bs, cfgValid := true
          err := 0#4, done := true, lastop := 1#2 }) ∧
        (P.ciph.supports key.length bs = false → stepUnder P t = .next { s with
          keybuf := none, outbuf := none, errinfo := P.ciph.cfgErr key.length bs, erridx := 0
          trace := s.trace ++ [.evNew key.length bs (.err (P.ciph.cfgErr key.length bs))]
          err := 1#4, done := true, lastop := 1#2 }))

/-- R183 ENCRYPT: the accepted command ends, after finitely many engine steps, in the state that the pure function
`cbc_encrypt` gives; nothing else has changed but TRACE, by the calls made, and the run's faults, by an IvSizeError
(R13; how the run records it and goes on is the MODEL'S OWN, log entry 1). -/
def Obligations.EncryptCommand : Prop :=
  ∀ (P : Params Config.info) (s : State) (key iv pt : Bytes), s.ready P key → s.ivbuf = some iv → s.inbuf = some pt →
    (P.pad.encode s.pbs pt).length % s.bs = 0 → P.fits (P.pad.encode s.pbs pt).length = true →
    ∃ t k, exec .encrypt s = .next t ∧
      t = { s with
        ivbuf := none, inbuf := none, outbuf := none, err := 0#4, done := false, lastop := 0#2
        errinfo := 0#32, erridx := 0, op := .encrypt iv pt, phase := .encPad } ∧
      k ≤ 3 + (P.pad.encode s.pbs pt).length / s.bs ∧
      runsTo P k t (match cbcEncrypt P key s.bs s.pbs iv pt with
        | .ok ct => { s with
            ivbuf := none, inbuf := none, outbuf := some ct, err := 0#4, done := true, lastop := 2#2
            errinfo := 0#32, erridx := 0, trace := s.trace ++ encryptEvents P key s.bs s.pbs iv pt }
        | .err kind info idx => { s with
            ivbuf := none, inbuf := none, outbuf := none, err := kind.code, done := true, lastop := 2#2
            errinfo := info, erridx := idx, trace := s.trace ++ encryptEvents P key s.bs s.pbs iv pt
            runFaults := if kind = .ivSize then s.runFaults ++ [.ivSize iv.length] else s.runFaults })

/-- R184 DECRYPT: as for ENCRYPT, with the pure function `cbc_decrypt` (and log entry 1). MODEL'S OWN: that a result
longer than a finite BUF_CAP is delivered (log entry 27). -/
def Obligations.DecryptCommand : Prop :=
  ∀ (P : Params Config.info) (s : State) (key iv ct : Bytes), s.ready P key → s.ivbuf = some iv → s.inbuf = some ct →
    ∃ t k, exec .decrypt s = .next t ∧
      t = { s with
        ivbuf := none, inbuf := none, outbuf := none, err := 0#4, done := false, lastop := 0#2
        errinfo := 0#32, erridx := 0, op := .decrypt iv ct, phase := .decChk } ∧
      k ≤ 3 + ct.length / s.bs ∧
      runsTo P k t (match cbcDecrypt P key s.bs s.pbs iv ct with
        | .ok plain => { s with
            ivbuf := none, inbuf := none, outbuf := some plain, err := 0#4, done := true, lastop := 3#2
            errinfo := 0#32, erridx := 0, trace := s.trace ++ decryptEvents P key s.bs s.pbs iv ct }
        | .err kind info idx => { s with
            ivbuf := none, inbuf := none, outbuf := none, err := kind.code, done := true, lastop := 3#2
            errinfo := info, erridx := idx, trace := s.trace ++ decryptEvents P key s.bs s.pbs iv ct
            runFaults := if kind = .ivSize then s.runFaults ++ [.ivSize iv.length] else s.runFaults })

/-- R177: DECRYPT of a ciphertext whose length is no multiple of the block size completes with `STATUS = 0xD2` and the
remainder in ERRINFO, whatever the IV's length, with no collaborator called; and InvalidSizeError is reported in no
other case. -/
def Obligations.SizeValidation : Prop :=
  (∀ (ι : Type) (I : InfoRep ι) (P : Params I) (s : State ι) (key iv ct : Bytes),
    s.ready P key → s.ivbuf = some iv → s.inbuf = some ct →
    ct.length % s.bs ≠ 0 →
    ∃ t u, command I .decrypt s = .next t ∧ stepUnder P t = .next u ∧ u.phase = .idle ∧
      u.statusWord = 0x000000D2#32 ∧ u.errinfo = I.number (ct.length % s.bs) ∧ u.erridx = 0 ∧
      u.outbuf = none ∧ u.trace = s.trace) ∧
  (∀ (ι : Type) (I : InfoRep ι) (P : Params I) (s t : State ι),
    s.Inv P → stepUnder P s = .next t → t.err = 2#4 → s.err ≠ 2#4 →
    s.phase = .decChk ∧ ∃ iv ct, s.op = .decrypt iv ct ∧ ct.length % s.bs ≠ 0)

/-- R109 and R124: the calls of an operation, in order. A successful ENCRYPT makes one `Pad.encode` and the cipher calls
0 to N−1; one that fails in the cipher at `j` makes the calls 0 to `j`; IvSizeError comes after `Pad.encode` and before
any cipher call. DECRYPT makes the cipher calls 0 to N−1 and then one `Pad.decode`; a cipher failure at `j` ends them at
`j`; a wrong ciphertext or IV length allows none. -/
def Obligations.CollaboratorCalls : Prop :=
  ∀ (ι : Type) (I : InfoRep ι) (P : Params I) (key iv data : Bytes) (bs pbs : Nat),
    1 ≤ bs → (P.pad.encode pbs data).length % bs = 0 →
    (∃ l, encryptEvents P key bs pbs iv data = .evPadEncode pbs data (P.pad.encode pbs data) :: l ∧
      (∀ ct, cbcEncrypt P key bs pbs iv data = .ok ct → l.length = (P.pad.encode pbs data).length / bs ∧
        ∀ j, j < l.length → ∃ x y, l[j]? = some (.evEnc j x (.ok y))) ∧
      (∀ info j, cbcEncrypt P key bs pbs iv data = .err .cipher info j → l.length = j + 1 ∧
        (∀ m, m < j → ∃ x y, l[m]? = some (.evEnc m x (.ok y))) ∧ ∃ x, l[j]? = some (.evEnc j x (.err info))) ∧
      (iv.length ≠ bs → l = [])) ∧
    (∀ plain, cbcDecrypt P key bs pbs iv data = .ok plain →
      ∃ (l : List (Event ι)) (acc : Bytes),
        decryptEvents P key bs pbs iv data = l ++ [.evPadDecode pbs acc (.ok plain)] ∧
        l.length = data.length / bs ∧ ∀ j, j < l.length → ∃ x y, l[j]? = some (.evDec j x (.ok y))) ∧
    (∀ info, cbcDecrypt P key bs pbs iv data = .err .padding info 0 →
      ∃ (l : List (Event ι)) (acc : Bytes),
        decryptEvents P key bs pbs iv data = l ++ [.evPadDecode pbs acc (.err info)] ∧
        l.length = data.length / bs ∧ ∀ j, j < l.length → ∃ x y, l[j]? = some (.evDec j x (.ok y))) ∧
    (∀ info j, cbcDecrypt P key bs pbs iv data = .err .cipher info j →
      (decryptEvents P key bs pbs iv data).length = j + 1 ∧
      (∀ m, m < j → ∃ x y, (decryptEvents P key bs pbs iv data)[m]? = some (.evDec m x (.ok y))) ∧
      ∃ x, (decryptEvents P key bs pbs iv data)[j]? = some (.evDec j x (.err info))) ∧
    (data.length % bs ≠ 0 ∨ iv.length ≠ bs → decryptEvents P key bs pbs iv data = [])

/-! ### The properties of 45_properties.md -/

/-- R175: with a cipher whose decryption undoes its encryption, ENCRYPT succeeds with a ciphertext of the framed length,
and DECRYPT of it under the same key, block size and IV gives the plaintext back when the padding scheme inverts on it;
with ZeroPad it gives the plaintext without all its trailing zero bytes, and no error. -/
def Obligations.RoundTrip : Prop :=
  ∀ (ι : Type) (I : InfoRep ι) (P : Params I) (s : State ι) (key iv pt : Bytes),
    s.ready P key → CiphInverse P.ciph key s.bs → PadAligned P.pad →
    iv.length = s.bs → s.ivbuf = some iv → s.inbuf = some pt → P.fits (P.pad.encode s.pbs pt).length = true →
    ∃ t k u ct, command I .encrypt s = .next t ∧ runsTo P k t u ∧ u.phase = .idle ∧ u.statusWord = 0x00000090#32 ∧
      u.outbuf = some ct ∧ ct.length = (P.pad.encode s.pbs pt).length ∧
      ∀ s' : State ι, s'.ready P key → s'.cfgBs = s.cfgBs → s'.ivbuf = some iv → s'.inbuf = some ct →
        (PadInverse P.pad s.bs pt →
          ∃ t' k' u', command I .decrypt s' = .next t' ∧ runsTo P k' t' u' ∧ u'.phase = .idle ∧
            u'.statusWord = 0x000000D0#32 ∧ u'.outbuf = some pt) ∧
        (P.pad = zeroPad I → ∀ (m : Bytes) (z : Nat), pt = m ++ List.replicate z 0#8 →
          m = [] ∨ m.getLast? ≠ some 0#8 →
          ∃ t' k' u', command I .decrypt s' = .next t' ∧ runsTo P k' t' u' ∧ u'.phase = .idle ∧
            u'.statusWord = 0x000000D0#32 ∧ u'.outbuf = some m)

/-- R176: with an injective encryption that never fails, two encryptions of one plaintext under different IVs differ in
every block. -/
def Obligations.IvChangesEveryBlock : Prop :=
  ∀ (ι : Type) (I : InfoRep ι) (P : Params I) (s s' : State ι) (key iv iv' pt : Bytes),
    s.ready P key → s'.ready P key → s'.cfgBs = s.cfgBs →
    (∀ x : Block s.bs, ∃ y, P.ciph.enc key s.bs x = .ok y) →
    (∀ x x' : Block s.bs, P.ciph.enc key s.bs x = P.ciph.enc key s.bs x' → x = x') →
    PadAligned P.pad → P.fits (P.pad.encode s.bs pt).length = true →
    iv.length = s.bs → iv'.length = s.bs → iv ≠ iv' →
    s.ivbuf = some iv → s'.ivbuf = some iv' → s.inbuf = some pt → s'.inbuf = some pt →
    ∃ t t' k k' u u' ct ct', command I .encrypt s = .next t ∧ command I .encrypt s' = .next t' ∧
      runsTo P k t u ∧ runsTo P k' t' u' ∧ u.phase = .idle ∧ u'.phase = .idle ∧
      u.outbuf = some ct ∧ u'.outbuf = some ct' ∧ ct.length = ct'.length ∧
      ct.length = (P.pad.encode s.bs pt).length ∧
      ∀ i, i < ct.length / s.bs →
        (ct.drop (i * s.bs)).take s.bs ≠ (ct'.drop (i * s.bs)).take s.bs

/-- R178 (a), (b), (c), on the recovered bytes before deframing: two ciphertexts of one length that differ only inside
block `i` recover to sequences that differ only in blocks `i` and `i + 1`, and in block `i + 1` by exactly the
difference of the ciphertexts; block `i` itself changes if decryption is injective. -/
def Obligations.ErrorPropagation : Prop :=
  ∀ (ι : Type) (I : InfoRep ι) (P : Params I) (key iv ct ct' acc acc' : Bytes) (bs n i : Nat),
    1 ≤ bs → ct.length = n * bs → ct'.length = n * bs →
    i < n → iv.length = bs →
    (∀ j, j < n → j ≠ i → blockAt bs ct' j = blockAt bs ct j) → blockAt bs ct' i ≠ blockAt bs ct i →
    cbcRecover P key bs iv ct = .ok acc → cbcRecover P key bs iv ct' = .ok acc' →
    acc.length = n * bs ∧ acc'.length = n * bs ∧
    (∀ j, j < n → j ≠ i → j ≠ i + 1 → blockAt bs acc' j = blockAt bs acc j) ∧
    (i + 1 < n → blockAt bs acc' (i + 1) =
      xorblk (blockAt bs acc (i + 1)) (xorblk (blockAt bs ct i) (blockAt bs ct' i))) ∧
    ((∀ y y' d : Block bs, P.ciph.dec key bs y = .ok d → P.ciph.dec key bs y' = .ok d → y = y') →
      blockAt bs acc' i ≠ blockAt bs acc i)

/-- R179: what an accepted command leaves in STATUS, ERRINFO, ERRIDX and OUTBUF, and the number of steps after which it
ends, are the same for two engines that agree in the configuration group and in the operands of that command: KEYBUF for
NEW, IVBUF and INBUF for ENCRYPT and DECRYPT. Whatever else differs (TRACE, the previous report and result, the other
buffers, the host's data) does not matter. -/
def Obligations.ResultsAreAFunctionOfTheOperands : Prop :=
  ∀ (ι : Type) (I : InfoRep ι) (P : Params I) (i : Instr) (s s' t t' : State ι), s.Inv P → s'.Inv P → PadAligned P.pad →
    (∀ pt, i = .encrypt → s.inbuf = some pt → P.fits (P.pad.encode s.pbs pt).length = true) →
    s.rstPending = false → s'.rstPending = false →
    s'.cfgValid = s.cfgValid → s'.cfgBs = s.cfgBs → s'.keystore = s.keystore →
    (∀ bs, i = .new bs → s'.keybuf = s.keybuf) →
    (i = .encrypt ∨ i = .decrypt → s'.ivbuf = s.ivbuf ∧ s'.inbuf = s.inbuf) →
    command I i s = .next t → command I i s' = .next t' → t.phase ≠ .idle → t'.phase ≠ .idle →
    ∃ k u u', endsAfter P k t u ∧ endsAfter P k t' u' ∧
      u.statusWord = u'.statusWord ∧ u.errinfo = u'.errinfo ∧ u.erridx = u'.erridx ∧ u.outbuf = u'.outbuf

/-- R181, the empty plaintext with ZeroPad: ENCRYPT gives one block, the encryption of the IV; DECRYPT of it under a
cipher whose decryption undoes its encryption gives a result that is present and empty. -/
def Obligations.EmptyPlaintext : Prop :=
  ∀ (ι : Type) (I : InfoRep ι) (P : Params I) (s : State ι) (key : Bytes) (iv y : Block s.bs),
    P.pad = zeroPad I → s.ready P key →
    P.fits s.bs = true → P.ciph.enc key s.bs iv = .ok y →
    (s.ivbuf = some iv.val → s.inbuf = some [] →
      ∃ t u, command I .encrypt s = .next t ∧ runsTo P 4 t u ∧ u.phase = .idle ∧
        u.statusWord = 0x00000090#32 ∧ u.outbuf = some y.val) ∧
    (CiphInverse P.ciph key s.bs → s.ivbuf = some iv.val → s.inbuf = some y.val →
      ∃ t u, command I .decrypt s = .next t ∧ runsTo P 4 t u ∧ u.phase = .idle ∧
        u.statusWord = 0x000000D0#32 ∧ u.outbuf = some [])

/-- R182: the lengths of the results. With ZeroPad a ciphertext has `(|pt|/BS + 1)·BS` bytes and a decrypted text is
shorter than its ciphertext. -/
def Obligations.OutputLengths : Prop :=
  ∀ (ι : Type) (I : InfoRep ι) (P : Params I) (key iv d out : Bytes) (bs : Nat), 1 ≤ bs →
    (PadAligned P.pad → cbcEncrypt P key bs bs iv d = .ok out →
      out.length = (P.pad.encode bs d).length ∧ out.length % bs = 0) ∧
    (cbcDecrypt P key bs bs iv d = .ok out →
      ∃ acc, acc.length = d.length ∧ P.pad.decode bs acc = .ok out) ∧
    (P.pad = zeroPad I → cbcEncrypt P key bs bs iv d = .ok out →
      out.length = (d.length / bs + 1) * bs ∧ d.length + 1 ≤ out.length ∧ out.length ≤ d.length + bs) ∧
    (P.pad = zeroPad I → cbcDecrypt P key bs bs iv d = .ok out → out.length + 1 ≤ d.length)

/-! ### Whole-machine rules -/

/-- The state after reset meets the invariant. -/
def Obligations.ResetMeetsTheInvariant : Prop :=
  (∀ (ι : Type) (I : InfoRep ι) (P : Params I), (State.resetOf I).Inv P) ∧ State.reset.Inv params

/-- Every step keeps the invariant: the pairing of the block sizes and the constructed configuration (R21 to R24), the
empty working group in IDLE (R31), `|ACC| = IDX·BS` and the feedback block in the chain (R27 to R29, R143, R144), and
the values of STATUS (R32). -/
def Obligations.StepKeepsTheInvariant : Prop :=
  (∀ (ι : Type) (I : InfoRep ι) (P : Params I) (s t : State ι), s.Inv P → stepUnder P s = .next t → t.Inv P) ∧
  (∀ s t : State, s.Inv params → step s = .next t → t.Inv params)

/-- R148, R149: from a state that meets the invariant no step faults, whatever the parameters; and with ZeroPad and the
default capacity, as in this engine, every step answers a next state. MODEL'S OWN, and no part of those rules: that IDLE
with an exhausted host program has a step, in which the engine waits (log entry 2, DESIGN CHOICE), and that a faulted run
goes on (log entry 1, DESIGN CHOICE). -/
def Obligations.InvariantStatesNeverStop : Prop :=
  (∀ (ι : Type) (I : InfoRep ι) (P : Params I) (s : State ι) (f : Fault), s.Inv P → stepUnder P s ≠ .fault f) ∧
  (∀ (ι : Type) (I : InfoRep ι) (P : Params I) (s : State ι),
    P.pad = zeroPad I → P.bufCap = none → s.Inv P → ∃ t, stepUnder P s = .next t) ∧
  (∀ s : State, s.Inv params → ∃ t, step s = .next t)

/-- R51, R59: no space ever holds more than BUF_CAP bytes, with ZeroPad and any capacity. (With a scheme whose decode
lengthens its input the model does not keep this bound: log entry 27.) -/
def Obligations.SpacesStayWithinCapacity : Prop :=
  ∀ (ι : Type) (I : InfoRep ι) (P : Params I) (s t : State ι),
    P.pad = zeroPad I → s.Inv P → Memory.wf P s = true → stepUnder P s = .next t →
    Memory.wf P t = true

/-- R148: the phase table, row by row: in IDLE each command that is acceptable goes to its own first phase, and the host's
other moves, a rejected or illegal word among them, leave IDLE; in the other phases, no reset in mid-operation striking,
each step goes where the row says under its condition, the cipher's and the framer's answer included, with the error
code the row gives. -/
def Obligations.PhaseTable : Prop :=
  ∀ (ι : Type) (I : InfoRep ι) (P : Params I) (s t : State ι),
    s.Inv P → (s.phase ≠ .idle → s.rstPending = false) → stepUnder P s = .next t →
    (s.phase = .idle →
      (∀ w rest bs, s.host = .writeCmd w :: rest → decode w = .legal (.new bs) → s.accepts (.new bs) →
        t.phase = .newop) ∧
      (∀ w rest, s.host = .writeCmd w :: rest → decode w = .legal .encrypt → s.accepts .encrypt →
        t.phase = .encPad) ∧
      (∀ w rest, s.host = .writeCmd w :: rest → decode w = .legal .decrypt → s.accepts .decrypt →
        t.phase = .decChk) ∧
      (∀ w rest, s.host = .writeCmd w :: rest → (∀ i, decode w = .legal i → ¬ s.accepts i) →
        t.phase = .idle ∧ t.err = 15#4) ∧
      ((∀ w rest, s.host ≠ .writeCmd w :: rest) → t.phase = .idle)) ∧
    (s.phase = .newop → t.phase = .idle ∧ ∃ bs key, s.op = .new bs key ∧
      t.err = if P.ciph.supports key.length bs.toNat then 0#4 else 1#4) ∧
    (s.phase = .encPad → t.phase = .encIv) ∧
    (s.phase = .encIv → ∃ iv data, s.op = .encrypt iv data ∧
      (iv.length = s.bs → t.phase = .encBlk) ∧ (iv.length ≠ s.bs → t.phase = .idle ∧ t.err = 5#4)) ∧
    (s.phase = .encBlk → ∃ i n, s.idx = some i ∧ s.nblk = some n ∧ i ≤ n ∧
      (i < n → ∃ (key : Bytes) (blk fb : Block s.bs), s.keystore = some key ∧
        memRead s.work (i * s.bs) s.bs = some blk ∧ s.fb = some fb.val ∧
        ((∃ ob, P.ciph.enc key s.bs (xorblk blk fb) = .ok ob) → t.phase = .encBlk ∧ t.idx = some (i + 1)) ∧
        ((∃ info, P.ciph.enc key s.bs (xorblk blk fb) = .err info) → t.phase = .idle ∧ t.err = 3#4)) ∧
      (i = n → t.phase = .idle ∧ t.err = 0#4)) ∧
    (s.phase = .decChk → ∃ iv data, s.op = .decrypt iv data ∧
      (data.length % s.bs = 0 → t.phase = .decIv) ∧ (data.length % s.bs ≠ 0 → t.phase = .idle ∧ t.err = 2#4)) ∧
    (s.phase = .decIv → ∃ iv data, s.op = .decrypt iv data ∧
      (iv.length = s.bs → t.phase = .decBlk) ∧ (iv.length ≠ s.bs → t.phase = .idle ∧ t.err = 5#4)) ∧
    (s.phase = .decBlk → ∃ i n, s.idx = some i ∧ s.nblk = some n ∧ i ≤ n ∧
      (i < n → ∃ (key : Bytes) (blk : Block s.bs), s.keystore = some key ∧
        memRead (s.space .opData) (i * s.bs) s.bs = some blk ∧
        ((∃ d, P.ciph.dec key s.bs blk = .ok d) → t.phase = .decBlk ∧ t.idx = some (i + 1)) ∧
        ((∃ info, P.ciph.dec key s.bs blk = .err info) → t.phase = .idle ∧ t.err = 3#4)) ∧
      (i = n → ∃ acc, s.acc = some acc ∧ t.phase = .idle ∧
        ((∃ plain, P.pad.decode s.pbs acc = .ok plain) → t.err = 0#4) ∧
        ((∃ info, P.pad.decode s.pbs acc = .err info) → t.err = 4#4)))

/-- R149: from every state in which an operation runs, and no reset in mid-operation stands next, the engine reaches IDLE
within 1 step for NEW and `3 + NBLK` for ENCRYPT and DECRYPT, counted from acceptance. -/
def Obligations.OperationsEnd : Prop :=
  ∀ (ι : Type) (I : InfoRep ι) (P : Params I) (s : State ι),
    s.Inv P → PadAligned P.pad → P.bufCap = none → s.phase ≠ .idle →
    s.rstPending = false → ∃ k t, k ≤ s.stepsLeft P ∧ runsTo P k s t ∧ t.phase = .idle

/-- R139, R208: every exit of an operation other than reset goes through COMPLETE: the working group holds nothing
again, DONE and LASTOP are set, an error leaves no result; and only NEW has touched the configuration. -/
def Obligations.EveryExitIsComplete : Prop :=
  ∀ (ι : Type) (I : InfoRep ι) (P : Params I) (s t : State ι),
    s.phase ≠ .idle → s.rstPending = false → stepUnder P s = .next t → t.phase = .idle →
    t.quiet ∧ t.op = .none ∧ t.done = true ∧ t.lastop = s.op.lastop ∧ (t.err ≠ 0#4 → t.outbuf = none) ∧
    (s.phase ≠ .newop ∨ t.err ≠ 0#4 → t.cfgValid = s.cfgValid ∧ t.cfgBs = s.cfgBs ∧ t.cfgPbs = s.cfgPbs ∧
      t.keystore = s.keystore)

/-- R12, R55, R60: a step of the engine touches no buffer of the host and none of the host's data. -/
def Obligations.EngineTouchesNoHostBuffer : Prop :=
  ∀ (ι : Type) (I : InfoRep ι) (P : Params I) (s t : State ι),
    s.phase ≠ .idle → s.rstPending = false → stepUnder P s = .next t →
    t.host = s.host ∧ t.replies = s.replies ∧
    ∀ a, t.readByte .keybuf a = s.readByte .keybuf a ∧ t.readByte .ivbuf a = s.readByte .ivbuf a ∧
      t.readByte .inbuf a = s.readByte .inbuf a

/-- R21, R93, R247: CFG.VALID becomes 1 only by a NEW that succeeds, and once it is 1 the configuration group changes
only by reset. -/
def Obligations.ConfigurationIsFixedOnce : Prop :=
  ∀ (ι : Type) (I : InfoRep ι) (P : Params I) (s t : State ι), stepUnder P s = .next t →
    (s.cfgValid = false → t.cfgValid = true → s.phase = .newop ∧
      ∃ bs key, s.op = .new bs key ∧ P.ciph.supports key.length bs.toNat = true ∧
        t.keystore = some key ∧ t.cfgBs = bs ∧ t.cfgPbs = bs) ∧
    (s.Inv P → s.cfgValid = true → t.atReset I ∨
      (t.cfgValid = true ∧ t.cfgBs = s.cfgBs ∧ t.cfgPbs = s.cfgPbs ∧ t.keystore = s.keystore))

/-- R38: TRACE is appended to and never shortened but by reset, and it is ghost: with another history the step does the
same to everything else, and appends the same events. -/
def Obligations.TraceIsGhost : Prop :=
  ∀ (ι : Type) (I : InfoRep ι) (P : Params I) (s t : State ι), stepUnder P s = .next t →
    (s.trace <+: t.trace ∨ t.atReset I) ∧
    (∀ h : List (Event ι), ∃ h', stepUnder P { s with trace := h } = .next { t with trace := h' } ∧
      (∀ evs, t.trace = s.trace ++ evs → t.atReset I ∨ h' = h ++ evs))

/-- R13: a run that has recorded a UsageFault, an IvSizeError or a read of an absent result never becomes final. MODEL'S OWN:
that it goes on, and keeps its record over a reset (log entries 1 and 8). -/
def Obligations.FaultedRunsAreNeverFinal : Prop :=
  ∀ (ι : Type) (I : InfoRep ι) (P : Params I) (k : Nat) (s t : State ι),
    s.faulted = true → runsTo P k s t → t.final = false

/-- R200: each error code is raised at its own step, with the payload and index the table gives, and codes 6 to 14 never
are. -/
def Obligations.ErrorCodesComeFromTheirSteps : Prop :=
  ∀ (ι : Type) (I : InfoRep ι) (P : Params I) (s t : State ι),
    s.Inv P → stepUnder P s = .next t → t.err ≠ s.err → t.err ≠ 0#4 →
    (t.err = 1#4 ∧ s.phase = .newop ∧ t.erridx = 0 ∧
      ∃ bs key, s.op = .new bs key ∧ t.errinfo = P.ciph.cfgErr key.length bs.toNat) ∨
    (t.err = 2#4 ∧ s.phase = .decChk ∧ t.erridx = 0 ∧
      ∃ iv data, s.op = .decrypt iv data ∧ t.errinfo = I.number (data.length % s.bs)) ∨
    (t.err = 3#4 ∧ s.phase = .encBlk ∧ s.idx = some t.erridx ∧
      ∃ key x, s.keystore = some key ∧ P.ciph.enc key s.bs x = .err t.errinfo) ∨
    (t.err = 3#4 ∧ s.phase = .decBlk ∧ s.idx = some t.erridx ∧
      ∃ key y, s.keystore = some key ∧ P.ciph.dec key s.bs y = .err t.errinfo) ∨
    (t.err = 4#4 ∧ s.phase = .decBlk ∧ t.erridx = 0 ∧
      ∃ acc, s.acc = some acc ∧ P.pad.decode s.pbs acc = .err t.errinfo) ∨
    (t.err = 5#4 ∧ (s.phase = .encIv ∨ s.phase = .decIv) ∧ t.erridx = 0 ∧
      ∃ iv, s.space .opIv = some iv ∧ iv.length ≠ s.bs ∧ t.errinfo = I.number iv.length) ∨
    (t.err = 15#4 ∧ s.phase = .idle ∧ t.erridx = 0 ∧
      ∃ w rest, s.host = .writeCmd w :: rest ∧ t.errinfo = I.word w)

/-! ### The host's moves (10_state.md R40) -/

/-- R35 to R37, R59: a LOAD replaces the whole buffer and nothing else; one longer than BUF_CAP is refused (MODEL'S OWN
form of "refused", log entry 13). -/
def Obligations.LoadMoves : Prop :=
  ∀ (ι : Type) (I : InfoRep ι) (P : Params I) (s : State ι) (b : Bytes) (rest : List HostMove), s.phase = .idle →
    (s.host = .loadKey b :: rest →
      (P.fits b.length = true → stepUnder P s = .next { s with host := rest, keybuf := some b }) ∧
      (P.fits b.length = false → stepUnder P s = .refused .loadOverCapacity)) ∧
    (s.host = .loadIv b :: rest →
      (P.fits b.length = true → stepUnder P s = .next { s with host := rest, ivbuf := some b }) ∧
      (P.fits b.length = false → stepUnder P s = .refused .loadOverCapacity)) ∧
    (s.host = .loadIn b :: rest →
      (P.fits b.length = true → stepUnder P s = .next { s with host := rest, inbuf := some b }) ∧
      (P.fits b.length = false → stepUnder P s = .refused .loadOverCapacity))

/-- R40, R57, R206: what each READ move returns, and that it changes no state of the engine; READ_OUT with no result
returns no value, and the run is faulted. MODEL'S OWN: how the run records it and goes on (log entry 1). -/
def Obligations.ReadMoves : Prop :=
  ∀ (ι : Type) (I : InfoRep ι) (P : Params I) (s : State ι) (rest : List HostMove), s.phase = .idle →
    (s.host = .readStatus :: rest →
      stepUnder P s = .next { s with host := rest, replies := s.replies ++ [.status s.statusWord] }) ∧
    (s.host = .readErrinfo :: rest →
      stepUnder P s = .next { s with host := rest, replies := s.replies ++ [.errinfo s.errinfo] }) ∧
    (s.host = .readErridx :: rest →
      stepUnder P s = .next { s with host := rest, replies := s.replies ++ [.erridx s.erridx] }) ∧
    (s.host = .readCfg :: rest →
      stepUnder P s = .next { s with host := rest, replies := s.replies ++ [.cfg s.cfgWord] }) ∧
    (∀ b, s.outbuf = some b → s.host = .readOut :: rest →
      stepUnder P s = .next { s with host := rest, replies := s.replies ++ [.out b] }) ∧
    (s.outbuf = none → s.host = .readOut :: rest →
      stepUnder P s = .next { s with
        host := rest, replies := s.replies ++ [.noValue], runFaults := s.runFaults ++ [.readOutAbsent] }) ∧
    (∀ which b, s.space (match which with | .key => .keybuf | .iv => .ivbuf | .inp => .inbuf | .out => .outbuf) = b →
      s.host = .readLen which :: rest →
      stepUnder P s = .next { s with host := rest, replies := s.replies ++ [.len (b.getD []).length] })

/-- R25, R32: the layouts of the CFG and STATUS words, BUSY being 1 exactly when `PHASE ≠ IDLE`. -/
def Obligations.StatusAndCfgLayout : Prop :=
  ∀ s : State,
    s.statusWord.extractLsb' 0 4 = s.err ∧ s.statusWord.getLsbD 4 = s.done ∧
    (s.statusWord.getLsbD 5 = true ↔ s.phase ≠ .idle) ∧ s.statusWord.extractLsb' 6 2 = s.lastop ∧
    s.statusWord.extractLsb' 8 24 = 0#24 ∧
    s.cfgWord.getLsbD 0 = s.cfgValid ∧ s.cfgWord.extractLsb' 1 7 = 0#7 ∧ s.cfgWord.extractLsb' 8 8 = s.cfgBs ∧
    s.cfgWord.extractLsb' 16 8 = s.cfgPbs ∧ s.cfgWord.extractLsb' 24 8 = 0#8

/-- R32: every value of STATUS the host reads is one of the twelve that occur, all with `BUSY = 0`. -/
def Obligations.StatusTheHostReads : Prop :=
  ∀ (ι : Type) (I : InfoRep ι) (P : Params I) (s t : State ι) (w : Word), s.Inv P → stepUnder P s = .next t →
    t.replies = s.replies ++ [.status w] →
    w ∈ [0x00#32, 0x50#32, 0x51#32, 0x90#32, 0x93#32, 0x95#32, 0xD0#32, 0xD2#32, 0xD3#32, 0xD4#32, 0xD5#32, 0x1F#32]
      ∧ w.getLsbD 5 = false

/-- R214: KEYSTORE, the working group, OP and its latches included, and the contents of KEYBUF, IVBUF and INBUF cannot be
read back: what a READ move returns is the same for two engines in IDLE, where the host has its moves, that differ only
in them, the buffers' lengths being equal. -/
def Obligations.SecretsAreNotReadable : Prop :=
  ∀ (ι : Type) (I : InfoRep ι) (P : Params I) (s t t' : State ι) (m : HostMove) (rest : List HostMove) (op : Op)
    (key kb ib db fb blk tmp outb work acc : Option Bytes) (idx nblk : Option Nat),
    s.phase = .idle → s.host = m :: rest →
    m ∈ [.readStatus, .readErrinfo, .readErridx, .readCfg, .readOut, .readLen .key, .readLen .iv, .readLen .inp,
      .readLen .out] →
    lenOf kb = lenOf s.keybuf → lenOf ib = lenOf s.ivbuf → lenOf db = lenOf s.inbuf →
    stepUnder P s = .next t →
    stepUnder P { s with
      keystore := key, keybuf := kb, ivbuf := ib, inbuf := db, op := op, fb := fb, blk := blk, tmp := tmp
      outb := outb, work := work, acc := acc, idx := idx, nblk := nblk } = .next t' →
    t'.replies = t.replies

/-! ### Payloads (00_scope.md R9) -/

/-- R9, R33: at the default a payload is a 32-bit word; a number below 2^32 and a command word are held as they are. -/
def Obligations.DefaultPayloadIsAWord : Prop :=
  (∀ n, n < 2 ^ 32 → Config.info.number n = BitVec.ofNat 32 n ∧ (Config.info.number n).toNat = n) ∧
  (∀ w : Word, Config.info.word w = w)

/-- R9: no rule inspects a payload; rules only copy it. Whatever `f` does to payloads, a step of the machine whose
parameters and state have `f` on every payload answers what the step answers, with `f` on every payload: the same kind
of outcome, the same state but for the payloads, and these the copies of the old ones. -/
def Obligations.PayloadsAreOnlyCopied : Prop :=
  ∀ (ι κ : Type) (f : ι → κ) (I : InfoRep ι) (P : Params I) (s : State ι),
    stepUnder (P.mapInfo f) (s.mapInfo f) = mapOutcome f (stepUnder P s)
end

