-- ==== Sys2Proof/Laws/Blocks.lean ====
section
/-! SUPPORT. Block access: when a read succeeds and what it gives, and what an append leaves (20_memory.md R52, R53). -/

namespace Sys2Proof.Machine

/-- A read succeeds exactly when the space holds the bytes, and gives them in index order. -/
theorem memRead_eq_some {space : Option Bytes} {addr n : Nat} {b : Block n} :
    memRead space addr n = some b ↔
      ∃ s, space = some s ∧ addr + n ≤ s.length ∧ b.val = (s.drop addr).take n := by
  cases space with
  | none => simp [memRead]
  | some s =>
    by_cases h : addr + n ≤ s.length
    · simp only [memRead, h, dif_pos, Option.some.injEq, exists_eq_left', true_and]
      exact ⟨fun e => e ▸ rfl, fun e => Subtype.ext e.symm⟩
    · simp [memRead, h]

/-- Inside a sequence, block `i` is what a read at offset `i·bs` gives. -/
theorem memRead_eq_blockAt {s : Bytes} {i bs : Nat} (h : i * bs + bs ≤ s.length) :
    memRead (some s) (i * bs) bs = some (blockAt bs s i) := by
  simp [memRead, blockAt, h]

/-- Block `i` of a sequence of `n` blocks lies inside it. -/
theorem block_inside {s : Bytes} {n i bs : Nat} (hs : s.length = n * bs) (hi : i < n) :
    i * bs + bs ≤ s.length := by
  rw [hs, ← Nat.succ_mul]
  exact Nat.mul_le_mul_right bs hi

theorem blockAt_val {bs : Nat} {s : Bytes} {i : Nat} (h : i * bs + bs ≤ s.length) :
    (blockAt bs s i).val = (s.drop (i * bs)).take bs := by
  simp [blockAt, h]

theorem asBlock_eq_some {n : Nat} {s : Bytes} {b : Block n} : asBlock n s = some b ↔ b.val = s := by
  unfold asBlock
  split
  · rename_i h
    simp only [Option.some.injEq]
    exact ⟨fun e => e ▸ rfl, fun e => Subtype.ext e.symm⟩
  · rename_i h
    simp only [reduceCtorEq, false_iff]
    exact fun e => h (e ▸ b.property)

theorem asBlock_of_length {n : Nat} {s : Bytes} (h : s.length = n) : asBlock n s = some ⟨s, h⟩ := by
  simp [asBlock, h]

theorem asBlock_eq_none {n : Nat} {s : Bytes} : asBlock n s = none ↔ s.length ≠ n := by
  simp [asBlock]

@[simp] theorem asBlock_val {n : Nat} (b : Block n) : asBlock n b.val = some b :=
  asBlock_eq_some.mpr rfl

@[simp] theorem memAppend_length {n : Nat} (s : Bytes) (v : Block n) :
    (memAppend s v).length = s.length + n := by
  simp [memAppend, v.property]

theorem xorblk_val {n : Nat} (a b : Block n) :
    (xorblk a b).val = List.zipWith (· ^^^ ·) a.val b.val := rfl

end Sys2Proof.Machine
end

