-- ==== Sys2Proof/Laws/State.lean ====
section
/-! SUPPORT. What each shared update of State does to each field: one lemma per field per update, true by rfl. And how
the default `Info` holds numbers and words (00_scope.md R9). -/

namespace Sys2Proof

@[simp] theorem info_number_zero : Config.info.number 0 = 0#32 := rfl
@[simp] theorem info_word (w : Word) : Config.info.word w = w := rfl
theorem info_number {n : Nat} (h : n < 2 ^ 32) : Config.info.number n = BitVec.ofNat 32 n := if_pos h

end Sys2Proof

namespace Sys2Proof.Machine

theorem reset_eq : State.reset = State.resetOf Config.info := rfl

section
variable {ι : Type} (ev : Event ι) (s : State ι)
@[simp] theorem addEvent_cfgValid : (addEvent ev s).cfgValid = s.cfgValid := rfl
@[simp] theorem addEvent_cfgBs : (addEvent ev s).cfgBs = s.cfgBs := rfl
@[simp] theorem addEvent_cfgPbs : (addEvent ev s).cfgPbs = s.cfgPbs := rfl
@[simp] theorem addEvent_keystore : (addEvent ev s).keystore = s.keystore := rfl
@[simp] theorem addEvent_phase : (addEvent ev s).phase = s.phase := rfl
@[simp] theorem addEvent_op : (addEvent ev s).op = s.op := rfl
@[simp] theorem addEvent_fb : (addEvent ev s).fb = s.fb := rfl
@[simp] theorem addEvent_blk : (addEvent ev s).blk = s.blk := rfl
@[simp] theorem addEvent_tmp : (addEvent ev s).tmp = s.tmp := rfl
@[simp] theorem addEvent_outb : (addEvent ev s).outb = s.outb := rfl
@[simp] theorem addEvent_idx : (addEvent ev s).idx = s.idx := rfl
@[simp] theorem addEvent_nblk : (addEvent ev s).nblk = s.nblk := rfl
@[simp] theorem addEvent_work : (addEvent ev s).work = s.work := rfl
@[simp] theorem addEvent_acc : (addEvent ev s).acc = s.acc := rfl
@[simp] theorem addEvent_err : (addEvent ev s).err = s.err := rfl
@[simp] theorem addEvent_done : (addEvent ev s).done = s.done := rfl
@[simp] theorem addEvent_lastop : (addEvent ev s).lastop = s.lastop := rfl
@[simp] theorem addEvent_errinfo : (addEvent ev s).errinfo = s.errinfo := rfl
@[simp] theorem addEvent_erridx : (addEvent ev s).erridx = s.erridx := rfl
@[simp] theorem addEvent_keybuf : (addEvent ev s).keybuf = s.keybuf := rfl
@[simp] theorem addEvent_ivbuf : (addEvent ev s).ivbuf = s.ivbuf := rfl
@[simp] theorem addEvent_inbuf : (addEvent ev s).inbuf = s.inbuf := rfl
@[simp] theorem addEvent_outbuf : (addEvent ev s).outbuf = s.outbuf := rfl
@[simp] theorem addEvent_trace : (addEvent ev s).trace = s.trace ++ [ev] := rfl
@[simp] theorem addEvent_host : (addEvent ev s).host = s.host := rfl
@[simp] theorem addEvent_replies : (addEvent ev s).replies = s.replies := rfl
@[simp] theorem addEvent_runFaults : (addEvent ev s).runFaults = s.runFaults := rfl
@[simp] theorem addEvent_bs : (addEvent ev s).bs = s.bs := rfl
@[simp] theorem addEvent_pbs : (addEvent ev s).pbs = s.pbs := rfl
end

section
variable {ι : Type} (f : RunFault) (s : State ι)
@[simp] theorem addRunFault_cfgValid : (addRunFault f s).cfgValid = s.cfgValid := rfl
@[simp] theorem addRunFault_cfgBs : (addRunFault f s).cfgBs = s.cfgBs := rfl
@[simp] theorem addRunFault_cfgPbs : (addRunFault f s).cfgPbs = s.cfgPbs := rfl
@[simp] theorem addRunFault_keystore : (addRunFault f s).keystore = s.keystore := rfl
@[simp] theorem addRunFault_phase : (addRunFault f s).phase = s.phase := rfl
@[simp] theorem addRunFault_op : (addRunFault f s).op = s.op := rfl
@[simp] theorem addRunFault_fb : (addRunFault f s).fb = s.fb := rfl
@[simp] theorem addRunFault_blk : (addRunFault f s).blk = s.blk := rfl
@[simp] theorem addRunFault_tmp : (addRunFault f s).tmp = s.tmp := rfl
@[simp] theorem addRunFault_outb : (addRunFault f s).outb = s.outb := rfl
@[simp] theorem addRunFault_idx : (addRunFault f s).idx = s.idx := rfl
@[simp] theorem addRunFault_nblk : (addRunFault f s).nblk = s.nblk := rfl
@[simp] theorem addRunFault_work : (addRunFault f s).work = s.work := rfl
@[simp] theorem addRunFault_acc : (addRunFault f s).acc = s.acc := rfl
@[simp] theorem addRunFault_err : (addRunFault f s).err = s.err := rfl
@[simp] theorem addRunFault_done : (addRunFault f s).done = s.done := rfl
@[simp] theorem addRunFault_lastop : (addRunFault f s).lastop = s.lastop := rfl
@[simp] theorem addRunFault_errinfo : (addRunFault f s).errinfo = s.errinfo := rfl
@[simp] theorem addRunFault_erridx : (addRunFault f s).erridx = s.erridx := rfl
@[simp] theorem addRunFault_keybuf : (addRunFault f s).keybuf = s.keybuf := rfl
@[simp] theorem addRunFault_ivbuf : (addRunFault f s).ivbuf = s.ivbuf := rfl
@[simp] theorem addRunFault_inbuf : (addRunFault f s).inbuf = s.inbuf := rfl
@[simp] theorem addRunFault_outbuf : (addRunFault f s).outbuf = s.outbuf := rfl
@[simp] theorem addRunFault_trace : (addRunFault f s).trace = s.trace := rfl
@[simp] theorem addRunFault_host : (addRunFault f s).host = s.host := rfl
@[simp] theorem addRunFault_replies : (addRunFault f s).replies = s.replies := rfl
@[simp] theorem addRunFault_runFaults : (addRunFault f s).runFaults = s.runFaults ++ [f] := rfl
@[simp] theorem addRunFault_bs : (addRunFault f s).bs = s.bs := rfl
@[simp] theorem addRunFault_pbs : (addRunFault f s).pbs = s.pbs := rfl
end

section
variable {ι : Type} (I : InfoRep ι) (s : State ι)
@[simp] theorem clear_cfgValid : (clear I s).cfgValid = s.cfgValid := rfl
@[simp] theorem clear_cfgBs : (clear I s).cfgBs = s.cfgBs := rfl
@[simp] theorem clear_cfgPbs : (clear I s).cfgPbs = s.cfgPbs := rfl
@[simp] theorem clear_keystore : (clear I s).keystore = s.keystore := rfl
@[simp] theorem clear_phase : (clear I s).phase = s.phase := rfl
@[simp] theorem clear_op : (clear I s).op = s.op := rfl
@[simp] theorem clear_fb : (clear I s).fb = s.fb := rfl
@[simp] theorem clear_blk : (clear I s).blk = s.blk := rfl
@[simp] theorem clear_tmp : (clear I s).tmp = s.tmp := rfl
@[simp] theorem clear_outb : (clear I s).outb = s.outb := rfl
@[simp] theorem clear_idx : (clear I s).idx = s.idx := rfl
@[simp] theorem clear_nblk : (clear I s).nblk = s.nblk := rfl
@[simp] theorem clear_work : (clear I s).work = s.work := rfl
@[simp] theorem clear_acc : (clear I s).acc = s.acc := rfl
@[simp] theorem clear_err : (clear I s).err = 0#4 := rfl
@[simp] theorem clear_done : (clear I s).done = false := rfl
@[simp] theorem clear_lastop : (clear I s).lastop = 0#2 := rfl
@[simp] theorem clear_errinfo : (clear I s).errinfo = I.number 0 := rfl
@[simp] theorem clear_erridx : (clear I s).erridx = 0 := rfl
@[simp] theorem clear_keybuf : (clear I s).keybuf = s.keybuf := rfl
@[simp] theorem clear_ivbuf : (clear I s).ivbuf = s.ivbuf := rfl
@[simp] theorem clear_inbuf : (clear I s).inbuf = s.inbuf := rfl
@[simp] theorem clear_outbuf : (clear I s).outbuf = none := rfl
@[simp] theorem clear_trace : (clear I s).trace = s.trace := rfl
@[simp] theorem clear_host : (clear I s).host = s.host := rfl
@[simp] theorem clear_replies : (clear I s).replies = s.replies := rfl
@[simp] theorem clear_runFaults : (clear I s).runFaults = s.runFaults := rfl
@[simp] theorem clear_bs : (clear I s).bs = s.bs := rfl
@[simp] theorem clear_pbs : (clear I s).pbs = s.pbs := rfl
end

section
variable {ι : Type} (I : InfoRep ι) (o : Op) (ph : Phase) (s : State ι)
@[simp] theorem accept_cfgValid : (accept I o ph s).cfgValid = s.cfgValid := rfl
@[simp] theorem accept_cfgBs : (accept I o ph s).cfgBs = s.cfgBs := rfl
@[simp] theorem accept_cfgPbs : (accept I o ph s).cfgPbs = s.cfgPbs := rfl
@[simp] theorem accept_keystore : (accept I o ph s).keystore = s.keystore := rfl
@[simp] theorem accept_phase : (accept I o ph s).phase = ph := rfl
@[simp] theorem accept_op : (accept I o ph s).op = o := rfl
@[simp] theorem accept_fb : (accept I o ph s).fb = s.fb := rfl
@[simp] theorem accept_blk : (accept I o ph s).blk = s.blk := rfl
@[simp] theorem accept_tmp : (accept I o ph s).tmp = s.tmp := rfl
@[simp] theorem accept_outb : (accept I o ph s).outb = s.outb := rfl
@[simp] theorem accept_idx : (accept I o ph s).idx = s.idx := rfl
@[simp] theorem accept_nblk : (accept I o ph s).nblk = s.nblk := rfl
@[simp] theorem accept_work : (accept I o ph s).work = s.work := rfl
@[simp] theorem accept_acc : (accept I o ph s).acc = s.acc := rfl
@[simp] theorem accept_err : (accept I o ph s).err = 0#4 := rfl
@[simp] theorem accept_done : (accept I o ph s).done = false := rfl
@[simp] theorem accept_lastop : (accept I o ph s).lastop = 0#2 := rfl
@[simp] theorem accept_errinfo : (accept I o ph s).errinfo = I.number 0 := rfl
@[simp] theorem accept_erridx : (accept I o ph s).erridx = 0 := rfl
@[simp] theorem accept_keybuf : (accept I o ph s).keybuf = s.keybuf := rfl
@[simp] theorem accept_ivbuf : (accept I o ph s).ivbuf = s.ivbuf := rfl
@[simp] theorem accept_inbuf : (accept I o ph s).inbuf = s.inbuf := rfl
@[simp] theorem accept_outbuf : (accept I o ph s).outbuf = none := rfl
@[simp] theorem accept_trace : (accept I o ph s).trace = s.trace := rfl
@[simp] theorem accept_host : (accept I o ph s).host = s.host := rfl
@[simp] theorem accept_replies : (accept I o ph s).replies = s.replies := rfl
@[simp] theorem accept_runFaults : (accept I o ph s).runFaults = s.runFaults := rfl
@[simp] theorem accept_bs : (accept I o ph s).bs = s.bs := rfl
@[simp] theorem accept_pbs : (accept I o ph s).pbs = s.pbs := rfl
end

section
variable {ι : Type} (I : InfoRep ι) (w : Word) (s : State ι)
@[simp] theorem usage_cfgValid : (usage I w s).cfgValid = s.cfgValid := rfl
@[simp] theorem usage_cfgBs : (usage I w s).cfgBs = s.cfgBs := rfl
@[simp] theorem usage_cfgPbs : (usage I w s).cfgPbs = s.cfgPbs := rfl
@[simp] theorem usage_keystore : (usage I w s).keystore = s.keystore := rfl
@[simp] theorem usage_phase : (usage I w s).phase = s.phase := rfl
@[simp] theorem usage_op : (usage I w s).op = s.op := rfl
@[simp] theorem usage_fb : (usage I w s).fb = s.fb := rfl
@[simp] theorem usage_blk : (usage I w s).blk = s.blk := rfl
@[simp] theorem usage_tmp : (usage I w s).tmp = s.tmp := rfl
@[simp] theorem usage_outb : (usage I w s).outb = s.outb := rfl
@[simp] theorem usage_idx : (usage I w s).idx = s.idx := rfl
@[simp] theorem usage_nblk : (usage I w s).nblk = s.nblk := rfl
@[simp] theorem usage_work : (usage I w s).work = s.work := rfl
@[simp] theorem usage_acc : (usage I w s).acc = s.acc := rfl
@[simp] theorem usage_err : (usage I w s).err = 15#4 := rfl
@[simp] theorem usage_done : (usage I w s).done = true := rfl
@[simp] theorem usage_lastop : (usage I w s).lastop = 0#2 := rfl
@[simp] theorem usage_errinfo : (usage I w s).errinfo = I.word w := rfl
@[simp] theorem usage_erridx : (usage I w s).erridx = 0 := rfl
@[simp] theorem usage_keybuf : (usage I w s).keybuf = s.keybuf := rfl
@[simp] theorem usage_ivbuf : (usage I w s).ivbuf = s.ivbuf := rfl
@[simp] theorem usage_inbuf : (usage I w s).inbuf = s.inbuf := rfl
@[simp] theorem usage_outbuf : (usage I w s).outbuf = s.outbuf := rfl
@[simp] theorem usage_trace : (usage I w s).trace = s.trace := rfl
@[simp] theorem usage_host : (usage I w s).host = s.host := rfl
@[simp] theorem usage_replies : (usage I w s).replies = s.replies := rfl
@[simp] theorem usage_runFaults : (usage I w s).runFaults = s.runFaults ++ [.usage w] := rfl
@[simp] theorem usage_bs : (usage I w s).bs = s.bs := rfl
@[simp] theorem usage_pbs : (usage I w s).pbs = s.pbs := rfl
end

section
variable {ι : Type} (k : ErrKind) (info : ι) (i : Nat) (out : Option Bytes) (s : State ι)
@[simp] theorem complete_cfgValid : (complete k info i out s).cfgValid = s.cfgValid := rfl
@[simp] theorem complete_cfgBs : (complete k info i out s).cfgBs = s.cfgBs := rfl
@[simp] theorem complete_cfgPbs : (complete k info i out s).cfgPbs = s.cfgPbs := rfl
@[simp] theorem complete_keystore : (complete k info i out s).keystore = s.keystore := rfl
@[simp] theorem complete_phase : (complete k info i out s).phase = .idle := rfl
@[simp] theorem complete_op : (complete k info i out s).op = .none := rfl
@[simp] theorem complete_fb : (complete k info i out s).fb = none := rfl
@[simp] theorem complete_blk : (complete k info i out s).blk = none := rfl
@[simp] theorem complete_tmp : (complete k info i out s).tmp = none := rfl
@[simp] theorem complete_outb : (complete k info i out s).outb = none := rfl
@[simp] theorem complete_idx : (complete k info i out s).idx = none := rfl
@[simp] theorem complete_nblk : (complete k info i out s).nblk = none := rfl
@[simp] theorem complete_work : (complete k info i out s).work = none := rfl
@[simp] theorem complete_acc : (complete k info i out s).acc = none := rfl
@[simp] theorem complete_err : (complete k info i out s).err = k.code := rfl
@[simp] theorem complete_done : (complete k info i out s).done = true := rfl
@[simp] theorem complete_lastop : (complete k info i out s).lastop = s.op.lastop := rfl
@[simp] theorem complete_errinfo : (complete k info i out s).errinfo = info := rfl
@[simp] theorem complete_erridx : (complete k info i out s).erridx = i := rfl
@[simp] theorem complete_keybuf : (complete k info i out s).keybuf = s.keybuf := rfl
@[simp] theorem complete_ivbuf : (complete k info i out s).ivbuf = s.ivbuf := rfl
@[simp] theorem complete_inbuf : (complete k info i out s).inbuf = s.inbuf := rfl
@[simp] theorem complete_outbuf : (complete k info i out s).outbuf = out := rfl
@[simp] theorem complete_trace : (complete k info i out s).trace = s.trace := rfl
@[simp] theorem complete_host : (complete k info i out s).host = s.host := rfl
@[simp] theorem complete_replies : (complete k info i out s).replies = s.replies := rfl
@[simp] theorem complete_runFaults : (complete k info i out s).runFaults = s.runFaults := rfl
@[simp] theorem complete_bs : (complete k info i out s).bs = s.bs := rfl
@[simp] theorem complete_pbs : (complete k info i out s).pbs = s.pbs := rfl
end

section
variable {ι : Type} (r : Reply ι) (s : State ι)
@[simp] theorem reply_cfgValid : (reply r s).cfgValid = s.cfgValid := rfl
@[simp] theorem reply_cfgBs : (reply r s).cfgBs = s.cfgBs := rfl
@[simp] theorem reply_cfgPbs : (reply r s).cfgPbs = s.cfgPbs := rfl
@[simp] theorem reply_keystore : (reply r s).keystore = s.keystore := rfl
@[simp] theorem reply_phase : (reply r s).phase = s.phase := rfl
@[simp] theorem reply_op : (reply r s).op = s.op := rfl
@[simp] theorem reply_fb : (reply r s).fb = s.fb := rfl
@[simp] theorem reply_blk : (reply r s).blk = s.blk := rfl
@[simp] theorem reply_tmp : (reply r s).tmp = s.tmp := rfl
@[simp] theorem reply_outb : (reply r s).outb = s.outb := rfl
@[simp] theorem reply_idx : (reply r s).idx = s.idx := rfl
@[simp] theorem reply_nblk : (reply r s).nblk = s.nblk := rfl
@[simp] theorem reply_work : (reply r s).work = s.work := rfl
@[simp] theorem reply_acc : (reply r s).acc = s.acc := rfl
@[simp] theorem reply_err : (reply r s).err = s.err := rfl
@[simp] theorem reply_done : (reply r s).done = s.done := rfl
@[simp] theorem reply_lastop : (reply r s).lastop = s.lastop := rfl
@[simp] theorem reply_errinfo : (reply r s).errinfo = s.errinfo := rfl
@[simp] theorem reply_erridx : (reply r s).erridx = s.erridx := rfl
@[simp] theorem reply_keybuf : (reply r s).keybuf = s.keybuf := rfl
@[simp] theorem reply_ivbuf : (reply r s).ivbuf = s.ivbuf := rfl
@[simp] theorem reply_inbuf : (reply r s).inbuf = s.inbuf := rfl
@[simp] theorem reply_outbuf : (reply r s).outbuf = s.outbuf := rfl
@[simp] theorem reply_trace : (reply r s).trace = s.trace := rfl
@[simp] theorem reply_host : (reply r s).host = s.host := rfl
@[simp] theorem reply_replies : (reply r s).replies = s.replies ++ [r] := rfl
@[simp] theorem reply_runFaults : (reply r s).runFaults = s.runFaults := rfl
@[simp] theorem reply_bs : (reply r s).bs = s.bs := rfl
@[simp] theorem reply_pbs : (reply r s).pbs = s.pbs := rfl
end

section
variable {ι : Type} (I : InfoRep ι) (s : State ι)
@[simp] theorem resetEngine_cfgValid : (resetEngine I s).cfgValid = (State.resetOf I).cfgValid := rfl
@[simp] theorem resetEngine_cfgBs : (resetEngine I s).cfgBs = (State.resetOf I).cfgBs := rfl
@[simp] theorem resetEngine_cfgPbs : (resetEngine I s).cfgPbs = (State.resetOf I).cfgPbs := rfl
@[simp] theorem resetEngine_keystore : (resetEngine I s).keystore = (State.resetOf I).keystore := rfl
@[simp] theorem resetEngine_phase : (resetEngine I s).phase = (State.resetOf I).phase := rfl
@[simp] theorem resetEngine_op : (resetEngine I s).op = (State.resetOf I).op := rfl
@[simp] theorem resetEngine_fb : (resetEngine I s).fb = (State.resetOf I).fb := rfl
@[simp] theorem resetEngine_blk : (resetEngine I s).blk = (State.resetOf I).blk := rfl
@[simp] theorem resetEngine_tmp : (resetEngine I s).tmp = (State.resetOf I).tmp := rfl
@[simp] theorem resetEngine_outb : (resetEngine I s).outb = (State.resetOf I).outb := rfl
@[simp] theorem resetEngine_idx : (resetEngine I s).idx = (State.resetOf I).idx := rfl
@[simp] theorem resetEngine_nblk : (resetEngine I s).nblk = (State.resetOf I).nblk := rfl
@[simp] theorem resetEngine_work : (resetEngine I s).work = (State.resetOf I).work := rfl
@[simp] theorem resetEngine_acc : (resetEngine I s).acc = (State.resetOf I).acc := rfl
@[simp] theorem resetEngine_err : (resetEngine I s).err = (State.resetOf I).err := rfl
@[simp] theorem resetEngine_done : (resetEngine I s).done = (State.resetOf I).done := rfl
@[simp] theorem resetEngine_lastop : (resetEngine I s).lastop = (State.resetOf I).lastop := rfl
@[simp] theorem resetEngine_errinfo : (resetEngine I s).errinfo = (State.resetOf I).errinfo := rfl
@[simp] theorem resetEngine_erridx : (resetEngine I s).erridx = (State.resetOf I).erridx := rfl
@[simp] theorem resetEngine_keybuf : (resetEngine I s).keybuf = (State.resetOf I).keybuf := rfl
@[simp] theorem resetEngine_ivbuf : (resetEngine I s).ivbuf = (State.resetOf I).ivbuf := rfl
@[simp] theorem resetEngine_inbuf : (resetEngine I s).inbuf = (State.resetOf I).inbuf := rfl
@[simp] theorem resetEngine_outbuf : (resetEngine I s).outbuf = (State.resetOf I).outbuf := rfl
@[simp] theorem resetEngine_trace : (resetEngine I s).trace = (State.resetOf I).trace := rfl
@[simp] theorem resetEngine_host : (resetEngine I s).host = s.host := rfl
@[simp] theorem resetEngine_replies : (resetEngine I s).replies = s.replies := rfl
@[simp] theorem resetEngine_runFaults : (resetEngine I s).runFaults = s.runFaults := rfl
end

end Sys2Proof.Machine
end

