-- ==== Sys2Proof/Laws/Steps.lean ====
section
/-! SUPPORT. One inversion lemma per command, per micro-operation and per agent: everything it can do when it answers a
next state, guards included. Later proofs cite these and do not unfold the operation again. -/

namespace Sys2Proof.Machine

variable {ι : Type} {I : InfoRep ι} {P : Params I} {s t : State ι}

theorem next_inj {a b : State ι} (h : (Host.Outcome.next a : Outcome ι) = .next b) : a = b := by
  injection h

/-- NEW is accepted with its operands latched, or rejected (R91, R138). -/
theorem commandNew_next {bs : Nat} (h : commandNew I bs s = .next t) :
    s.phase = .idle ∧
      ((s.cfgValid = false ∧ ∃ key, s.keybuf = some key ∧
          t = accept I (.new (BitVec.ofNat 8 bs) key) .newop { s with keybuf := none }) ∨
        ((s.cfgValid = true ∨ s.keybuf = none) ∧ t = usage I (encode (.new bs)) s)) := by
  unfold commandNew at h
  split at h
  · rename_i hp
    refine ⟨hp, ?_⟩
    split at h
    · rename_i key hv hk
      exact .inl ⟨hv, key, hk, (next_inj h).symm⟩
    · rename_i hn
      refine .inr ⟨?_, (next_inj h).symm⟩
      cases hv : s.cfgValid <;> cases hk : s.keybuf <;> simp_all
  · cases h

/-- ENCRYPT is accepted with its operands latched, or rejected (R100, R138). -/
theorem commandEncrypt_next (h : commandEncrypt I s = .next t) :
    s.phase = .idle ∧
      ((s.cfgValid = true ∧ ∃ iv data, s.ivbuf = some iv ∧ s.inbuf = some data ∧
          t = accept I (.encrypt iv data) .encPad { s with ivbuf := none, inbuf := none }) ∨
        ((s.cfgValid = false ∨ s.ivbuf = none ∨ s.inbuf = none) ∧ t = usage I (encode .encrypt) s)) := by
  unfold commandEncrypt at h
  split at h
  · rename_i hp
    refine ⟨hp, ?_⟩
    split at h
    · rename_i iv data hv hi hd
      exact .inl ⟨hv, iv, data, hi, hd, (next_inj h).symm⟩
    · rename_i hn
      refine .inr ⟨?_, (next_inj h).symm⟩
      cases hv : s.cfgValid <;> cases hk : s.ivbuf <;> cases hd : s.inbuf <;> simp_all
  · cases h

/-- DECRYPT is accepted with its operands latched, or rejected (R115, R138). -/
theorem commandDecrypt_next (h : commandDecrypt I s = .next t) :
    s.phase = .idle ∧
      ((s.cfgValid = true ∧ ∃ iv data, s.ivbuf = some iv ∧ s.inbuf = some data ∧
          t = accept I (.decrypt iv data) .decChk { s with ivbuf := none, inbuf := none }) ∨
        ((s.cfgValid = false ∨ s.ivbuf = none ∨ s.inbuf = none) ∧ t = usage I (encode .decrypt) s)) := by
  unfold commandDecrypt at h
  split at h
  · rename_i hp
    refine ⟨hp, ?_⟩
    split at h
    · rename_i iv data hv hi hd
      exact .inl ⟨hv, iv, data, hi, hd, (next_inj h).symm⟩
    · rename_i hn
      refine .inr ⟨?_, (next_inj h).symm⟩
      cases hv : s.cfgValid <;> cases hk : s.ivbuf <;> cases hd : s.inbuf <;> simp_all
  · cases h

/-- When NEW is accepted (R138). -/
theorem commandNew_accepts {bs : Nat} {key : Bytes} (hp : s.phase = .idle) (hv : s.cfgValid = false)
    (hk : s.keybuf = some key) :
    commandNew I bs s = .next (accept I (.new (BitVec.ofNat 8 bs) key) .newop { s with keybuf := none }) := by
  simp [commandNew, hp, hv, hk]

/-- When NEW is rejected (R138). -/
theorem commandNew_rejects {bs : Nat} (hp : s.phase = .idle) (h : s.cfgValid = true ∨ s.keybuf = none) :
    commandNew I bs s = .next (usage I (encode (.new bs)) s) := by
  unfold commandNew
  split
  · split
    · simp_all
    · rfl
  · rename_i hn
    exact absurd hp hn

/-- When ENCRYPT is accepted (R138). -/
theorem commandEncrypt_accepts {iv data : Bytes} (hp : s.phase = .idle) (hv : s.cfgValid = true)
    (hi : s.ivbuf = some iv) (hd : s.inbuf = some data) :
    commandEncrypt I s = .next (accept I (.encrypt iv data) .encPad { s with ivbuf := none, inbuf := none }) := by
  simp [commandEncrypt, hp, hv, hi, hd]

/-- When ENCRYPT is rejected (R138). -/
theorem commandEncrypt_rejects (hp : s.phase = .idle) (h : s.cfgValid = false ∨ s.ivbuf = none ∨ s.inbuf = none) :
    commandEncrypt I s = .next (usage I (encode .encrypt) s) := by
  unfold commandEncrypt
  split
  · split
    · simp_all
    · rfl
  · rename_i hn
    exact absurd hp hn

/-- When DECRYPT is accepted (R138). -/
theorem commandDecrypt_accepts {iv data : Bytes} (hp : s.phase = .idle) (hv : s.cfgValid = true)
    (hi : s.ivbuf = some iv) (hd : s.inbuf = some data) :
    commandDecrypt I s = .next (accept I (.decrypt iv data) .decChk { s with ivbuf := none, inbuf := none }) := by
  simp [commandDecrypt, hp, hv, hi, hd]

/-- When DECRYPT is rejected (R138). -/
theorem commandDecrypt_rejects (hp : s.phase = .idle) (h : s.cfgValid = false ∨ s.ivbuf = none ∨ s.inbuf = none) :
    commandDecrypt I s = .next (usage I (encode .decrypt) s) := by
  unfold commandDecrypt
  split
  · split
    · simp_all
    · rfl
  · rename_i hn
    exact absurd hp hn

/-- NEWOP constructs the engine or reports ConfigurationError (R147). -/
theorem newop_next (h : newop P s = .next t) :
    ∃ bs key, s.op = .new bs key ∧
      ((P.ciph.supports key.length bs.toNat = true ∧
          t = complete .ok (I.number 0) 0 none
            { addEvent (.evNew key.length bs.toNat (.ok ())) s with
              keystore := some key, cfgBs := bs, cfgPbs := bs, cfgValid := true }) ∨
        (P.ciph.supports key.length bs.toNat = false ∧
          t = complete .configuration (P.ciph.cfgErr key.length bs.toNat) 0 none
            (addEvent (.evNew key.length bs.toNat (.err (P.ciph.cfgErr key.length bs.toNat))) s))) := by
  unfold newop at h
  split at h
  · rename_i bs key ho
    refine ⟨bs, key, ho, ?_⟩
    split at h
    · rename_i hs
      exact .inl ⟨hs, (next_inj h).symm⟩
    · rename_i hs
      exact .inr ⟨by simpa using hs, (next_inj h).symm⟩
  · cases h

/-- IVLOAD loads the feedback or raises IvSizeError (R142). -/
theorem ivload_next {iv : Bytes} {ph : Phase} (h : ivload I iv ph s = .next t) :
    (iv.length = s.bs ∧ t = { s with fb := some iv, phase := ph }) ∨
      (iv.length ≠ s.bs ∧ t = raiseIvSize I iv.length s) := by
  unfold ivload at h
  split at h
  · exact .inl ⟨‹_›, (next_inj h).symm⟩
  · exact .inr ⟨‹_›, (next_inj h).symm⟩

/-- PADENC frames the latched plaintext (R140). -/
theorem padenc_next (h : padenc P s = .next t) :
    ∃ iv data, s.op = .encrypt iv data ∧ s.bs ≠ 0 ∧ (P.pad.encode s.pbs data).length % s.bs = 0 ∧
      P.fits (P.pad.encode s.pbs data).length = true ∧
      t = { addEvent (.evPadEncode s.pbs data (P.pad.encode s.pbs data)) s with
        work := some (P.pad.encode s.pbs data), nblk := some ((P.pad.encode s.pbs data).length / s.bs)
        idx := some 0, acc := some [], phase := .encIv } := by
  unfold padenc at h
  split at h
  · rename_i iv data ho
    split at h
    · cases h
    · rename_i hb
      simp only at h
      split at h
      · cases h
      · rename_i ha
        split at h
        · cases h
        · rename_i hf
          exact ⟨iv, data, ho, hb, by simpa using ha, by simpa using hf, (next_inj h).symm⟩
  · cases h

/-- SIZECHK reports InvalidSizeError or sets the number of blocks (R141). -/
theorem sizechk_next (h : sizechk I s = .next t) :
    ∃ iv data, s.op = .decrypt iv data ∧ s.bs ≠ 0 ∧
      ((data.length % s.bs ≠ 0 ∧ t = complete .invalidSize (I.number (data.length % s.bs)) 0 none s) ∨
        (data.length % s.bs = 0 ∧
          t = { s with nblk := some (data.length / s.bs), idx := some 0, acc := some [], phase := .decIv })) := by
  unfold sizechk at h
  split at h
  · rename_i iv data ho
    split at h
    · cases h
    · rename_i hb
      refine ⟨iv, data, ho, hb, ?_⟩
      split at h
      · exact .inl ⟨‹_›, (next_inj h).symm⟩
      · rename_i ha
        exact .inr ⟨by simpa using ha, (next_inj h).symm⟩
  · cases h

/-- ENCBLK on its operands (R143): CipherError with the payload unchanged, or one more ciphertext block. -/
theorem encblkOn_next {i : Nat} {key acc : Bytes} {blk fb : Block s.bs}
    (h : encblkOn P s i key acc blk fb = .next t) :
    (∃ info, P.ciph.enc key s.bs (xorblk blk fb) = .err info ∧
        t = complete .cipher info i none
          (addEvent (.evEnc i (xorblk blk fb).val (.err info))
            { s with blk := some blk.val, tmp := some (xorblk blk fb).val })) ∨
      (∃ ob, P.ciph.enc key s.bs (xorblk blk fb) = .ok ob ∧
        t = { addEvent (.evEnc i (xorblk blk fb).val (.ok ob.val))
            { s with blk := some blk.val, tmp := some (xorblk blk fb).val } with
          outb := some ob.val, acc := some (memAppend acc ob), fb := some ob.val, idx := some (i + 1) }) := by
  unfold encblkOn at h
  cases hr : P.ciph.enc key s.bs (xorblk blk fb) with
  | err info =>
    simp only [hr, Result.map] at h
    exact .inl ⟨info, rfl, (next_inj h).symm⟩
  | ok ob =>
    simp only [hr, Result.map] at h
    exact .inr ⟨ob, rfl, (next_inj h).symm⟩

/-- DECBLK on its operands (R144): CipherError with the payload unchanged, or one more recovered block. -/
theorem decblkOn_next {i : Nat} {key acc : Bytes} {blk fb : Block s.bs}
    (h : decblkOn P s i key acc blk fb = .next t) :
    (∃ info, P.ciph.dec key s.bs blk = .err info ∧
        t = complete .cipher info i none
          (addEvent (.evDec i blk.val (.err info)) { s with blk := some blk.val })) ∨
      (∃ d, P.ciph.dec key s.bs blk = .ok d ∧
        t = { addEvent (.evDec i blk.val (.ok d.val)) { s with blk := some blk.val } with
          tmp := some d.val, outb := some (xorblk d fb).val, acc := some (memAppend acc (xorblk d fb))
          fb := some blk.val, idx := some (i + 1) }) := by
  unfold decblkOn at h
  cases hr : P.ciph.dec key s.bs blk with
  | err info =>
    simp only [hr, Result.map] at h
    exact .inl ⟨info, rfl, (next_inj h).symm⟩
  | ok d =>
    simp only [hr, Result.map] at h
    exact .inr ⟨d, rfl, (next_inj h).symm⟩

/-- ENCBLK fetches the key, block `i` of WORK, FB and ACC, or stops. -/
theorem encblk_next {i : Nat} (h : encblk P i s = .next t) :
    ∃ key blk fb acc, s.keystore = some key ∧ memRead s.work (i * s.bs) s.bs = some blk ∧
      s.fb = some fb.val ∧ s.acc = some acc ∧ encblkOn P s i key acc blk fb = .next t := by
  unfold encblk at h
  split at h
  · rename_i key blk fb acc hk hb hf ha
    split at h
    · rename_i fb' hfb
      exact ⟨key, blk, fb', acc, hk, hb, by rw [hf, asBlock_eq_some.mp hfb], ha, h⟩
    · cases h
  · cases h

/-- DECBLK fetches the key, block `i` of the latched ciphertext, FB and ACC, or stops. -/
theorem decblk_next {i : Nat} (h : decblk P i s = .next t) :
    ∃ key blk fb acc, s.keystore = some key ∧ memRead (s.space .opData) (i * s.bs) s.bs = some blk ∧
      s.fb = some fb.val ∧ s.acc = some acc ∧ decblkOn P s i key acc blk fb = .next t := by
  unfold decblk at h
  split at h
  · rename_i key blk fb acc hk hb hf ha
    split at h
    · rename_i fb' hfb
      exact ⟨key, blk, fb', acc, hk, hb, by rw [hf, asBlock_eq_some.mp hfb], ha, h⟩
    · cases h
  · cases h

/-- ENCFIN delivers the accumulator (R145). -/
theorem encfin_next (h : encfin I s = .next t) :
    ∃ acc, s.acc = some acc ∧ t = complete .ok (I.number 0) 0 (some acc) s := by
  unfold encfin at h
  split at h
  · exact ⟨_, ‹_›, (next_inj h).symm⟩
  · cases h

/-- PADDEC reports PaddingError or delivers what `Pad.decode` answers (R146). -/
theorem paddec_next (h : paddec P s = .next t) :
    ∃ acc, s.acc = some acc ∧
      ((∃ info, P.pad.decode s.pbs acc = .err info ∧
          t = complete .padding info 0 none (addEvent (.evPadDecode s.pbs acc (.err info)) s)) ∨
        (∃ plain, P.pad.decode s.pbs acc = .ok plain ∧
          t = complete .ok (I.number 0) 0 (some plain) (addEvent (.evPadDecode s.pbs acc (.ok plain)) s))) := by
  unfold paddec at h
  split at h
  · rename_i acc ha
    refine ⟨acc, ha, ?_⟩
    cases hr : P.pad.decode s.pbs acc with
    | err info =>
      simp only [hr] at h
      exact .inl ⟨info, rfl, (next_inj h).symm⟩
    | ok plain =>
      simp only [hr] at h
      exact .inr ⟨plain, rfl, (next_inj h).symm⟩
  · cases h

/-- The step of ENC_BLK: ENCBLK below NBLK, ENCFIN at it (R148). -/
theorem encBlkStep_next (h : encBlkStep P s = .next t) :
    ∃ i n, s.idx = some i ∧ s.nblk = some n ∧
      ((i < n ∧ encblk P i s = .next t) ∨ (i = n ∧ encfin I s = .next t)) := by
  unfold encBlkStep at h
  split at h
  · rename_i i n hi hn
    refine ⟨i, n, hi, hn, ?_⟩
    split at h
    · exact .inl ⟨‹_›, h⟩
    · split at h
      · exact .inr ⟨‹_›, h⟩
      · cases h
  · cases h

/-- The step of DEC_BLK: DECBLK below NBLK, PADDEC at it (R148). -/
theorem decBlkStep_next (h : decBlkStep P s = .next t) :
    ∃ i n, s.idx = some i ∧ s.nblk = some n ∧
      ((i < n ∧ decblk P i s = .next t) ∨ (i = n ∧ paddec P s = .next t)) := by
  unfold decBlkStep at h
  split at h
  · rename_i i n hi hn
    refine ⟨i, n, hi, hn, ?_⟩
    split at h
    · exact .inl ⟨‹_›, h⟩
    · split at h
      · exact .inr ⟨‹_›, h⟩
      · cases h
  · cases h

/-- The step of ENC_IV is IVLOAD on the latched IV (R148). -/
theorem encIvStep_next (h : encIvStep I s = .next t) :
    ∃ iv data, s.op = .encrypt iv data ∧ ivload I iv .encBlk s = .next t := by
  unfold encIvStep at h
  split at h
  · exact ⟨_, _, ‹_›, h⟩
  · cases h

/-- The step of DEC_IV is IVLOAD on the latched IV (R148). -/
theorem decIvStep_next (h : decIvStep I s = .next t) :
    ∃ iv data, s.op = .decrypt iv data ∧ ivload I iv .decBlk s = .next t := by
  unfold decIvStep at h
  split at h
  · exact ⟨_, _, ‹_›, h⟩
  · cases h

/-- `exec` is the command at the default `Info`. -/
theorem exec_eq_command (i : Instr) (s : State) : exec i s = command Config.info i s := by
  cases i <;> rfl

/-- WRITE_CMD runs the decoded command or rejects the word (R74, R82, R138). -/
theorem writeCmd_next {w : Word} (h : writeCmd I w s = .next t) :
    (∃ i, decode w = .legal i ∧ command I i s = .next t) ∨ (∃ why, decode w = .illegal why ∧ t = usage I w s) := by
  unfold writeCmd at h
  split at h
  · exact .inl ⟨_, ‹_›, h⟩
  · exact .inr ⟨_, ‹_›, (next_inj h).symm⟩

/-- In IDLE the step is the host's next move (R12). -/
theorem stepUnder_host {m : HostMove} {rest : List HostMove} (hp : s.phase = .idle) (hh : s.host = m :: rest) :
    stepUnder P s = hostMove P m { s with host := rest } := by
  unfold stepUnder
  split
  · simp only [hostStep, hh]
  · rename_i hn
    exact absurd hp hn

/-- In every other phase it is the engine's, when no reset in mid-operation stands next (R12, R230). -/
theorem stepUnder_engine (hp : s.phase ≠ .idle) (hh : ∀ k rest, s.host ≠ .rstDuring k :: rest) :
    stepUnder P s = engineStep P s := by
  unfold stepUnder
  split
  · rename_i h
    exact absurd h hp
  · unfold busyStep
    split
    · exact absurd ‹_› (hh _ _)
    · exact absurd ‹_› (hh _ _)
    · rfl

/-- Who has the step (R12): the HOST in IDLE, otherwise the ENGINE, unless a reset in mid-operation strikes (R230). -/
theorem stepUnder_next (h : stepUnder P s = .next t) :
    (s.phase = .idle ∧ s.host = [] ∧ t = s) ∨
    (s.phase = .idle ∧ ∃ m rest, s.host = m :: rest ∧ hostMove P m { s with host := rest } = .next t) ∨
    (s.phase ≠ .idle ∧ ∃ rest, s.host = .rstDuring 0 :: rest ∧ t = resetEngine I { s with host := rest }) ∨
    (s.phase ≠ .idle ∧ ∃ k rest, s.host = .rstDuring (k + 1) :: rest ∧
      engineStep P { s with host := .rstDuring k :: rest } = .next t) ∨
    (s.phase ≠ .idle ∧ (∀ k rest, s.host ≠ .rstDuring k :: rest) ∧ engineStep P s = .next t) := by
  unfold stepUnder at h
  split at h
  · rename_i hp
    unfold hostStep at h
    split at h
    · exact .inl ⟨hp, ‹_›, (next_inj h).symm⟩
    · exact .inr (.inl ⟨hp, _, _, ‹_›, h⟩)
  · rename_i hp
    unfold busyStep at h
    split at h
    · exact .inr (.inr (.inl ⟨hp, _, ‹_›, (next_inj h).symm⟩))
    · exact .inr (.inr (.inr (.inl ⟨hp, _, _, ‹_›, h⟩)))
    · rename_i h0 h1
      refine .inr (.inr (.inr (.inr ⟨hp, ?_, h⟩)))
      intro k rest hl
      cases k with
      | zero => exact h0 rest hl
      | succ k => exact h1 k rest hl

/-- The engine's step is the micro-operation of its phase (R148). -/
theorem engineStep_next (h : engineStep P s = .next t) :
    (s.phase = .idle ∧ t = s) ∨ (s.phase = .newop ∧ newop P s = .next t) ∨
    (s.phase = .encPad ∧ padenc P s = .next t) ∨ (s.phase = .encIv ∧ encIvStep I s = .next t) ∨
    (s.phase = .encBlk ∧ encBlkStep P s = .next t) ∨ (s.phase = .decChk ∧ sizechk I s = .next t) ∨
    (s.phase = .decIv ∧ decIvStep I s = .next t) ∨ (s.phase = .decBlk ∧ decBlkStep P s = .next t) := by
  unfold engineStep at h
  cases hp : s.phase <;> simp_all

end Sys2Proof.Machine
end

