-- ==== Sys2Proof/Laws/Invariant.lean ====
section
/-! SUPPORT. What the invariant (Safety.lean, `State.Inv`) needs of each part of a step: every command, every
micro-operation, every host move and reset keep it. -/

namespace Sys2Proof.Machine

variable {ι : Type} {I : InfoRep ι} {P : Params I} {s t : State ι}

/-- The configuration group alone decides `cfgInv`. -/
theorem cfgInv_congr (hc : s.cfgInv P) (h1 : t.cfgValid = s.cfgValid) (h2 : t.cfgBs = s.cfgBs)
    (h3 : t.cfgPbs = s.cfgPbs) (h4 : t.keystore = s.keystore) : t.cfgInv P := by
  unfold State.cfgInv State.bs at *
  rw [h1, h2, h3, h4]
  exact hc

/-- A constructed engine has a block size of at least 1 (R21, R151). -/
theorem cfgInv_bs_ne_zero (hc : s.cfgInv P) (hv : s.cfgValid = true) : s.bs ≠ 0 := by
  obtain ⟨h, -⟩ := hc.2 hv
  intro h0
  exact h (BitVec.eq_of_toNat_eq (by simpa [State.bs] using h0))

/-- The host program is no part of the invariant. -/
theorem inv_of_host (hi : s.Inv P) (l : List HostMove) : ({ s with host := l } : State ι).Inv P := hi

/-! ### Completion, rejection and reset -/

/-- The STATUS word COMPLETE leaves (R32, R139). -/
theorem statusWord_complete (k : ErrKind) (info : ι) (i : Nat) (out : Option Bytes) :
    (complete k info i out s).statusWord = 0#24 ++ s.op.lastop ++ 0#1 ++ 1#1 ++ k.code := rfl

/-- COMPLETE keeps the invariant, for the outcomes R139 to R147 give it. -/
theorem complete_inv {k : ErrKind} {info : ι} {i : Nat} {out : Option Bytes} (hc : s.cfgInv P)
    (hs : 0#24 ++ s.op.lastop ++ 0#1 ++ 1#1 ++ k.code ∈ statusValues)
    (h0 : k = .ok → info = I.number 0) (h3 : k ≠ .cipher → i = 0)
    (ho : out ≠ none → k = .ok ∧ (s.op.lastop = 2#2 ∨ s.op.lastop = 3#2))
    (ho' : k = .ok → (s.op.lastop = 2#2 ∨ s.op.lastop = 3#2) → out ≠ none)
    (hk : k ≠ .ivSize) (hk' : k ≠ .usage) : (complete k info i out s).Inv P := by
  refine ⟨cfgInv_congr hc rfl rfl rfl rfl, ⟨⟨rfl, rfl, rfl, rfl, rfl, rfl, rfl, rfl⟩, rfl, ?_⟩, ?_⟩
  · refine ⟨by rw [statusWord_complete]; exact hs, ?_, ?_, ?_, ?_⟩
    · exact fun h => h0 (by cases k <;> simp_all [ErrKind.code])
    · exact fun h => h3 (by rintro rfl; exact h rfl)
    · intro h
      obtain ⟨hk, h⟩ := ho h
      exact .inr ⟨by rw [complete_err, hk]; rfl, h⟩
    · exact fun h h' => ho' (by cases k <;> simp_all [ErrKind.code]) h'
  · intro he
    cases k <;> simp_all [ErrKind.code]

/-- Raising IvSizeError keeps the invariant: the run is recorded as faulted (R13, R142). -/
theorem raiseIvSize_inv {n : Nat} (hc : s.cfgInv P) (ho : s.op.lastop = 2#2 ∨ s.op.lastop = 3#2) :
    (raiseIvSize I n s).Inv P := by
  refine ⟨cfgInv_congr hc rfl rfl rfl rfl, ⟨⟨rfl, rfl, rfl, rfl, rfl, rfl, rfl, rfl⟩, rfl, ?_⟩, ?_⟩
  · refine ⟨?_, ?_, ?_, ?_, ?_⟩
    · show 0#24 ++ s.op.lastop ++ 0#1 ++ 1#1 ++ ErrKind.ivSize.code ∈ statusValues
      rcases ho with h | h <;> rw [h] <;> decide
    all_goals simp [raiseIvSize, ErrKind.code]
  · intro _
    simp [raiseIvSize, State.faulted]

/-- A rejected command keeps the invariant (R138 USAGE). -/
theorem usage_keeps_inv (w : Word) (hi : s.Inv P) (hid : s.phase = .idle) : (usage I w s).Inv P := by
  obtain ⟨hc, hp, hf⟩ := hi
  refine ⟨cfgInv_congr hc rfl rfl rfl rfl, ?_, ?_⟩
  · simp only [State.phaseInv, hid, usage_phase] at hp ⊢
    obtain ⟨hq, ho, -⟩ := hp
    refine ⟨hq, ho, ?_, ?_, ?_, ?_, ?_⟩
    · show 0#24 ++ 0#2 ++ BitVec.ofBool s.busy ++ 1#1 ++ 15#4 ∈ statusValues
      rw [State.busy, hid]
      decide
    all_goals simp
  · intro _
    simp [State.faulted]

/-- Reset establishes the invariant (R230). -/
theorem resetEngine_meets_inv : (resetEngine I s).Inv P := by
  refine ⟨⟨fun _ => ⟨rfl, rfl, rfl⟩, by simp [State.resetOf]⟩, ?_, by simp [State.faultInv, State.resetOf]⟩
  refine ⟨⟨rfl, rfl, rfl, rfl, rfl, rfl, rfl, rfl⟩, rfl, ?_, ?_, ?_, ?_, ?_⟩
  · show 0#24 ++ 0#2 ++ 0#1 ++ 0#1 ++ 0#4 ∈ statusValues
    decide
  all_goals simp [State.resetOf]

/-! ### The commands -/

/-- A command, accepted or rejected, keeps the invariant. -/
theorem command_keeps_inv {i : Instr} (hi : s.Inv P) (h : command I i s = .next t) : t.Inv P := by
  obtain ⟨hc, hp, -⟩ := id hi
  cases i with
  | new bs =>
    obtain ⟨hid, ⟨hv, key, -, rfl⟩ | ⟨-, rfl⟩⟩ := commandNew_next h
    · simp only [State.phaseInv, hid] at hp
      exact ⟨cfgInv_congr hc rfl rfl rfl rfl, ⟨hp.1, ⟨rfl, rfl, rfl, rfl, rfl, rfl⟩, hv, _, _, rfl⟩,
        by simp [State.faultInv]⟩
    · exact usage_keeps_inv _ hi hid
  | encrypt =>
    obtain ⟨hid, ⟨hv, iv, data, -, -, rfl⟩ | ⟨-, rfl⟩⟩ := commandEncrypt_next h
    · simp only [State.phaseInv, hid] at hp
      exact ⟨cfgInv_congr hc rfl rfl rfl rfl, ⟨hp.1, ⟨rfl, rfl, rfl, rfl, rfl, rfl⟩, hv, _, _, rfl⟩,
        by simp [State.faultInv]⟩
    · exact usage_keeps_inv _ hi hid
  | decrypt =>
    obtain ⟨hid, ⟨hv, iv, data, -, -, rfl⟩ | ⟨-, rfl⟩⟩ := commandDecrypt_next h
    · simp only [State.phaseInv, hid] at hp
      exact ⟨cfgInv_congr hc rfl rfl rfl rfl, ⟨hp.1, ⟨rfl, rfl, rfl, rfl, rfl, rfl⟩, hv, _, _, rfl⟩,
        by simp [State.faultInv]⟩
    · exact usage_keeps_inv _ hi hid

/-- `exec` keeps the invariant at the default `Info`. -/
theorem exec_keeps_inv {P : Params Config.info} {s t : State} {i : Instr} (hi : s.Inv P) (h : exec i s = .next t) :
    t.Inv P :=
  command_keeps_inv hi (exec_eq_command i s ▸ h)

/-- A command that is accepted enters its first phase (R138, R148). -/
theorem command_phase_of_accepts {i : Instr} (h : command I i s = .next t) (ha : s.accepts i) :
    t.phase = match i with
      | .new _ => .newop
      | .encrypt => .encPad
      | .decrypt => .decChk := by
  cases i with
  | new bs =>
    obtain ⟨-, ⟨-, key, -, rfl⟩ | ⟨hn, -⟩⟩ := commandNew_next h
    · rfl
    · obtain ⟨hv, hk⟩ := ha
      rcases hn with e | e <;> simp_all
  | encrypt =>
    obtain ⟨-, ⟨-, iv, data, -, -, rfl⟩ | ⟨hn, -⟩⟩ := commandEncrypt_next h
    · rfl
    · obtain ⟨hv, hi, hd⟩ := ha
      rcases hn with e | e | e <;> simp_all
  | decrypt =>
    obtain ⟨-, ⟨-, iv, data, -, -, rfl⟩ | ⟨hn, -⟩⟩ := commandDecrypt_next h
    · rfl
    · obtain ⟨hv, hi, hd⟩ := ha
      rcases hn with e | e | e <;> simp_all

/-- A command that is not accepted is rejected by USAGE (R138, R206). -/
theorem command_usage_of_not_accepts {i : Instr} (h : command I i s = .next t) (ha : ¬ s.accepts i) :
    s.phase = .idle ∧ t = usage I (encode i) s := by
  cases i with
  | new bs =>
    obtain ⟨hid, ⟨hv, key, hk, -⟩ | ⟨-, ht⟩⟩ := commandNew_next h
    · exact absurd ⟨hv, by simp [hk]⟩ ha
    · exact ⟨hid, ht⟩
  | encrypt =>
    obtain ⟨hid, ⟨hv, iv, data, hi, hd, -⟩ | ⟨-, ht⟩⟩ := commandEncrypt_next h
    · exact absurd ⟨hv, by simp [hi], by simp [hd]⟩ ha
    · exact ⟨hid, ht⟩
  | decrypt =>
    obtain ⟨hid, ⟨hv, iv, data, hi, hd, -⟩ | ⟨-, ht⟩⟩ := commandDecrypt_next h
    · exact absurd ⟨hv, by simp [hi], by simp [hd]⟩ ha
    · exact ⟨hid, ht⟩

/-! ### The micro-operations -/

theorem newop_keeps_inv (hi : s.Inv P) (h : newop P s = .next t) : t.Inv P := by
  obtain ⟨hc, -, -⟩ := hi
  obtain ⟨bs, key, ho, ⟨hs, rfl⟩ | ⟨-, rfl⟩⟩ := newop_next h
  · refine complete_inv ⟨by simp, fun _ => ⟨?_, rfl, key, rfl, hs⟩⟩ (by simp [ho, Op.lastop, ErrKind.code]; decide)
      ?_ ?_ ?_ ?_ ?_ ?_
    · rintro rfl
      simp [BlockCipher.supports] at hs
    all_goals simp [ho, Op.lastop]
  · refine complete_inv hc (by simp [ho, Op.lastop, ErrKind.code]; decide) ?_ ?_ ?_ ?_ ?_ ?_
    all_goals simp [ho, Op.lastop]

theorem padenc_keeps_inv (hi : s.Inv P) (hph : s.phase = .encPad) (h : padenc P s = .next t) : t.Inv P := by
  obtain ⟨hc, hp, hf⟩ := hi
  simp only [State.phaseInv, hph] at hp
  obtain ⟨hq, hcl, hv, -⟩ := hp
  obtain ⟨iv, data, ho, hb, ha, -, rfl⟩ := padenc_next h
  refine ⟨cfgInv_congr hc rfl rfl rfl rfl, ?_, hf⟩
  refine ⟨hcl, hv, hq.1, ⟨fun _ => ⟨hq.2.1, hq.2.2.1, hq.2.2.2.1⟩, by simp⟩, rfl, rfl, iv, data, _, ho, rfl, ?_, rfl⟩
  exact (Nat.div_mul_cancel (Nat.dvd_of_mod_eq_zero ha)).symm

theorem sizechk_keeps_inv (hi : s.Inv P) (hph : s.phase = .decChk) (h : sizechk I s = .next t) : t.Inv P := by
  obtain ⟨hc, hp, hf⟩ := hi
  simp only [State.phaseInv, hph] at hp
  obtain ⟨hq, hcl, hv, -⟩ := hp
  obtain ⟨iv, data, ho, hb, ⟨ha, rfl⟩ | ⟨ha, rfl⟩⟩ := sizechk_next h
  · refine complete_inv hc (by simp [ho, Op.lastop, ErrKind.code]; decide) ?_ ?_ ?_ ?_ ?_ ?_
    all_goals simp [ho, Op.lastop]
  · refine ⟨cfgInv_congr hc rfl rfl rfl rfl, ?_, hf⟩
    refine ⟨hcl, hv, hq.1, ⟨fun _ => ⟨hq.2.1, hq.2.2.1, hq.2.2.2.1⟩, by simp⟩, rfl, rfl, hq.2.2.2.2.2.2.1,
      iv, data, _, ho, ?_, rfl⟩
    exact (Nat.div_mul_cancel (Nat.dvd_of_mod_eq_zero ha)).symm

theorem encIvStep_keeps_inv (hi : s.Inv P) (hph : s.phase = .encIv) (h : encIvStep I s = .next t) : t.Inv P := by
  obtain ⟨hc, hp, hf⟩ := hi
  simp only [State.phaseInv, hph] at hp
  obtain ⟨hcl, hv, hfb, hbr, hidx, hacc, iv, data, n, ho, hw, hl, hn⟩ := hp
  obtain ⟨iv', data', ho', h⟩ := encIvStep_next h
  rw [ho] at ho'
  cases ho'
  obtain ⟨hlen, rfl⟩ | ⟨-, rfl⟩ := ivload_next h
  · refine ⟨cfgInv_congr hc rfl rfl rfl rfl, ?_, hf⟩
    exact ⟨hcl, hv, iv, data, _, [], n, 0, ho, rfl, hw, hl, hn, hidx, by omega, hacc, by simp, hlen, by simp, hbr⟩
  · exact raiseIvSize_inv hc (.inl (by rw [ho]; rfl))

theorem decIvStep_keeps_inv (hi : s.Inv P) (hph : s.phase = .decIv) (h : decIvStep I s = .next t) : t.Inv P := by
  obtain ⟨hc, hp, hf⟩ := hi
  simp only [State.phaseInv, hph] at hp
  obtain ⟨hcl, hv, hfb, hbr, hidx, hacc, hw, iv, data, n, ho, hl, hn⟩ := hp
  obtain ⟨iv', data', ho', h⟩ := decIvStep_next h
  rw [ho] at ho'
  cases ho'
  obtain ⟨hlen, rfl⟩ | ⟨-, rfl⟩ := ivload_next h
  · refine ⟨cfgInv_congr hc rfl rfl rfl rfl, ?_, hf⟩
    refine ⟨hcl, hv, iv, data, [], n, 0, ho, hw, hl, hn, hidx, by omega, hacc, by simp, hlen, ?_, hbr⟩
    show some iv = some (List.take s.bs _)
    rw [← hlen]
    simp
  · exact raiseIvSize_inv hc (.inr (by rw [ho]; rfl))

/-- The last block of the chain is the block appended last (R143). -/
theorem chain_last_block {iv acc b : Bytes} {bs i : Nat} (hi : iv.length = bs) (ha : acc.length = i * bs) :
    (iv ++ (acc ++ b)).drop ((i + 1) * bs) = b := by
  have h : (iv ++ acc).length = (i + 1) * bs := by
    rw [List.length_append, hi, ha]
    ring
  rw [← List.append_assoc, ← h, List.drop_left]

/-- Block `i + 1` of IV and ciphertext is block `i` of the ciphertext (R144). -/
theorem chain_next_block {iv data : Bytes} {bs i : Nat} (hi : iv.length = bs) :
    (iv ++ data).drop ((i + 1) * bs) = data.drop (i * bs) := by
  have h : (i + 1) * bs = iv.length + i * bs := by
    rw [hi]
    ring
  rw [h, ← List.drop_drop, List.drop_left]

theorem encBlkStep_keeps_inv (hi : s.Inv P) (hph : s.phase = .encBlk) (h : encBlkStep P s = .next t) : t.Inv P := by
  obtain ⟨hc, hp, hf⟩ := hi
  simp only [State.phaseInv, hph] at hp
  obtain ⟨hcl, hv, iv, data, w, acc, n, i, ho, rfl, hw, hwl, hn, hidx, hin, hacc, hal, hivl, hfb, hbr⟩ := hp
  obtain ⟨i', n', hi', hn', h⟩ := encBlkStep_next h
  rw [hidx] at hi'
  cases hi'
  rw [hn] at hn'
  cases hn'
  obtain ⟨hlt, h⟩ | ⟨rfl, h⟩ := h
  · obtain ⟨key, blk, fb, acc', hk, hblk, hfb', hacc', h⟩ := encblk_next h
    rw [hacc] at hacc'
    cases hacc'
    obtain ⟨info, -, rfl⟩ | ⟨ob, -, rfl⟩ := encblkOn_next h
    · refine complete_inv hc (by simp [ho, Op.lastop, ErrKind.code]; decide) ?_ ?_ ?_ ?_ ?_ ?_
      all_goals simp [ho, Op.lastop]
    · refine ⟨cfgInv_congr hc rfl rfl rfl rfl, ?_, hf⟩
      simp only [State.phaseInv, addEvent_phase, hph]
      refine ⟨hcl, hv, iv, data, _, _, n, i + 1, ho, rfl, hw, hwl, hn, rfl, by omega, rfl, ?_, hivl, ?_, by omega,
        fun _ => ⟨_, _, _, rfl, rfl, rfl, blk.property, (xorblk blk fb).property, ob.property⟩⟩
      · simp only [memAppend_length, hal]
        show i * s.bs + s.bs = (i + 1) * s.bs
        ring
      · exact congrArg some (chain_last_block hivl hal).symm
  · obtain ⟨acc', -, rfl⟩ := encfin_next h
    refine complete_inv hc (by simp [ho, Op.lastop, ErrKind.code]; decide) ?_ ?_ ?_ ?_ ?_ ?_
    all_goals simp [ho, Op.lastop]

theorem decBlkStep_keeps_inv (hi : s.Inv P) (hph : s.phase = .decBlk) (h : decBlkStep P s = .next t) : t.Inv P := by
  obtain ⟨hc, hp, hf⟩ := hi
  simp only [State.phaseInv, hph] at hp
  obtain ⟨hcl, hv, iv, data, acc, n, i, ho, hw, hdl, hn, hidx, hin, hacc, hal, hivl, hfb, hbr⟩ := hp
  obtain ⟨i', n', hi', hn', h⟩ := decBlkStep_next h
  rw [hidx] at hi'
  cases hi'
  rw [hn] at hn'
  cases hn'
  obtain ⟨hlt, h⟩ | ⟨rfl, h⟩ := h
  · obtain ⟨key, blk, fb, acc', hk, hblk, hfb', hacc', h⟩ := decblk_next h
    rw [hacc] at hacc'
    cases hacc'
    obtain ⟨info, -, rfl⟩ | ⟨d, -, rfl⟩ := decblkOn_next h
    · refine complete_inv hc (by simp [ho, Op.lastop, ErrKind.code]; decide) ?_ ?_ ?_ ?_ ?_ ?_
      all_goals simp [ho, Op.lastop]
    · refine ⟨cfgInv_congr hc rfl rfl rfl rfl, ?_, hf⟩
      simp only [State.phaseInv, addEvent_phase, hph]
      refine ⟨hcl, hv, iv, data, _, n, i + 1, ho, hw, hdl, hn, rfl, by omega, rfl, ?_, hivl, ?_, by omega,
        fun _ => ⟨_, _, _, rfl, rfl, rfl, blk.property, d.property, (xorblk d fb).property⟩⟩
      · simp only [memAppend_length, hal]
        show i * s.bs + s.bs = (i + 1) * s.bs
        ring
      · obtain ⟨data', hd', -, hblk'⟩ := memRead_eq_some.mp hblk
        simp only [State.space, ho, Option.some.injEq] at hd'
        subst hd'
        rw [hblk']
        show _ = some (List.take s.bs (List.drop ((i + 1) * s.bs) _))
        rw [chain_next_block hivl]
  · obtain ⟨acc', -, ⟨info, -, rfl⟩ | ⟨plain, -, rfl⟩⟩ := paddec_next h
    all_goals
      refine complete_inv hc (by simp [ho, Op.lastop, ErrKind.code]; decide) ?_ ?_ ?_ ?_ ?_ ?_
      all_goals simp [ho, Op.lastop]

/-- A step of the engine keeps the invariant (R148). -/
theorem engineStep_keeps_inv (hi : s.Inv P) (h : engineStep P s = .next t) : t.Inv P := by
  unfold engineStep at h
  cases hph : s.phase <;> simp only [hph] at h
  · exact next_inj h ▸ hi
  · exact newop_keeps_inv hi h
  · exact padenc_keeps_inv hi hph h
  · exact encIvStep_keeps_inv hi hph h
  · exact encBlkStep_keeps_inv hi hph h
  · exact sizechk_keeps_inv hi hph h
  · exact decIvStep_keeps_inv hi hph h
  · exact decBlkStep_keeps_inv hi hph h

/-! ### The host's moves -/

/-- In IDLE the host buffers, the replies and further faults do not matter to the invariant. -/
theorem idle_buffers_keep_inv {kb ib db : Option Bytes} {rs : List (Reply ι)} {fs : List RunFault} (hi : s.Inv P)
    (hid : s.phase = .idle) (hf : s.faulted = true → fs ≠ []) :
    ({ s with keybuf := kb, ivbuf := ib, inbuf := db, replies := rs, runFaults := fs } : State ι).Inv P := by
  obtain ⟨hc, hp, hf'⟩ := hi
  refine ⟨hc, ?_, fun he => ?_⟩
  · cases s
    subst hid
    exact hp
  · have := hf (hf' he)
    cases fs <;> simp_all [State.faulted]

theorem faulted_ne_nil : s.faulted = true → s.runFaults ≠ [] := by
  cases h : s.runFaults <;> simp [State.faulted, h]

theorem reply_keeps_inv (r : Reply ι) (hi : s.Inv P) (hid : s.phase = .idle) : (reply r s).Inv P :=
  idle_buffers_keep_inv hi hid faulted_ne_nil

/-- A host move keeps the invariant (R40). -/
theorem hostMove_keeps_inv {m : HostMove} (hi : s.Inv P) (hid : s.phase = .idle) (h : hostMove P m s = .next t) :
    t.Inv P := by
  cases m with
  | loadKey b | loadIv b | loadIn b =>
    simp only [hostMove, loadKey, loadIv, loadIn] at h
    split at h
    · exact next_inj h ▸ idle_buffers_keep_inv hi hid faulted_ne_nil
    · cases h
  | writeCmd w =>
    obtain ⟨i, -, h⟩ | ⟨why, -, rfl⟩ := writeCmd_next h
    · exact command_keeps_inv hi h
    · exact usage_keeps_inv w hi hid
  | readOut =>
    rw [← next_inj h, readOut]
    split
    · exact reply_keeps_inv _ hi hid
    · exact idle_buffers_keep_inv (s := s) hi hid (by simp)
  | rst | rstDuring => exact next_inj h ▸ resetEngine_meets_inv
  | readStatus | readErrinfo | readErridx | readCfg | readLen => exact next_inj h ▸ reply_keeps_inv _ hi hid

end Sys2Proof.Machine
end

