-- ==== Sys2Proof/Laws/Runs.lean ====
section
/-! SUPPORT. Runs of several steps (00_scope.md R11): composition, and what a run of the engine cannot touch. -/

namespace Sys2Proof.Machine

variable {ι : Type} {I : InfoRep ι} {P : Params I} {s t u : State ι}

theorem runsTo_zero : runsTo P 0 s s := rfl

/-- A run of `k + 1` steps of any machine is a step and a run of `k`. -/
theorem run_succ (M : Host.Core) (k : Nat) (a b : M.State) :
    M.run (k + 1) a = .next b ↔ ∃ c, M.step a = .next c ∧ M.run k c = .next b := by
  rw [Host.Core.run]
  cases M.step a <;> simp

theorem runsTo_succ {k : Nat} : runsTo P (k + 1) s u ↔ ∃ t, stepUnder P s = .next t ∧ runsTo P k t u :=
  run_succ (coreUnder P) k s u

theorem runsTo_cons {k : Nat} (h : stepUnder P s = .next t) (hr : runsTo P k t u) : runsTo P (k + 1) s u :=
  runsTo_succ.mpr ⟨t, h, hr⟩

theorem runsTo_one (h : stepUnder P s = .next t) : runsTo P 1 s t :=
  runsTo_cons h runsTo_zero

theorem runsTo_trans {j k : Nat} (h : runsTo P j s t) (h' : runsTo P k t u) : runsTo P (j + k) s u := by
  induction j generalizing s with
  | zero =>
    cases next_inj h
    rwa [Nat.zero_add]
  | succ j ih =>
    obtain ⟨s', hs, hr⟩ := runsTo_succ.mp h
    rw [Nat.succ_add]
    exact runsTo_cons hs (ih hr)

/-- In IDLE an operation has ended after no step. -/
theorem endsAfter_zero (h : s.phase = .idle) : endsAfter P 0 s s :=
  ⟨runsTo_zero, h, fun _ _ hj => absurd hj (Nat.not_lt_zero _)⟩

/-- One step of an operation puts its end one step later. -/
theorem endsAfter_cons {k : Nat} (hp : s.phase ≠ .idle) (h : stepUnder P s = .next t) (he : endsAfter P k t u) :
    endsAfter P (k + 1) s u := by
  refine ⟨runsTo_cons h he.1, he.2.1, fun j v hj hv => ?_⟩
  cases j with
  | zero => exact next_inj hv ▸ hp
  | succ j =>
    obtain ⟨s', hs, hr⟩ := runsTo_succ.mp hv
    rw [h] at hs
    cases next_inj hs
    exact he.2.2 j v (by omega) hr

theorem rstPending_false (h : s.rstPending = false) : ∀ k rest, s.host ≠ .rstDuring k :: rest := by
  intro k rest e
  simp [State.rstPending, e] at h

/-- The engine's step from a state with an operation in progress and no reset coming (R12). -/
theorem stepUnder_busy (hp : s.phase ≠ .idle) (hr : s.rstPending = false) : stepUnder P s = engineStep P s :=
  stepUnder_engine hp (rstPending_false hr)

end Sys2Proof.Machine
end

