-- ==== Sys2Proof/Laws/Chains.lean ====
section
/-! SUPPORT. What the block phases do as a whole (43_xorblock_sequencer.md R143 to R146): from ENC_BLK and from DEC_BLK
the engine runs the reference chain (45_properties.md R183, R184) to its end. -/

namespace Sys2Proof.Machine

variable {ι : Type} {I : InfoRep ι} {P : Params I}

/-- `s` after the operation with LASTOP code `lo` has completed and its calls `evs` stand in TRACE (R139). -/
def finished (kind : ErrKind) (info : ι) (idx : Nat) (out : Option Bytes) (lo : BitVec 2) (evs : List (Event ι))
    (s : State ι) : State ι :=
  { s with
    err := kind.code, errinfo := info, erridx := idx, outbuf := out, done := true, lastop := lo
    fb := none, blk := none, tmp := none, outb := none, idx := none, nblk := none, work := none, acc := none
    op := .none, phase := .idle, trace := s.trace ++ evs }

/-- A chain fails in the cipher only (R183). -/
theorem chainEnc_err {c : BlockCipher ι} {key padded : Bytes} {bs : Nat} {left i idx : Nat} {fb : Block bs}
    {out : Bytes} {kind : ErrKind} {info : ι} (h : chainEnc c key bs padded left i fb out = .err kind info idx) :
    kind = .cipher := by
  induction left generalizing i fb out with
  | zero => simp [chainEnc] at h
  | succ left ih =>
    simp only [chainEnc] at h
    split at h
    · cases h
      rfl
    · exact ih h

/-- A chain fails in the cipher only (R184). -/
theorem chainDec_err {c : BlockCipher ι} {key ct : Bytes} {bs : Nat} {left i idx : Nat} {fb : Block bs} {acc : Bytes}
    {kind : ErrKind} {info : ι} (h : chainDec c key bs ct left i fb acc = .err kind info idx) :
    kind = .cipher := by
  induction left generalizing i fb acc with
  | zero => simp [chainDec] at h
  | succ left ih =>
    simp only [chainDec] at h
    split at h
    · cases h
      rfl
    · exact ih h

/-- What the end of `chainEnc` leaves. -/
def encEnd (I : InfoRep ι) (r : Res Bytes ι) (evs : List (Event ι)) (s : State ι) : State ι :=
  match r with
  | .err kind info idx => finished kind info idx none 2#2 evs s
  | .ok ct => finished .ok (I.number 0) 0 (some ct) 2#2 evs s

/-- What the end of `chainDec` leaves, after PADDEC. -/
def decEnd (P : Params I) (r : Res Bytes ι) (pbs : Nat) (evs : List (Event ι)) (s : State ι) : State ι :=
  match r with
  | .err kind info idx => finished kind info idx none 3#2 evs s
  | .ok acc =>
    match P.pad.decode pbs acc with
    | .err info => finished .padding info 0 none 3#2 (evs ++ [.evPadDecode pbs acc (.err info)]) s
    | .ok plain => finished .ok (I.number 0) 0 (some plain) 3#2 (evs ++ [.evPadDecode pbs acc (.ok plain)]) s

/-- From ENC_BLK at block `i`, with `left` blocks to do, the engine runs `chainEnc` to its end (R143, R145). -/
theorem encBlk_run (left : Nat) (s : State ι) (iv data key w acc : Bytes) (n i : Nat) (fb : Block s.bs)
    (hp : s.phase = .encBlk) (hr : s.rstPending = false) (ho : s.op = .encrypt iv data) (hk : s.keystore = some key)
    (hw : s.work = some w) (hwl : w.length = n * s.bs) (hn : s.nblk = some n) (hi : s.idx = some i)
    (hin : i + left = n) (ha : s.acc = some acc) (hf : s.fb = some fb.val) :
    ∃ k, k ≤ left + 1 ∧ runsTo P k s
      (encEnd I (chainEnc P.ciph key s.bs w left i fb acc) (chainEncEvents P.ciph key s.bs w left i fb) s) := by
  induction left generalizing s acc i with
  | zero =>
    refine ⟨1, by omega, runsTo_one ?_⟩
    rw [stepUnder_busy (by simp [hp]) hr]
    obtain rfl : i = n := by omega
    simp only [engineStep, hp, encBlkStep, hi, hn, lt_irrefl, if_false, if_true, encfin, ha, complete, chainEnc,
      chainEncEvents, encEnd, finished, List.append_nil, ho, Op.lastop]
  | succ left ih =>
    have hlt : i < n := by omega
    have hm := memRead_eq_blockAt (block_inside hwl hlt)
    have hst : stepUnder P s = encblkOn P s i key acc (blockAt s.bs w i) fb := by
      rw [stepUnder_busy (by simp [hp]) hr]
      simp only [engineStep, hp, encBlkStep, hi, hn, hlt, if_true, encblk, hk, hw, hm, hf, ha, asBlock_val]
    simp only [chainEnc, chainEncEvents]
    cases he : P.ciph.enc key s.bs (xorblk (blockAt s.bs w i) fb) with
    | err info =>
      refine ⟨1, by omega, runsTo_one ?_⟩
      rw [hst]
      simp only [encblkOn, he, complete, addEvent, encEnd, finished, ho, Op.lastop, Result.map]
    | ok ob =>
      let s' : State ι := { s with
        trace := s.trace ++ [.evEnc i (xorblk (blockAt s.bs w i) fb).val (.ok ob.val)]
        blk := some (blockAt s.bs w i).val, tmp := some (xorblk (blockAt s.bs w i) fb).val, outb := some ob.val
        acc := some (acc ++ ob.val), fb := some ob.val, idx := some (i + 1) }
      have hs' : stepUnder P s = .next s' := by
        rw [hst]
        simp only [encblkOn, he, addEvent, Result.map]
        rfl
      obtain ⟨k, hk', hrun⟩ :=
        ih s' (acc ++ ob.val) (i + 1) ob hp hr ho hk hw hwl hn rfl (by omega) rfl rfl
      refine ⟨k + 1, by omega, ?_⟩
      have h := runsTo_cons hs' hrun
      convert h using 1
      show encEnd I (chainEnc P.ciph key s.bs w left (i + 1) ob (acc ++ ob.val)) _ s =
        encEnd I (chainEnc P.ciph key s.bs w left (i + 1) ob (acc ++ ob.val)) _ s'
      cases chainEnc P.ciph key s.bs w left (i + 1) ob (acc ++ ob.val) <;> simp [encEnd, finished, s', State.bs]

/-- From DEC_BLK at block `i`, with `left` blocks to do, the engine runs `chainDec` to its end and deframes the result
(R144, R146). -/
theorem decBlk_run (left : Nat) (s : State ι) (iv data key acc : Bytes) (n i : Nat) (fb : Block s.bs)
    (hp : s.phase = .decBlk) (hr : s.rstPending = false) (ho : s.op = .decrypt iv data) (hk : s.keystore = some key)
    (hdl : data.length = n * s.bs) (hn : s.nblk = some n) (hi : s.idx = some i)
    (hin : i + left = n) (ha : s.acc = some acc) (hf : s.fb = some fb.val) :
    ∃ k, k ≤ left + 1 ∧ runsTo P k s
      (decEnd P (chainDec P.ciph key s.bs data left i fb acc) s.pbs
        (chainDecEvents P.ciph key s.bs data left i) s) := by
  induction left generalizing s acc i with
  | zero =>
    refine ⟨1, by omega, runsTo_one ?_⟩
    rw [stepUnder_busy (by simp [hp]) hr]
    obtain rfl : i = n := by omega
    simp only [engineStep, hp, decBlkStep, hi, hn, lt_irrefl, if_false, if_true, paddec, ha, complete, chainDec,
      chainDecEvents, finished, decEnd, List.nil_append, ho, Op.lastop, addEvent]
    cases P.pad.decode s.pbs acc <;> rfl
  | succ left ih =>
    have hlt : i < n := by omega
    have hm := memRead_eq_blockAt (block_inside hdl hlt)
    have hw : s.space .opData = some data := by simp [State.space, ho]
    have hst : stepUnder P s = decblkOn P s i key acc (blockAt s.bs data i) fb := by
      rw [stepUnder_busy (by simp [hp]) hr]
      simp only [engineStep, hp, decBlkStep, hi, hn, hlt, if_true, decblk, hk, hw, hm, hf, ha, asBlock_val]
    simp only [chainDec, chainDecEvents]
    cases he : P.ciph.dec key s.bs (blockAt s.bs data i) with
    | err info =>
      refine ⟨1, by omega, runsTo_one ?_⟩
      rw [hst]
      simp only [decblkOn, he, complete, addEvent, decEnd, finished, ho, Op.lastop, Result.map]
    | ok d =>
      let s' : State ι := { s with
        trace := s.trace ++ [.evDec i (blockAt s.bs data i).val (.ok d.val)]
        blk := some (blockAt s.bs data i).val, tmp := some d.val, outb := some (xorblk d fb).val
        acc := some (acc ++ (xorblk d fb).val), fb := some (blockAt s.bs data i).val, idx := some (i + 1) }
      have hs' : stepUnder P s = .next s' := by
        rw [hst]
        simp only [decblkOn, he, addEvent, Result.map]
        rfl
      obtain ⟨k, hk', hrun⟩ :=
        ih s' (acc ++ (xorblk d fb).val) (i + 1) (blockAt s.bs data i) hp hr ho hk hdl hn rfl (by omega) rfl rfl
      refine ⟨k + 1, by omega, ?_⟩
      have h := runsTo_cons hs' hrun
      convert h using 1
      show _ = decEnd P (chainDec P.ciph key s.bs data left (i + 1) (blockAt s.bs data i) (acc ++ (xorblk d fb).val))
        s.pbs (chainDecEvents P.ciph key s.bs data left (i + 1)) s'
      simp only [decEnd]
      cases chainDec P.ciph key s.bs data left (i + 1) (blockAt s.bs data i) (acc ++ (xorblk d fb).val) with
      | err => simp [finished, s']
      | ok acc =>
        cases hd : P.pad.decode s.pbs acc <;> simp [finished, s', hd]

end Sys2Proof.Machine
end

