-- ==== Sys2Proof/Laws/Decode.lean ====
section
/-! SUPPORT. The fields of a command word and the decoder in terms of the word's number (30_encoding.md R71, R82). -/

namespace Sys2Proof

theorem opcodeOf_toNat (w : Word) : (opcodeOf w).toNat = w.toNat % 256 := by
  simp [opcodeOf, BitVec.extractLsb'_toNat]

theorem bsargOf_toNat (w : Word) : (bsargOf w).toNat = w.toNat / 256 % 256 := by
  simp [bsargOf, BitVec.extractLsb'_toNat, Nat.shiftRight_eq_div_pow]

theorem zeroOf_toNat (w : Word) : (zeroOf w).toNat = w.toNat / 65536 := by
  have := w.isLt
  simp [zeroOf, BitVec.extractLsb'_toNat, Nat.shiftRight_eq_div_pow]
  omega

theorem opcodeOf_eq_iff (w : Word) {k : Nat} (hk : k < 256) : opcodeOf w = BitVec.ofNat 8 k ↔ w.toNat % 256 = k := by
  rw [← opcodeOf_toNat, ← BitVec.toNat_inj]
  simp [Nat.mod_eq_of_lt hk]

theorem bsargOf_eq_zero_iff (w : Word) : bsargOf w = 0#8 ↔ w.toNat / 256 % 256 = 0 := by
  rw [← bsargOf_toNat, ← BitVec.toNat_inj]
  rfl

theorem zeroOf_eq_zero_iff (w : Word) : zeroOf w = 0#16 ↔ w.toNat / 65536 = 0 := by
  rw [← zeroOf_toNat, ← BitVec.toNat_inj]
  rfl

/-- The decoder on the number of the word. -/
theorem decode_eq (w : Word) : decode w =
    if w.toNat / 65536 ≠ 0 then .illegal .reservedBits
    else if w.toNat % 256 = 1 then .legal (.new (w.toNat / 256 % 256))
    else if w.toNat % 256 = 2 then (if w.toNat / 256 % 256 = 0 then .legal .encrypt else .illegal .bsarg)
    else if w.toNat % 256 = 3 then (if w.toNat / 256 % 256 = 0 then .legal .decrypt else .illegal .bsarg)
    else .illegal .opcode := by
  unfold decode
  simp only [ne_eq, zeroOf_eq_zero_iff, opcodeOf_eq_iff w (by omega : 1 < 256), opcodeOf_eq_iff w (by omega : 2 < 256),
    opcodeOf_eq_iff w (by omega : 3 < 256), bsargOf_eq_zero_iff, bsargOf_toNat]

/-- The word of NEW as a number: opcode 1 and the block size above it. -/
theorem encode_new_toNat (bs : Nat) : (encode (.new bs)).toNat = 256 * (bs % 256) + 1 := by
  simp only [encode, BitVec.toNat_append, BitVec.toNat_ofNat]
  rw [← Nat.shiftLeft_add_eq_or_of_lt (by omega : 1 % 2 ^ 8 < 2 ^ 8)]
  have h : bs % 2 ^ 8 < 2 ^ 8 := Nat.mod_lt _ (by norm_num)
  rw [← Nat.shiftLeft_add_eq_or_of_lt h]
  simp [Nat.shiftLeft_eq]
  omega

end Sys2Proof
end

