-- ==== Sys2Proof/Laws/Memory.lean ====
section
/-! SUPPORT. Access to the byte-addressed spaces (20_memory.md R50 to R55, R59): what a written and an appended sequence
reads as, and that every operation on the spaces keeps them within the capacity. -/

namespace Sys2Proof.Machine

variable {ι : Type} {I : InfoRep ι} {P : Params I} {s t : State ι}

theorem fits_mono {m n : Nat} (h : m ≤ n) (hn : P.fits n = true) : P.fits m = true := by
  unfold Params.fits at *
  split at hn
  · rfl
  · simp only [decide_eq_true_eq] at *
    omega

theorem fits_zero : P.fits 0 = true := by
  unfold Params.fits
  split <;> simp

theorem wf_iff : Memory.wf P s = true ↔ ∀ sp, P.fits (lenOf (s.space sp)) = true := by
  constructor
  · intro h sp
    refine List.all_eq_true.mp h sp ?_
    cases sp <;> simp
  · exact fun h => List.all_eq_true.mpr fun sp _ => h sp

/-- After reset every space is within any capacity (R42). -/
theorem reset_wf : Memory.wf P (State.resetOf I) = true := by
  refine wf_iff.mpr fun sp => ?_
  cases sp <;> exact fits_zero

/-- Reset leaves every space within any capacity (R230). -/
theorem resetEngine_wf : Memory.wf P (resetEngine I s) = true := by
  refine wf_iff.mpr fun sp => ?_
  cases sp <;> exact fits_zero

/-- A LOAD that fits keeps every space within the capacity (R40, R59). -/
theorem load_wf {b : Bytes} (hw : Memory.wf P s = true) (hb : P.fits b.length = true) :
    Memory.wf P { s with keybuf := some b } = true ∧ Memory.wf P { s with ivbuf := some b } = true ∧
      Memory.wf P { s with inbuf := some b } = true := by
  have h := wf_iff.mp hw
  refine ⟨wf_iff.mpr fun sp => ?_, wf_iff.mpr fun sp => ?_, wf_iff.mpr fun sp => ?_⟩ <;>
    cases sp <;> first
      | exact hb | exact h .keybuf | exact h .ivbuf | exact h .inbuf | exact h .work | exact h .acc
      | exact h .outbuf | exact h .opKey | exact h .opIv | exact h .opData

/-- A rejected command touches no space (R138 USAGE). -/
@[simp] theorem usage_space (w : Word) (sp : Space) : (usage I w s).space sp = s.space sp := by
  cases sp <;> rfl

/-- COMPLETE keeps every space within the capacity when its result fits (R139). -/
theorem complete_wf {k : ErrKind} {info : ι} {i : Nat} {out : Option Bytes} (hw : Memory.wf P s = true)
    (ho : P.fits (lenOf out) = true) : Memory.wf P (complete k info i out s) = true := by
  have h := wf_iff.mp hw
  refine wf_iff.mpr fun sp => ?_
  cases sp <;> first | exact ho | exact h .keybuf | exact h .ivbuf | exact h .inbuf | exact fits_zero

/-- A command moves its operands between spaces, and keeps all of them within the capacity (R64, R138). -/
theorem command_wf {i : Instr} (hw : Memory.wf P s = true) (h : command I i s = .next t) : Memory.wf P t = true := by
  have hs := wf_iff.mp hw
  have hu : ∀ w, Memory.wf P (usage I w s) = true := fun w => wf_iff.mpr fun sp => by rw [usage_space]; exact hs sp
  cases i with
  | new bs =>
    obtain ⟨-, ⟨-, key, hk, rfl⟩ | ⟨-, rfl⟩⟩ := commandNew_next h
    · have hkey : P.fits key.length = true := by simpa [State.space, hk, lenOf] using hs .keybuf
      refine wf_iff.mpr fun sp => ?_
      cases sp <;> first
        | exact hkey | exact hs .ivbuf | exact hs .inbuf | exact hs .work | exact hs .acc | exact fits_zero
    · exact hu _
  | encrypt =>
    obtain ⟨-, ⟨-, iv, data, hi, hd, rfl⟩ | ⟨-, rfl⟩⟩ := commandEncrypt_next h
    · have h1 : P.fits iv.length = true := by simpa [State.space, hi, lenOf] using hs .ivbuf
      have h2 : P.fits data.length = true := by simpa [State.space, hd, lenOf] using hs .inbuf
      refine wf_iff.mpr fun sp => ?_
      cases sp <;> first
        | exact h1 | exact h2 | exact hs .keybuf | exact hs .work | exact hs .acc | exact fits_zero
    · exact hu _
  | decrypt =>
    obtain ⟨-, ⟨-, iv, data, hi, hd, rfl⟩ | ⟨-, rfl⟩⟩ := commandDecrypt_next h
    · have h1 : P.fits iv.length = true := by simpa [State.space, hi, lenOf] using hs .ivbuf
      have h2 : P.fits data.length = true := by simpa [State.space, hd, lenOf] using hs .inbuf
      refine wf_iff.mpr fun sp => ?_
      cases sp <;> first
        | exact h1 | exact h2 | exact hs .keybuf | exact hs .work | exact hs .acc | exact fits_zero
    · exact hu _


/-- A write keeps the length of the space, reads back as what was written, and leaves every other byte (R17). -/
theorem memWrite_spec {b b' : Bytes} {a n : Nat} {v : Block n} (h : memWrite (some b) a v = some b') :
    b'.length = b.length ∧ memRead (some b') a n = some v ∧
      ∀ k, k < a ∨ a + n ≤ k → b'[k]? = b[k]? := by
  simp only [memWrite] at h
  split at h
  · rename_i hle
    have hv : List.length v.val = n := v.property
    have ha : (b.take a).length = a := by rw [List.length_take]; omega
    cases h
    have hlen : (b.take a ++ v.val ++ b.drop (a + n)).length = b.length := by
      simp only [List.length_append, List.length_drop, hv, ha]
      omega
    refine ⟨hlen, memRead_eq_some.mpr ⟨_, rfl, by rw [hlen]; exact hle, ?_⟩, ?_⟩
    · rw [List.append_assoc, List.drop_left' ha, List.take_left' hv]
    · intro k hk
      rcases hk with hk | hk
      · rw [List.append_assoc, List.getElem?_append_left (by omega), List.getElem?_take_of_lt hk]
      · rw [List.getElem?_append_right (by simp only [List.length_append, ha, hv]; omega), List.getElem?_drop]
        congr 1
        simp only [List.length_append, ha, hv]
        omega
  · cases h

/-- An append reads back as what was appended, and leaves every earlier byte (R17, R54). -/
theorem memAppend_spec (b : Bytes) {n : Nat} (v : Block n) :
    memRead (some (memAppend b v)) b.length n = some v ∧ ∀ k, k < b.length → (memAppend b v)[k]? = b[k]? := by
  refine ⟨memRead_eq_some.mpr ⟨_, rfl, by simp, ?_⟩, fun k hk => List.getElem?_append_left hk⟩
  rw [memAppend, List.drop_left, List.take_of_length_le (by rw [v.property])]

end Sys2Proof.Machine
end

