-- ==== Sys2Proof/Laws/Payloads.lean ====
section
/-! SUPPORT. The mapping of payloads (Safety.lean, `State.mapInfo`): it touches ERRINFO, TRACE and the replies only, and
the shared operations commute with it (00_scope.md R9). -/

namespace Sys2Proof.Machine

variable {ι κ : Type} {I : InfoRep ι} (f : ι → κ) (s : State ι)

@[simp] theorem mapInfo_cfgValid : (s.mapInfo f).cfgValid = s.cfgValid := rfl
@[simp] theorem mapInfo_cfgBs : (s.mapInfo f).cfgBs = s.cfgBs := rfl
@[simp] theorem mapInfo_cfgPbs : (s.mapInfo f).cfgPbs = s.cfgPbs := rfl
@[simp] theorem mapInfo_keystore : (s.mapInfo f).keystore = s.keystore := rfl
@[simp] theorem mapInfo_phase : (s.mapInfo f).phase = s.phase := rfl
@[simp] theorem mapInfo_op : (s.mapInfo f).op = s.op := rfl
@[simp] theorem mapInfo_fb : (s.mapInfo f).fb = s.fb := rfl
@[simp] theorem mapInfo_blk : (s.mapInfo f).blk = s.blk := rfl
@[simp] theorem mapInfo_tmp : (s.mapInfo f).tmp = s.tmp := rfl
@[simp] theorem mapInfo_outb : (s.mapInfo f).outb = s.outb := rfl
@[simp] theorem mapInfo_idx : (s.mapInfo f).idx = s.idx := rfl
@[simp] theorem mapInfo_nblk : (s.mapInfo f).nblk = s.nblk := rfl
@[simp] theorem mapInfo_work : (s.mapInfo f).work = s.work := rfl
@[simp] theorem mapInfo_acc : (s.mapInfo f).acc = s.acc := rfl
@[simp] theorem mapInfo_err : (s.mapInfo f).err = s.err := rfl
@[simp] theorem mapInfo_done : (s.mapInfo f).done = s.done := rfl
@[simp] theorem mapInfo_lastop : (s.mapInfo f).lastop = s.lastop := rfl
@[simp] theorem mapInfo_erridx : (s.mapInfo f).erridx = s.erridx := rfl
@[simp] theorem mapInfo_keybuf : (s.mapInfo f).keybuf = s.keybuf := rfl
@[simp] theorem mapInfo_ivbuf : (s.mapInfo f).ivbuf = s.ivbuf := rfl
@[simp] theorem mapInfo_inbuf : (s.mapInfo f).inbuf = s.inbuf := rfl
@[simp] theorem mapInfo_outbuf : (s.mapInfo f).outbuf = s.outbuf := rfl
@[simp] theorem mapInfo_host : (s.mapInfo f).host = s.host := rfl
@[simp] theorem mapInfo_runFaults : (s.mapInfo f).runFaults = s.runFaults := rfl
@[simp] theorem mapInfo_bs : (s.mapInfo f).bs = s.bs := rfl
@[simp] theorem mapInfo_pbs : (s.mapInfo f).pbs = s.pbs := rfl
@[simp] theorem mapInfo_statusWord : (s.mapInfo f).statusWord = s.statusWord := rfl
@[simp] theorem mapInfo_cfgWord : (s.mapInfo f).cfgWord = s.cfgWord := rfl
@[simp] theorem mapInfo_errinfo : (s.mapInfo f).errinfo = f s.errinfo := rfl
@[simp] theorem mapInfo_trace : (s.mapInfo f).trace = s.trace.map (·.mapInfo f) := rfl
@[simp] theorem mapInfo_replies : (s.mapInfo f).replies = s.replies.map (·.mapInfo f) := rfl
@[simp] theorem mapInfo_space (sp : Space) : (s.mapInfo f).space sp = s.space sp := by cases sp <;> rfl
@[simp] theorem mapInfo_len (which : LenSel) : (s.mapInfo f).len which = s.len which := by cases which <;> rfl
@[simp] theorem mapInfo_fits (P : Params I) (n : Nat) : (P.mapInfo f).fits n = P.fits n := rfl
@[simp] theorem mapInfo_supports (P : Params I) (kl bs : Nat) :
    (P.mapInfo f).ciph.supports kl bs = P.ciph.supports kl bs := rfl

theorem addEvent_mapInfo (ev : Event ι) : (addEvent ev s).mapInfo f = addEvent (ev.mapInfo f) (s.mapInfo f) := by
  simp [addEvent, State.mapInfo]

theorem reply_mapInfo (r : Reply ι) : (reply r s).mapInfo f = reply (r.mapInfo f) (s.mapInfo f) := by
  simp [reply, State.mapInfo]

theorem complete_mapInfo (k : ErrKind) (info : ι) (i : Nat) (out : Option Bytes) :
    (complete k info i out s).mapInfo f = complete k (f info) i out (s.mapInfo f) := rfl

theorem usage_mapInfo (w : Word) : (usage I w s).mapInfo f = usage (I.mapInfo f) w (s.mapInfo f) := rfl

theorem accept_mapInfo (o : Op) (ph : Phase) : (accept I o ph s).mapInfo f = accept (I.mapInfo f) o ph (s.mapInfo f) :=
  rfl

theorem resetEngine_mapInfo : (resetEngine I s).mapInfo f = resetEngine (I.mapInfo f) (s.mapInfo f) := rfl

end Sys2Proof.Machine
end

