-- ==== Sys2Proof/Laws/PerInstr.lean ====
section
/-! SUPPORT. Statements made once per command: the encoded word of a command stands in the command's own row of the
opcode map and in no other (30_encoding.md R73). -/

namespace Sys2Proof.Laws

/-- The word of `i` matches the row of `i`, and no other row of the opcode map. -/
def EncodeInRow.Statement (i : Instr) : Prop :=
  ∀ r ∈ opcodeRows, r.matchesWord (encode i) = true ↔ r = rowOf i

theorem new_word_masked (bs : Nat) : encode (.new bs) &&& 0xFFFF00FF#32 = 0x00000001#32 := by
  have h : ∀ b : BitVec 8, (0#16 ++ b ++ 0x01#8 : BitVec 32) &&& 0xFFFF00FF#32 = 0x00000001#32 := by decide
  exact h _

theorem new_word_ne (bs : Nat) : encode (.new bs) ≠ 0x00000002#32 ∧ encode (.new bs) ≠ 0x00000003#32 := by
  have h : ∀ b : BitVec 8, (0#16 ++ b ++ 0x01#8 : BitVec 32) ≠ 0x00000002#32 ∧
      (0#16 ++ b ++ 0x01#8 : BitVec 32) ≠ 0x00000003#32 := by decide
  exact h _

theorem and_all (w : Word) : w &&& 0xFFFFFFFF#32 = w := by
  rw [show (0xFFFFFFFF#32 : BitVec 32) = BitVec.allOnes 32 by decide, BitVec.and_allOnes]

theorem EncodeInRow.new (bs : Nat) : EncodeInRow.Statement (.new bs) := by
  intro r hr
  obtain ⟨h2, h3⟩ := new_word_ne bs
  simp only [opcodeRows, List.mem_cons, List.not_mem_nil, or_false] at hr
  rcases hr with rfl | rfl | rfl
  · simp [Row.matchesWord, rowNew, rowOf, new_word_masked]
  · simp [Row.matchesWord, rowEncrypt, rowNew, rowOf, and_all, h2]
  · simp [Row.matchesWord, rowDecrypt, rowNew, rowOf, and_all, h3]

theorem EncodeInRow.encrypt : EncodeInRow.Statement .encrypt := by
  unfold EncodeInRow.Statement
  decide

theorem EncodeInRow.decrypt : EncodeInRow.Statement .decrypt := by
  unfold EncodeInRow.Statement
  decide

end Sys2Proof.Laws
end

