-- ==== Sys2Proof/Tests/Slice0.lean ====
section
/-! SUPPORT. Tests of the model, with results from spec/95_test_vectors.md (V numbers), and a witness for the hypotheses
of every statement. The block ciphers here are that file's test doubles; they are no part of CBCE. -/

namespace Sys2Proof.Tests

open Sys2Proof.Machine

/-! ### Fixtures (95_test_vectors.md section 2) -/

def toyEncBytes (key x : Bytes) : Bytes := List.zipWith (· + ·) (x.drop 1 ++ x.take 1) key

def toyDecBytes (key y : Bytes) : Bytes :=
  let z := List.zipWith (· - ·) y key
  z.drop (z.length - 1) ++ z.take (z.length - 1)

def asResult (n : Nat) (b : Bytes) : Result (Block n) :=
  match asBlock n b with
  | some b => .ok b
  | none => .err 0#32

/-- TOY: rotate left by one byte, then add the key. -/
def toyCipher : BlockCipher where
  supported kl bs := (bs == 4 || bs == 8 || bs == 16) && kl == bs
  cfgErr kl bs := BitVec.ofNat 32 (0xC0000000 + kl * 256 + bs)
  enc key n x := asResult n (toyEncBytes key x.val)
  dec key n y := asResult n (toyDecBytes key y.val)

/-- TOYF: TOY with failures on blocks that start with `ff`. -/
def toyfCipher : BlockCipher :=
  { toyCipher with
    enc := fun key n x => if x.val.head? = some 0xFF#8 then .err 0xE0E0E0E0#32 else toyCipher.enc key n x
    dec := fun key n y => if y.val.head? = some 0xFF#8 then .err 0xD0D0D0D0#32 else toyCipher.dec key n y }

def toy : Params Config.info := ⟨toyCipher, zeroPad Config.info, none, 32⟩
def toyf : Params Config.info := { toy with ciph := toyfCipher }
/-- TOY with buffers of 8 bytes. -/
def small : Params Config.info := { toy with bufCap := some 8 }
/-- TOY with a framer that appends one byte: it is not PadAligned. -/
def unaligned : Params Config.info := { toy with pad := ⟨fun _ d => d ++ [0#8], fun _ d => .ok d⟩ }

def key : Bytes := [0x01#8, 0x02#8, 0x03#8, 0x04#8]
def iv : Bytes := [0x10#8, 0x20#8, 0x30#8, 0x40#8]
def pt : Bytes := [0x41#8, 0x42#8, 0x43#8, 0x44#8, 0x45#8]
def padded : Bytes := [0x41#8, 0x42#8, 0x43#8, 0x44#8, 0x45#8, 0x00#8, 0x00#8, 0x00#8]
def ct : Bytes := [0x63#8, 0x75#8, 0x07#8, 0x55#8, 0x76#8, 0x09#8, 0x58#8, 0x2A#8]
def ivBlock : Block 4 := ⟨iv, rfl⟩

/-- The engine after V01, with an IV and data loaded. -/
def built : State :=
  { State.reset with
    cfgValid := true, cfgBs := 4#8, cfgPbs := 4#8, keystore := some key, done := true, lastop := 1#2
    trace := [.evNew 4 4 (.ok ())] }
def loaded (v d : Bytes) : State := { built with ivbuf := some v, inbuf := some d }
def keyed (k : Bytes) : State := { State.reset with keybuf := some k }
def withHost (s : State) (l : List HostMove) : State := { s with host := l }
/-- `loaded iv pt` with another KEYBUF and another host program. -/
def otherLoaded : State := { loaded iv pt with keybuf := some ct, host := [.readStatus] }

/-- The state of an outcome, or `s` where there is none. -/
def stateOf (o : Outcome) (s : State) : State :=
  match o with
  | .next t => t
  | _ => s

/-- The state after command `i` and `k` steps of the engine. -/
def engine (P : Params Config.info) : Nat → State → State
  | 0, s => s
  | k + 1, s => engine P k (stateOf (engineStep P s) s)
def issue (i : Instr) (s : State) : State := stateOf (exec i s) s

/-- What is looked at after a step. -/
def look {α : Type} (o : Outcome) (f : State → α) : Option α :=
  match o with
  | .next t => some (f t)
  | _ => none

/-! ### WellFormed and Decode -/

theorem test_wf_refuses_wide_block_size : (Instr.new 256).wf = false := by decide
theorem test_wf_takes_255 : (Instr.new 255).wf = true := by decide

/-- `NEW 4`: ZERO, BSARG, OPCODE written out from bit 31 down (R71, R73). -/
theorem test_decode_new : decode 0b00000000000000000000010000000001#32 = .legal (.new 4) := by decide
theorem test_decode_new_255 : decode 0b00000000000000001111111100000001#32 = .legal (.new 255) := by decide
theorem test_decode_encrypt : decode 0b00000000000000000000000000000010#32 = .legal .encrypt := by decide
theorem test_decode_decrypt : decode 0b00000000000000000000000000000011#32 = .legal .decrypt := by decide
/-- V78, V7A, V76. -/
theorem test_decode_bsarg : decode 0x00000102#32 = .illegal .bsarg := by decide
theorem test_decode_bit16 : decode 0x00010001#32 = .illegal .reservedBits := by decide
theorem test_decode_zero : decode 0x00000000#32 = .illegal .opcode := by decide
theorem test_table_word : decodeTableWord 32 0x1001 = some (.new 16) := by decide

/-! ### One step each -/

/-- V01 and V02: NEWOP. -/
theorem test_newop :
    look (engineStep toy (issue (.new 4) (keyed key))) (fun t => (t.statusWord, t.cfgWord, t.keystore, t.keybuf)) =
      some (0x50#32, 0x00040401#32, some key, none) := by decide
theorem test_newop_error :
    look (engineStep toy (issue (.new 4) (keyed [0x01#8, 0x02#8, 0x03#8])))
      (fun t => (t.statusWord, t.errinfo, t.keystore, t.keybuf)) =
      some (0x51#32, 0xC0000304#32, none, none) := by decide
/-- V06: a second NEW. -/
theorem test_second_new :
    look (exec (.new 4) { built with keybuf := some key })
      (fun t => (t.statusWord, t.errinfo, t.keybuf, t.faulted)) =
      some (0x1F#32, 0x00000401#32, some key, true) := by decide
/-- V10: PADENC, the first ENCBLK, ENCFIN. -/
theorem test_padenc :
    look (engineStep toy (issue .encrypt (loaded iv pt))) (fun t => (t.work, t.nblk, t.idx, t.phase)) =
      some (some padded, some 2, some 0, .encIv) := by decide
theorem test_encblk :
    look (engineStep toy (engine toy 2 (issue .encrypt (loaded iv pt)))) (fun t => (t.tmp, t.outb, t.fb, t.idx)) =
      some (some [0x51#8, 0x62#8, 0x73#8, 0x04#8], some (ct.take 4), some (ct.take 4), some 1) := by decide
theorem test_encfin :
    look (engineStep toy (engine toy 4 (issue .encrypt (loaded iv pt)))) (fun t => (t.outbuf, t.statusWord)) =
      some (some ct, 0x90#32) := by decide
/-- V17: IVLOAD with a short IV. -/
theorem test_ivload_error :
    look (engineStep toy (engine toy 1 (issue .encrypt (loaded (iv.take 3) pt))))
      (fun t => (t.statusWord, t.errinfo, t.outbuf, t.faulted)) = some (0x95#32, 3#32, none, true) := by decide
/-- V18: the cipher fails on block 1. -/
theorem test_encblk_error :
    look (engineStep toyf (engine toyf 3 (issue .encrypt
        (loaded iv [0x41#8, 0x42#8, 0x43#8, 0x44#8, 0x9C#8, 0x75#8, 0x07#8, 0x55#8, 0x55#8]))))
      (fun t => (t.statusWord, t.errinfo, t.erridx, t.outbuf)) = some (0x93#32, 0xE0E0E0E0#32, 1, none) := by decide
/-- V22: SIZECHK. -/
theorem test_sizechk_error :
    look (engineStep toy (issue .decrypt (loaded iv (ct.take 7))))
      (fun t => (t.statusWord, t.errinfo, t.outbuf)) = some (0xD2#32, 3#32, none) := by decide
/-- V20: the first DECBLK takes the ciphertext block into FB; PADDEC strips three zeros. -/
theorem test_decblk :
    look (engineStep toy (engine toy 2 (issue .decrypt (loaded iv ct)))) (fun t => (t.tmp, t.outb, t.fb)) =
      some (some [0x51#8, 0x62#8, 0x73#8, 0x04#8], some (pt.take 4), some (ct.take 4)) := by decide
theorem test_paddec :
    look (engineStep toy (engine toy 4 (issue .decrypt (loaded iv ct)))) (fun t => (t.outbuf, t.statusWord)) =
      some (some pt, 0xD0#32) := by decide
/-- V25: PaddingError. -/
theorem test_paddec_error :
    look (engineStep toy (engine toy 3 (issue .decrypt (loaded iv (ct.take 4)))))
      (fun t => (t.outbuf, t.statusWord, t.errinfo)) = some (none, 0xD4#32, 0#32) := by decide

/-! ### A payload type other than the default (R9) -/

/-- Payloads that keep apart what they record: a number, a command word, an unsupported pair. -/
inductive Detail where
  | number (n : Nat)
  | word (w : Word)
  | pair (keylen bs : Nat)
  deriving DecidableEq, Repr

def detail : InfoRep Detail := ⟨.number, .word⟩

/-- TOY's sizes with such payloads; the cipher copies blocks. -/
def toyDetail : Params detail :=
  ⟨⟨toyCipher.supported, .pair, fun _ _ x => .ok x, fun _ _ y => .ok y⟩, zeroPad detail, none, 32⟩

/-- How TOY holds them in 32 bits. -/
def Detail.toWord : Detail → Word
  | .number n => BitVec.ofNat 32 n
  | .word w => w
  | .pair keylen bs => BitVec.ofNat 32 (0xC0000000 + keylen * 256 + bs)

/-- V02's construction, its command accepted. -/
def constructing : State Detail :=
  { State.resetOf detail with op := .new 4#8 [0x01#8, 0x02#8, 0x03#8], phase := .newop }

/-- V02: the cipher's payload reaches ERRINFO and TRACE unchanged. -/
theorem test_other_info :
    (match engineStep toyDetail constructing with
      | .next t => some (t.errinfo, t.trace)
      | _ => none) = some (.pair 3 4, [.evNew 3 4 (.err (.pair 3 4))]) := by decide

/-- V02 again, its payload copied as the word the vector gives. -/
theorem test_other_info_copied :
    (match stepUnder (toyDetail.mapInfo Detail.toWord) (constructing.mapInfo Detail.toWord) with
      | .next t => some t.errinfo
      | _ => none) = some 0xC0000304#32 := by decide

/-! ### The fixtures meet the invariant -/

theorem keyed_inv (P : Params Config.info) (k : Bytes) : (keyed k).Inv P := by
  refine ⟨⟨fun _ => ⟨rfl, rfl, rfl⟩, by simp [keyed, State.reset, State.resetOf]⟩, ?_,
    by simp [State.faultInv, keyed, State.reset, State.resetOf]⟩
  refine ⟨⟨rfl, rfl, rfl, rfl, rfl, rfl, rfl, rfl⟩, rfl, ?_, ?_, ?_, ?_, ?_⟩
  · show State.reset.statusWord ∈ statusValues
    decide
  all_goals simp [keyed, State.reset, State.resetOf]

theorem built_inv (P : Params Config.info) (h : P.ciph.supports 4 4 = true) : built.Inv P := by
  refine ⟨⟨fun h => absurd h (by decide), fun _ => ⟨by decide, rfl, key, rfl, h⟩⟩, ?_, fun h => absurd h (by decide)⟩
  refine ⟨⟨rfl, rfl, rfl, rfl, rfl, rfl, rfl, rfl⟩, rfl, by decide, ?_, ?_, ?_, ?_⟩ <;>
    simp [built, State.reset, State.resetOf]

theorem loaded_inv (P : Params Config.info) (h : P.ciph.supports 4 4 = true) (v d : Bytes) : (loaded v d).Inv P :=
  idle_buffers_keep_inv (built_inv P h) rfl faulted_ne_nil

theorem loaded_ready (P : Params Config.info) (h : P.ciph.supports 4 4 = true) (v d : Bytes) :
    (loaded v d).ready P key :=
  ⟨loaded_inv P h v d, rfl, rfl, rfl, rfl⟩

theorem issue_inv {P : Params Config.info} {s : State} (i : Instr) (h : s.Inv P) : (issue i s).Inv P := by
  cases he : exec i s <;> simp only [issue, stateOf, he]
  · exact exec_keeps_inv h he
  all_goals exact h

theorem engine_inv {P : Params Config.info} {s : State} (k : Nat) (h : s.Inv P) : (engine P k s).Inv P := by
  induction k generalizing s with
  | zero => exact h
  | succ k ih =>
    refine ih ?_
    cases he : engineStep P s <;> simp only [stateOf]
    · exact engineStep_keeps_inv h he
    all_goals exact h

/-- ENCRYPT of `d` under `v`, after `k` engine steps. -/
def enc (P : Params Config.info) (k : Nat) (v d : Bytes) : State := engine P k (issue .encrypt (loaded v d))
/-- DECRYPT of `d` under `v`, after `k` engine steps. -/
def dec (P : Params Config.info) (k : Nat) (v d : Bytes) : State := engine P k (issue .decrypt (loaded v d))

theorem enc_inv (P : Params Config.info) (h : P.ciph.supports 4 4 = true) (k : Nat) (v d : Bytes) :
    (enc P k v d).Inv P :=
  engine_inv k (issue_inv _ (loaded_inv P h v d))
theorem dec_inv (P : Params Config.info) (h : P.ciph.supports 4 4 = true) (k : Nat) (v d : Bytes) :
    (dec P k v d).Inv P :=
  engine_inv k (issue_inv _ (loaded_inv P h v d))

theorem toy_supports : toy.ciph.supports 4 4 = true := by decide
theorem toyf_supports : toyf.ciph.supports 4 4 = true := by decide
theorem small_supports : small.ciph.supports 4 4 = true := by decide

theorem zeroPad_aligned : PadAligned (zeroPad Config.info) := by
  intro bs d hb
  have hm := Nat.mod_lt d.length hb
  have hl : ((zeroPad Config.info).encode bs d).length = bs * (d.length / bs) + bs := by
    have hd := Nat.div_add_mod d.length bs
    simp only [zeroPad, zeroPadEncode, List.length_append, List.length_replicate]
    omega
  rw [hl, Nat.mul_add_mod, Nat.mod_self]

theorem block4 (x : Block 4) : ∃ a b c d : Byte, x.val = [a, b, c, d] := by
  obtain ⟨l, hl⟩ := x
  match l, hl with
  | [a, b, c, d], _ => exact ⟨a, b, c, d, rfl⟩

theorem toy_inverse : CiphInverse toyCipher key 4 := by
  intro x
  obtain ⟨a, b, c, d, hx⟩ := block4 x
  refine ⟨⟨[b + 1, c + 2, d + 3, a + 4], rfl⟩, ?_, ?_⟩
  · show asResult 4 (toyEncBytes key x.val) = _
    rw [hx]
    rfl
  · show asResult 4 [a + 4 - 4, b + 1 - 1, c + 2 - 2, d + 3 - 3] = _
    simp only [BitVec.add_sub_cancel]
    show Result.ok (⟨[a, b, c, d], rfl⟩ : Block 4) = _
    rw [Result.ok.injEq]
    exact Subtype.ext hx.symm

theorem toy_total (x : Block 4) : ∃ y, toyCipher.enc key 4 x = .ok y := by
  obtain ⟨y, h, -⟩ := toy_inverse x
  exact ⟨y, h⟩

theorem toy_injective (x x' : Block 4) (h : toyCipher.enc key 4 x = toyCipher.enc key 4 x') : x = x' := by
  obtain ⟨y, h1, h2⟩ := toy_inverse x
  obtain ⟨y', h1', h2'⟩ := toy_inverse x'
  rw [h1, h1', Result.ok.injEq] at h
  rw [h, h2', Result.ok.injEq] at h2
  exact h2.symm

theorem toy_dec_injective (y y' : Block 4) (h : toyCipher.dec key 4 y = toyCipher.dec key 4 y') : y = y' := by
  obtain ⟨a, b, c, d, hy⟩ := block4 y
  obtain ⟨a', b', c', d', hy'⟩ := block4 y'
  have e : ∀ (z : Block 4) (p q r s : Byte), z.val = [p, q, r, s] →
      toyCipher.dec key 4 z = .ok ⟨[s - 4, p - 1, q - 2, r - 3], rfl⟩ := by
    intro z p q r s hz
    show asResult 4 (toyDecBytes key z.val) = _
    rw [hz]
    rfl
  rw [e y _ _ _ _ hy, e y' _ _ _ _ hy'] at h
  simp only [Result.ok.injEq, Subtype.mk.injEq, List.cons.injEq, and_true, BitVec.sub_left_inj] at h
  refine Subtype.ext ?_
  rw [hy, hy', h.1, h.2.1, h.2.2.1, h.2.2.2]

/-! ### Witnesses: each theorem meets the hypotheses of the statement it is named after -/

theorem witness_DecodeOfEncode : (Instr.new 0).wf = true ∧ (Instr.new 255).wf = true ∧ Instr.encrypt.wf = true := by
  decide

theorem witness_EncodeOfDecode :
    decode 0x0000FF01#32 = .legal (.new 255) ∧ decode 0x00000003#32 = .legal .decrypt := by decide

theorem witness_CommandsAreTheirOpcodeRows :
    decode 0x00000001#32 = .legal (.new 0) ∧ decode 0x0000FF01#32 = .legal (.new 255) := by decide

theorem witness_IllegalWordsAreRejected :
    (withHost built [.writeCmd 0#32]).phase = .idle ∧
      (withHost built [.writeCmd 0#32]).host = .writeCmd 0#32 :: [] ∧ ∃ why, decode 0#32 = .illegal why :=
  ⟨rfl, rfl, .opcode, by decide⟩

theorem witness_StepRunsTheDecodedCommand :
    (withHost built [.writeCmd 2#32]).phase = .idle ∧
      (withHost built [.writeCmd 2#32]).host = .writeCmd 2#32 :: [] ∧ decode 2#32 = .legal .encrypt :=
  ⟨rfl, rfl, by decide⟩

theorem witness_PlacedCommandRunsNext :
    State.reset.phase = .idle ∧ decodeTableWord 32 0x401 = some (.new 4) := by decide

theorem witness_NoCommandWhileBusy : (enc toy 0 iv pt).phase ≠ .idle := by decide

theorem witness_IdleEngineWaits : State.reset.phase = .idle ∧ State.reset.host = [] := ⟨rfl, rfl⟩

theorem witness_ResetValues :
    (withHost (enc toy 5 iv pt) [.rst]).phase = .idle ∧ (withHost (enc toy 5 iv pt) [.rst]).host = .rst :: [] :=
  ⟨by decide, rfl⟩

theorem witness_RstResetsFromEveryPhase :
    ((withHost built [.rst]).phase = .idle ∧ (withHost built [.rst]).host = .rst :: []) ∧
      (withHost (enc toy 3 iv pt) [.rstDuring 0]).host = .rstDuring 0 :: [] := ⟨⟨rfl, rfl⟩, rfl⟩

theorem witness_XorblkIsBytewise : 0 < 4 ∧ 3 < 4 := by decide

theorem witness_XorblkAlgebra :
    (⟨[0#8, 0#8, 0#8, 0#8], rfl⟩ : Block 4).val = List.replicate 4 0#8 ∧
      xorblk ivBlock ivBlock = xorblk ivBlock ivBlock ∧ 3 < 4 := by decide

theorem witness_ZeroPadEncodes : 1 ≤ 1 := Nat.le_refl 1

theorem witness_ZeroPadDecodes :
    (([] : Bytes) = [] ∨ ([] : Bytes).getLast? ≠ some 0#8) ∧ (pt = [] ∨ pt.getLast? ≠ some 0#8) ∧ 1 ≤ 1 := by decide

/-- The data of V14 ends in one zero byte. -/
theorem witness_ZeroPadInvertsUnlessDataEndsInZero :
    1 ≤ 4 ∧ 1 ≤ 1 ∧ [0x41#8, 0x00#8] = [0x41#8] ++ List.replicate 1 0#8 ∧
      ([0x41#8] = ([] : Bytes) ∨ [0x41#8].getLast? ≠ some 0#8) := by decide

/-- An illegal word; then each command accepted, and rejected. -/
theorem witness_AcceptProcedure :
    built.phase = .idle ∧ (∃ why, decode 0#32 = .illegal why) ∧
      decode 0x401#32 = .legal (.new 4) ∧ (keyed key).cfgValid = false ∧ (keyed key).keybuf = some key ∧
      (built.cfgValid = true ∨ built.keybuf = none) ∧
      decode 2#32 = .legal .encrypt ∧ decode 3#32 = .legal .decrypt ∧
      (loaded iv pt).cfgValid = true ∧ (loaded iv pt).ivbuf = some iv ∧ (loaded iv pt).inbuf = some pt ∧
      (built.cfgValid = false ∨ built.ivbuf = none ∨ built.inbuf = none) :=
  ⟨rfl, ⟨.opcode, by decide⟩, by decide, rfl, rfl, .inl rfl, by decide, by decide, rfl, rfl, rfl, .inr (.inl rfl)⟩

/-- One command accepted, one rejected. -/
theorem witness_CommandFrame :
    exec .encrypt (loaded iv pt) = .next (enc toy 0 iv pt) ∧ (∀ bs, Instr.encrypt ≠ .new bs) ∧
      exec (.new 4) built = .next (issue (.new 4) built) ∧ (issue (.new 4) built).phase = .idle :=
  ⟨rfl, fun _ => nofun, rfl, rfl⟩

theorem witness_NewopStep :
    (issue (.new 4) (keyed key)).phase = .newop ∧ (issue (.new 4) (keyed key)).op = .new 4#8 key ∧
      toy.ciph.supports key.length (4#8).toNat = true ∧
      (issue (.new 4) (keyed iv)).op = .new 4#8 iv ∧
      (issue (.new 5) (keyed key)).op = .new 5#8 key ∧ toy.ciph.supports key.length (5#8).toNat = false := by decide

/-- The three outcomes: framed, unaligned, over capacity. -/
theorem witness_PadencStep :
    (enc toy 0 iv pt).phase = .encPad ∧ (enc toy 0 iv pt).op = .encrypt iv pt ∧ (enc toy 0 iv pt).bs ≠ 0 ∧
      ((toy.pad.encode 4 pt).length % 4 = 0 ∧ toy.fits (toy.pad.encode 4 pt).length = true) ∧
      (unaligned.pad.encode 4 pt).length % 4 ≠ 0 ∧
      ((small.pad.encode 4 ct).length % 4 = 0 ∧ small.fits (small.pad.encode 4 ct).length = false) := by decide

theorem witness_SizechkStep :
    (dec toy 0 iv ct).phase = .decChk ∧ (dec toy 0 iv ct).op = .decrypt iv ct ∧ (dec toy 0 iv ct).bs ≠ 0 ∧
      ct.length % (dec toy 0 iv ct).bs = 0 ∧
      (dec toy 0 iv (ct.take 7)).phase = .decChk ∧ (dec toy 0 iv (ct.take 7)).op = .decrypt iv (ct.take 7) ∧
      (ct.take 7).length % (dec toy 0 iv (ct.take 7)).bs ≠ 0 := by decide

theorem witness_IvloadStep :
    ((enc toy 1 iv pt).phase = .encIv ∧ (enc toy 1 iv pt).op = .encrypt iv pt ∧ iv.length = (enc toy 1 iv pt).bs) ∧
      ((dec toy 1 [] ct).phase = .decIv ∧ (dec toy 1 [] ct).op = .decrypt [] ct ∧
        ([] : Bytes).length ≠ (dec toy 1 [] ct).bs) := by decide

/-- V10's first block. -/
theorem witness_EncblkStep :
    ((enc toy 2 iv pt).phase = .encBlk ∧ (enc toy 2 iv pt).op = .encrypt iv pt ∧
      (enc toy 2 iv pt).keystore = some key ∧ (enc toy 2 iv pt).idx = some 0 ∧ (enc toy 2 iv pt).nblk = some 2 ∧
      0 < 2 ∧ (enc toy 2 iv pt).work = some padded ∧ 0 * 4 + 4 ≤ padded.length ∧
      padded.take 4 = (padded.drop (0 * 4)).take 4 ∧ (enc toy 2 iv pt).fb = some ivBlock.val ∧
      (enc toy 2 iv pt).acc = some [] ∧ ([] : Bytes).length = 0 * 4) ∧
      toy.ciph.enc key 4 (xorblk ⟨padded.take 4, rfl⟩ ivBlock) = .ok ⟨ct.take 4, rfl⟩ := ⟨by decide, rfl⟩

/-- The plaintext of V18. -/
def pt18 : Bytes := [0x41#8, 0x42#8, 0x43#8, 0x44#8, 0x9C#8, 0x75#8, 0x07#8, 0x55#8, 0x55#8]

/-- V18's second block, the last clause of `EncblkStep`. -/
theorem witness_EncblkStep_error :
    ((enc toyf 3 iv pt18).phase = .encBlk ∧ (enc toyf 3 iv pt18).op = .encrypt iv pt18 ∧
      (enc toyf 3 iv pt18).keystore = some key ∧ (enc toyf 3 iv pt18).idx = some 1 ∧
      (enc toyf 3 iv pt18).nblk = some 3 ∧ 1 < 3 ∧ (enc toyf 3 iv pt18).work = some (pt18 ++ [0#8, 0#8, 0#8]) ∧
      1 * 4 + 4 ≤ (pt18 ++ [0#8, 0#8, 0#8]).length ∧ (enc toyf 3 iv pt18).fb = some (ct.take 4) ∧
      (enc toyf 3 iv pt18).acc = some (ct.take 4)) ∧
      toyf.ciph.enc key 4 (xorblk ⟨(pt18.drop (1 * 4)).take 4, rfl⟩ ⟨ct.take 4, rfl⟩) = .err 0xE0E0E0E0#32 :=
  ⟨by decide, rfl⟩

/-- V20's first block. -/
theorem witness_DecblkStep :
    ((dec toy 2 iv ct).phase = .decBlk ∧ (dec toy 2 iv ct).op = .decrypt iv ct ∧
      (dec toy 2 iv ct).keystore = some key ∧ (dec toy 2 iv ct).idx = some 0 ∧ (dec toy 2 iv ct).nblk = some 2 ∧
      0 < 2 ∧ 0 * 4 + 4 ≤ ct.length ∧ ct.take 4 = (ct.drop (0 * 4)).take 4 ∧
      (dec toy 2 iv ct).fb = some ivBlock.val ∧ (dec toy 2 iv ct).acc = some [] ∧ ([] : Bytes).length = 0 * 4) ∧
      toy.ciph.dec key 4 ⟨ct.take 4, rfl⟩ = .ok ⟨[0x51#8, 0x62#8, 0x73#8, 0x04#8], rfl⟩ := ⟨by decide, rfl⟩

/-- A block on which TOYF fails, the last clause of `DecblkStep`. -/
def ctFail : Bytes := [0xFF#8, 0#8, 0#8, 0#8]

theorem witness_DecblkStep_error :
    ((dec toyf 2 iv ctFail).phase = .decBlk ∧ (dec toyf 2 iv ctFail).op = .decrypt iv ctFail ∧
      (dec toyf 2 iv ctFail).keystore = some key ∧ (dec toyf 2 iv ctFail).idx = some 0 ∧
      (dec toyf 2 iv ctFail).nblk = some 1 ∧ 0 < 1 ∧ 0 * 4 + 4 ≤ ctFail.length ∧
      (dec toyf 2 iv ctFail).fb = some ivBlock.val ∧ (dec toyf 2 iv ctFail).acc = some []) ∧
      toyf.ciph.dec key 4 ⟨ctFail, rfl⟩ = .err 0xD0D0D0D0#32 := ⟨by decide, rfl⟩

theorem witness_EncfinStep :
    (enc toy 4 iv pt).phase = .encBlk ∧ (enc toy 4 iv pt).op = .encrypt iv pt ∧ (enc toy 4 iv pt).idx = some 2 ∧
      (enc toy 4 iv pt).nblk = some 2 ∧ (enc toy 4 iv pt).acc = some ct := by decide

/-- V20 and V25. -/
theorem witness_PaddecStep :
    ((dec toy 4 iv ct).phase = .decBlk ∧ (dec toy 4 iv ct).op = .decrypt iv ct ∧ (dec toy 4 iv ct).idx = some 2 ∧
      (dec toy 4 iv ct).nblk = some 2 ∧ (dec toy 4 iv ct).acc = some padded) ∧
      toy.pad.decode 4 padded = .ok pt ∧ toy.pad.decode 4 (padded.take 4) = .err 0#32 := by decide

theorem witness_NewCommand :
    255 ≤ 255 ∧ (keyed key).Inv toy ∧ (keyed key).phase = .idle ∧ (keyed key).rstPending = false ∧
      (keyed key).cfgValid = false ∧ (keyed key).keybuf = some key ∧ toy.ciph.supports key.length 4 = true ∧
      toy.ciph.supports key.length 255 = false ∧
      built.Inv toy ∧ built.rstPending = false ∧ (built.cfgValid = true ∨ built.keybuf = none) :=
  ⟨Nat.le_refl _, keyed_inv _ _, rfl, rfl, rfl, rfl, by decide, by decide, built_inv _ toy_supports, rfl, .inl rfl⟩

theorem witness_EncryptCommand :
    (loaded iv pt).ready toy key ∧ (loaded iv pt).ivbuf = some iv ∧ (loaded iv pt).inbuf = some pt ∧
      (toy.pad.encode (loaded iv pt).pbs pt).length % (loaded iv pt).bs = 0 ∧
      toy.fits (toy.pad.encode (loaded iv pt).pbs pt).length = true :=
  ⟨loaded_ready _ toy_supports _ _, rfl, rfl, by decide, by decide⟩

theorem witness_DecryptCommand :
    (loaded iv ct).ready toy key ∧ (loaded iv ct).ivbuf = some iv ∧ (loaded iv ct).inbuf = some ct :=
  ⟨loaded_ready _ toy_supports _ _, rfl, rfl⟩

/-- V22b: the ciphertext and the IV have wrong lengths. -/
theorem witness_SizeValidation :
    (loaded (iv.take 2) (ct.take 5)).ready toy key ∧ (ct.take 5).length % (loaded (iv.take 2) (ct.take 5)).bs ≠ 0 ∧
      (dec toy 0 (iv.take 2) (ct.take 5)).Inv toy ∧
      stepUnder toy (dec toy 0 (iv.take 2) (ct.take 5)) = .next (dec toy 1 (iv.take 2) (ct.take 5)) ∧
      (dec toy 1 (iv.take 2) (ct.take 5)).err = 2#4 ∧ (dec toy 0 (iv.take 2) (ct.take 5)).err ≠ 2#4 :=
  ⟨loaded_ready _ toy_supports _ _, by decide, dec_inv _ toy_supports _ _ _, rfl, by decide, by decide⟩

/-- V10, V18, V17; V20, V25, a cipher failure, V22. -/
theorem witness_CollaboratorCalls :
    1 ≤ 4 ∧ (toy.pad.encode 4 pt).length % 4 = 0 ∧ cbcEncrypt toy key 4 4 iv pt = .ok ct ∧
      cbcEncrypt toyf key 4 4 iv [0x41#8, 0x42#8, 0x43#8, 0x44#8, 0x9C#8, 0x75#8, 0x07#8, 0x55#8, 0x55#8] =
        .err .cipher 0xE0E0E0E0#32 1 ∧
      (iv.take 3).length ≠ 4 ∧ cbcDecrypt toy key 4 4 iv ct = .ok pt ∧
      cbcDecrypt toy key 4 4 iv (ct.take 4) = .err .padding 0#32 0 ∧
      cbcDecrypt toyf key 4 4 iv [0xFF#8, 0#8, 0#8, 0#8] = .err .cipher 0xD0D0D0D0#32 0 ∧
      (ct.take 7).length % 4 ≠ 0 := by decide

/-- V10 with V20, and V14. -/
theorem witness_RoundTrip :
    (loaded iv pt).ready toy key ∧ CiphInverse toy.ciph key (loaded iv pt).bs ∧ PadAligned toy.pad ∧
      iv.length = (loaded iv pt).bs ∧ (loaded iv pt).ivbuf = some iv ∧ (loaded iv pt).inbuf = some pt ∧
      toy.fits (toy.pad.encode (loaded iv pt).pbs pt).length = true ∧
      (loaded iv ct).ready toy key ∧ (loaded iv ct).cfgBs = (loaded iv pt).cfgBs ∧ (loaded iv ct).inbuf = some ct ∧
      PadInverse toy.pad (loaded iv pt).bs pt ∧ toy.pad = zeroPad Config.info ∧
      [0x41#8, 0x00#8] = [0x41#8] ++ List.replicate 1 0#8 ∧ [0x41#8].getLast? ≠ some 0#8 :=
  ⟨loaded_ready _ toy_supports _ _, toy_inverse, zeroPad_aligned, rfl, rfl, rfl, rfl, loaded_ready _ toy_supports _ _,
    rfl, rfl, by unfold PadInverse; decide, rfl, by decide, by decide⟩

/-- V10 and V12. -/
theorem witness_IvChangesEveryBlock :
    (loaded iv pt).ready toy key ∧ (loaded (0x11#8 :: iv.drop 1) pt).ready toy key ∧
      (loaded (0x11#8 :: iv.drop 1) pt).cfgBs = (loaded iv pt).cfgBs ∧
      (∀ x : Block (loaded iv pt).bs, ∃ y, toy.ciph.enc key (loaded iv pt).bs x = .ok y) ∧
      (∀ x x' : Block (loaded iv pt).bs,
        toy.ciph.enc key (loaded iv pt).bs x = toy.ciph.enc key (loaded iv pt).bs x' → x = x') ∧
      PadAligned toy.pad ∧ toy.fits (toy.pad.encode (loaded iv pt).bs pt).length = true ∧
      iv.length = (loaded iv pt).bs ∧ (0x11#8 :: iv.drop 1).length = (loaded iv pt).bs ∧ iv ≠ 0x11#8 :: iv.drop 1 ∧
      (loaded iv pt).ivbuf = some iv ∧ (loaded iv pt).inbuf = some pt :=
  ⟨loaded_ready _ toy_supports _ _, loaded_ready _ toy_supports _ _, rfl, toy_total, toy_injective, zeroPad_aligned,
    rfl, rfl, rfl, by decide, rfl, rfl⟩

/-- V24 on V10's ciphertext: byte 1 of block 0 is changed. -/
theorem witness_ErrorPropagation :
    1 ≤ 4 ∧ ct.length = 2 * 4 ∧ ([0x63#8, 0xF5#8] ++ ct.drop 2).length = 2 * 4 ∧ 0 < 2 ∧ iv.length = 4 ∧
      (∀ j, j < 2 → j ≠ 0 → blockAt 4 ([0x63#8, 0xF5#8] ++ ct.drop 2) j = blockAt 4 ct j) ∧
      blockAt 4 ([0x63#8, 0xF5#8] ++ ct.drop 2) 0 ≠ blockAt 4 ct 0 ∧
      (∃ acc, cbcRecover toy key 4 iv ct = .ok acc) ∧
      (∃ acc, cbcRecover toy key 4 iv ([0x63#8, 0xF5#8] ++ ct.drop 2) = .ok acc) ∧ 0 + 1 < 2 ∧
      ∀ y y' d : Block 4, toy.ciph.dec key 4 y = .ok d → toy.ciph.dec key 4 y' = .ok d → y = y' := by
  refine ⟨by decide, by decide, by decide, by decide, by decide, by decide, by decide, ⟨padded, by decide⟩,
    ⟨[0x41#8, 0x42#8, 0xC3#8, 0x44#8, 0x45#8, 0x80#8, 0x00#8, 0x00#8], by decide⟩, by decide, ?_⟩
  exact fun y y' d h h' => toy_dec_injective y y' (h.trans h'.symm)

theorem otherLoaded_inv : otherLoaded.Inv toy :=
  inv_of_host (s := { loaded iv pt with keybuf := some ct })
    (idle_buffers_keep_inv (loaded_inv _ toy_supports iv pt) rfl faulted_ne_nil) _

/-- ENCRYPT on two engines with another KEYBUF, previous report and host program. -/
theorem witness_ResultsAreAFunctionOfTheOperands :
    (loaded iv pt).Inv toy ∧ otherLoaded.Inv toy ∧ PadAligned toy.pad ∧
      toy.fits (toy.pad.encode (loaded iv pt).pbs pt).length = true ∧
      (loaded iv pt).rstPending = false ∧ otherLoaded.rstPending = false ∧
      (otherLoaded.cfgValid = (loaded iv pt).cfgValid ∧ otherLoaded.cfgBs = (loaded iv pt).cfgBs ∧
        otherLoaded.keystore = (loaded iv pt).keystore) ∧
      (otherLoaded.ivbuf = (loaded iv pt).ivbuf ∧ otherLoaded.inbuf = (loaded iv pt).inbuf) ∧
      otherLoaded.keybuf ≠ (loaded iv pt).keybuf ∧
      exec .encrypt (loaded iv pt) = .next (enc toy 0 iv pt) ∧ (enc toy 0 iv pt).phase ≠ .idle ∧
      exec .encrypt otherLoaded = .next (issue .encrypt otherLoaded) ∧ (issue .encrypt otherLoaded).phase ≠ .idle :=
  ⟨loaded_inv _ toy_supports _ _, otherLoaded_inv, zeroPad_aligned, rfl, rfl, rfl, ⟨rfl, rfl, rfl⟩,
    ⟨rfl, rfl⟩, by decide, rfl, by decide, rfl, by decide⟩

/-- NEW on two engines with another IVBUF. -/
theorem witness_ResultsAreAFunctionOfTheOperands_new :
    (keyed key).Inv toy ∧ ({ keyed key with ivbuf := some iv } : State).Inv toy ∧
      ({ keyed key with ivbuf := some iv } : State).keybuf = (keyed key).keybuf ∧
      exec (.new 4) (keyed key) = .next (issue (.new 4) (keyed key)) ∧
      (issue (.new 4) (keyed key)).phase ≠ .idle ∧
      (issue (.new 4) { keyed key with ivbuf := some iv }).phase ≠ .idle :=
  ⟨keyed_inv _ _, idle_buffers_keep_inv (keyed_inv _ key) rfl faulted_ne_nil, rfl, rfl, by decide, by decide⟩

/-- V13 and V23. -/
theorem witness_EmptyPlaintext :
    toy.pad = zeroPad Config.info ∧ (loaded iv []).ready toy key ∧ toy.fits (loaded iv []).bs = true ∧
      toy.ciph.enc key (loaded iv []).bs ivBlock = .ok ⟨[0x21#8, 0x32#8, 0x43#8, 0x14#8], rfl⟩ ∧
      (loaded iv []).ivbuf = some ivBlock.val ∧ (loaded iv []).inbuf = some [] ∧
      CiphInverse toy.ciph key (loaded iv []).bs :=
  ⟨rfl, loaded_ready _ toy_supports _ _, rfl, rfl, rfl, rfl, toy_inverse⟩

theorem witness_OutputLengths :
    1 ≤ 4 ∧ PadAligned toy.pad ∧ toy.pad = zeroPad Config.info ∧ cbcEncrypt toy key 4 4 iv pt = .ok ct ∧
      cbcDecrypt toy key 4 4 iv ct = .ok pt :=
  ⟨by decide, zeroPad_aligned, rfl, by decide, by decide⟩

/-- A step of ENCBLK, and a step of this engine. -/
theorem witness_StepKeepsTheInvariant :
    (enc toy 2 iv pt).Inv toy ∧ stepUnder toy (enc toy 2 iv pt) = .next (enc toy 3 iv pt) ∧
      (keyed key).Inv params ∧ step (keyed key) = .next (keyed key) :=
  ⟨enc_inv _ toy_supports _ _ _, rfl, keyed_inv _ _, rfl⟩

theorem witness_InvariantStatesNeverStop :
    (enc toy 2 iv pt).Inv toy ∧ toy.pad = zeroPad Config.info ∧ toy.bufCap = none ∧
      (issue (.new 4) (keyed key)).Inv params :=
  ⟨enc_inv _ toy_supports _ _ _, rfl, rfl, issue_inv _ (keyed_inv _ _)⟩

/-- The last block of V10 fills a buffer of 8 bytes. -/
theorem witness_SpacesStayWithinCapacity :
    small.pad = zeroPad Config.info ∧ (enc small 3 iv pt).Inv small ∧ Memory.wf small (enc small 3 iv pt) = true ∧
      stepUnder small (enc small 3 iv pt) = .next (enc small 4 iv pt) :=
  ⟨rfl, enc_inv _ small_supports _ _ _, by decide, rfl⟩

/-- Out of IDLE: each command accepted, one rejected, an illegal word, another move. -/
theorem witness_PhaseTable_idle :
    ((withHost (loaded iv pt) [.writeCmd 2#32]).Inv toy ∧ (withHost (loaded iv pt) [.writeCmd 2#32]).phase = .idle ∧
      decode 2#32 = .legal .encrypt ∧ (withHost (loaded iv pt) [.writeCmd 2#32]).accepts .encrypt ∧
      stepUnder toy (withHost (loaded iv pt) [.writeCmd 2#32]) = .next (enc toy 0 iv pt)) ∧
    (decode 3#32 = .legal .decrypt ∧ (withHost (loaded iv ct) [.writeCmd 3#32]).accepts .decrypt ∧
      stepUnder toy (withHost (loaded iv ct) [.writeCmd 3#32]) = .next (dec toy 0 iv ct)) ∧
    (decode 0x401#32 = .legal (.new 4) ∧ (withHost (keyed key) [.writeCmd 0x401#32]).accepts (.new 4) ∧
      stepUnder toy (withHost (keyed key) [.writeCmd 0x401#32]) = .next (issue (.new 4) (keyed key))) ∧
    (¬ (withHost built [.writeCmd 2#32]).accepts .encrypt ∧
      stepUnder toy (withHost built [.writeCmd 2#32]) = .next (issue .encrypt built)) ∧
    ((∀ i, decode 0#32 ≠ .legal i) ∧
      stepUnder toy (withHost built [.writeCmd 0#32]) = .next (usage Config.info 0#32 built)) ∧
    stepUnder toy (withHost built [.rst]) = .next State.reset := by
  refine ⟨⟨inv_of_host (loaded_inv _ toy_supports _ _) _, rfl, by decide, ⟨rfl, nofun, nofun⟩, rfl⟩,
    ⟨by decide, ⟨rfl, nofun, nofun⟩, rfl⟩, ⟨by decide, ⟨rfl, nofun⟩, rfl⟩, ⟨fun h => h.2.1 rfl, rfl⟩, ⟨?_, rfl⟩, rfl⟩
  intro i h
  rw [show decode 0#32 = .illegal .opcode by decide] at h
  cases h

/-- One step out of each busy phase, under each condition of its row. -/
theorem witness_PhaseTable :
    ((withHost (enc toy 2 iv pt) [.rst]).Inv toy ∧ (withHost (enc toy 2 iv pt) [.rst]).phase ≠ .idle ∧
      (withHost (enc toy 2 iv pt) [.rst]).rstPending = false ∧
      stepUnder toy (withHost (enc toy 2 iv pt) [.rst]) = .next (withHost (enc toy 3 iv pt) [.rst])) ∧
      stepUnder toy (issue (.new 4) (keyed key)) = .next (engine toy 1 (issue (.new 4) (keyed key))) ∧
      stepUnder toy (issue (.new 5) (keyed key)) = .next (engine toy 1 (issue (.new 5) (keyed key))) ∧
      stepUnder toy (enc toy 0 iv pt) = .next (enc toy 1 iv pt) ∧
      (stepUnder toy (enc toy 1 iv pt) = .next (enc toy 2 iv pt) ∧ iv.length = (enc toy 1 iv pt).bs) ∧
      (stepUnder toy (enc toy 1 [] pt) = .next (enc toy 2 [] pt) ∧ ([] : Bytes).length ≠ (enc toy 1 [] pt).bs) ∧
      (stepUnder toy (enc toy 2 iv pt) = .next (enc toy 3 iv pt) ∧ (enc toy 2 iv pt).idx = some 0 ∧ 0 < 2) ∧
      ((enc toyf 3 iv pt18).Inv toyf ∧ stepUnder toyf (enc toyf 3 iv pt18) = .next (enc toyf 4 iv pt18) ∧
        (enc toyf 3 iv pt18).idx = some 1 ∧ (enc toyf 4 iv pt18).phase = .idle) ∧
      (stepUnder toy (enc toy 4 iv pt) = .next (enc toy 5 iv pt) ∧ (enc toy 4 iv pt).idx = some 2) :=
  ⟨⟨inv_of_host (enc_inv _ toy_supports _ _ _) _, by decide, by decide, rfl⟩, rfl, rfl, rfl, ⟨rfl, by decide⟩,
    ⟨rfl, by decide⟩, ⟨rfl, by decide, by decide⟩,
    ⟨enc_inv _ toyf_supports _ _ _, rfl, by decide, by decide⟩, ⟨rfl, by decide⟩⟩

/-- The rows of DECRYPT: aligned and not, an IV of BS bytes and not, cipher ok and error, deframing ok and error. -/
theorem witness_PhaseTable_decrypt :
    (dec toy 0 iv ct).Inv toy ∧
      (stepUnder toy (dec toy 0 iv ct) = .next (dec toy 1 iv ct) ∧ ct.length % (dec toy 0 iv ct).bs = 0) ∧
      (stepUnder toy (dec toy 0 iv (ct.take 7)) = .next (dec toy 1 iv (ct.take 7)) ∧
        (dec toy 0 iv (ct.take 7)).phase = .decChk ∧ (ct.take 7).length % (dec toy 0 iv (ct.take 7)).bs ≠ 0) ∧
      (stepUnder toy (dec toy 1 iv ct) = .next (dec toy 2 iv ct) ∧ iv.length = (dec toy 1 iv ct).bs) ∧
      (stepUnder toy (dec toy 1 (iv.take 3) ct) = .next (dec toy 2 (iv.take 3) ct) ∧
        (dec toy 1 (iv.take 3) ct).phase = .decIv ∧ (iv.take 3).length ≠ (dec toy 1 (iv.take 3) ct).bs) ∧
      (stepUnder toy (dec toy 3 iv ct) = .next (dec toy 4 iv ct) ∧ (dec toy 3 iv ct).idx = some 1 ∧ 1 < 2) ∧
      (stepUnder toyf (dec toyf 2 iv ctFail) = .next (dec toyf 3 iv ctFail) ∧
        (dec toyf 2 iv ctFail).phase = .decBlk ∧ (dec toyf 3 iv ctFail).phase = .idle) ∧
      (stepUnder toy (dec toy 4 iv ct) = .next (dec toy 5 iv ct) ∧ (dec toy 4 iv ct).idx = some 2) ∧
      (stepUnder toy (dec toy 3 iv (ct.take 4)) = .next (dec toy 4 iv (ct.take 4)) ∧
        (dec toy 3 iv (ct.take 4)).idx = some 1 ∧ (dec toy 3 iv (ct.take 4)).nblk = some 1) :=
  ⟨dec_inv _ toy_supports _ _ _, ⟨rfl, by decide⟩, ⟨rfl, by decide, by decide⟩, ⟨rfl, by decide⟩,
    ⟨rfl, by decide, by decide⟩, ⟨rfl, by decide, by decide⟩, ⟨rfl, by decide, by decide⟩, ⟨rfl, by decide⟩,
    ⟨rfl, by decide, by decide⟩⟩

theorem witness_OperationsEnd :
    (enc toy 0 iv pt).Inv toy ∧ PadAligned toy.pad ∧ toy.bufCap = none ∧ (enc toy 0 iv pt).phase ≠ .idle ∧
      (enc toy 0 iv pt).rstPending = false :=
  ⟨enc_inv _ toy_supports _ _ _, zeroPad_aligned, rfl, by decide, by decide⟩

/-- A success (V20), an error (V22) and NEW. -/
theorem witness_EveryExitIsComplete :
    ((dec toy 4 iv ct).phase ≠ .idle ∧ (dec toy 4 iv ct).rstPending = false ∧
      stepUnder toy (dec toy 4 iv ct) = .next (dec toy 5 iv ct) ∧ (dec toy 5 iv ct).phase = .idle) ∧
      (stepUnder toy (dec toy 0 iv (ct.take 7)) = .next (dec toy 1 iv (ct.take 7)) ∧
        (dec toy 1 iv (ct.take 7)).phase = .idle ∧ (dec toy 1 iv (ct.take 7)).err ≠ 0#4) :=
  ⟨⟨by decide, by decide, rfl, by decide⟩, rfl, by decide, by decide⟩

theorem witness_EngineTouchesNoHostBuffer :
    (enc toy 3 iv pt).phase ≠ .idle ∧ (enc toy 3 iv pt).rstPending = false ∧
      stepUnder toy (enc toy 3 iv pt) = .next (enc toy 4 iv pt) := ⟨by decide, by decide, rfl⟩

theorem witness_ConfigurationIsFixedOnce :
    stepUnder toy (issue (.new 4) (keyed key)) = .next (engine toy 1 (issue (.new 4) (keyed key))) ∧
      (issue (.new 4) (keyed key)).cfgValid = false ∧ (engine toy 1 (issue (.new 4) (keyed key))).cfgValid = true ∧
      (enc toy 2 iv pt).Inv toy ∧ (enc toy 2 iv pt).cfgValid = true ∧
      stepUnder toy (enc toy 2 iv pt) = .next (enc toy 3 iv pt) :=
  ⟨rfl, by decide, by decide, enc_inv _ toy_supports _ _ _, by decide, rfl⟩

theorem witness_TraceIsGhost :
    stepUnder toy (enc toy 2 iv pt) = .next (enc toy 3 iv pt) ∧
      ∃ ev, (enc toy 3 iv pt).trace = (enc toy 2 iv pt).trace ++ [ev] :=
  ⟨rfl, .evEnc 0 [0x51#8, 0x62#8, 0x73#8, 0x04#8] (.ok (ct.take 4)), by decide⟩

theorem witness_FaultedRunsAreNeverFinal :
    (issue .encrypt built).faulted = true ∧ runsTo toy 1 (issue .encrypt built) (issue .encrypt built) :=
  ⟨by decide, rfl⟩

/-- One step into each error code: V02, V22, V18, a failing decryption, V25, V17, V19. -/
theorem witness_ErrorCodesComeFromTheirSteps :
    (stepUnder toy (issue (.new 5) (keyed key)) = .next (engine toy 1 (issue (.new 5) (keyed key))) ∧
      (engine toy 1 (issue (.new 5) (keyed key))).err = 1#4) ∧
    (dec toy 1 iv (ct.take 7)).err = 2#4 ∧
    (dec toyf 3 iv [0xFF#8, 0#8, 0#8, 0#8]).err = 3#4 ∧
    (enc toyf 4 iv [0x41#8, 0x42#8, 0x43#8, 0x44#8, 0x9C#8, 0x75#8, 0x07#8, 0x55#8]).err = 3#4 ∧
    (dec toy 4 iv (ct.take 4)).err = 4#4 ∧
    (enc toy 2 (iv.take 3) pt).err = 5#4 ∧
    ((enc toy 1 (iv.take 3) pt).Inv toy ∧ stepUnder toy (enc toy 1 (iv.take 3) pt) = .next (enc toy 2 (iv.take 3) pt) ∧
      (enc toy 2 (iv.take 3) pt).err ≠ (enc toy 1 (iv.take 3) pt).err) ∧
    (issue .encrypt built).err = 15#4 :=
  ⟨⟨rfl, by decide⟩, by decide, by decide, by decide, by decide, by decide,
    ⟨enc_inv _ toy_supports _ _ _, rfl, by decide⟩, by decide⟩

/-- A buffer of 8 bytes takes 8 and refuses 9. -/
theorem witness_LoadMoves :
    (withHost built [.loadKey ct]).phase = .idle ∧ (withHost built [.loadKey ct]).host = .loadKey ct :: [] ∧
      (withHost built [.loadIv ct]).host = .loadIv ct :: [] ∧ (withHost built [.loadIn ct]).host = .loadIn ct :: [] ∧
      small.fits ct.length = true ∧ small.fits (0#8 :: ct).length = false :=
  ⟨rfl, rfl, rfl, rfl, by decide, by decide⟩

theorem witness_ReadMoves :
    (withHost built [.readStatus]).phase = .idle ∧ (withHost built [.readStatus]).host = .readStatus :: [] ∧
      (withHost (enc toy 5 iv pt) [.readOut]).outbuf = some ct ∧
      (withHost (enc toy 5 iv pt) [.readOut]).host = .readOut :: [] ∧
      (withHost built [.readOut]).outbuf = none ∧ (withHost built [.readLen .out]).host = .readLen .out :: [] :=
  ⟨rfl, rfl, by decide, by decide, rfl, rfl⟩

theorem witness_StatusTheHostReads :
    (withHost built [.readStatus]).Inv toy ∧
      stepUnder toy (withHost built [.readStatus]) = .next (reply (.status 0x50#32) built) ∧
      (reply (.status 0x50#32) built).replies = (withHost built [.readStatus]).replies ++ [.status 0x50#32] :=
  ⟨inv_of_host (built_inv _ toy_supports) _, rfl, rfl⟩

/-- The same engine with another key, another IV of the same length, and another OP. -/
theorem witness_SecretsAreNotReadable :
    (withHost (loaded iv pt) [.readStatus]).phase = .idle ∧
      (withHost (loaded iv pt) [.readStatus]).host = .readStatus :: [] ∧
      lenOf (some key) = lenOf (withHost (loaded iv pt) [.readStatus]).ivbuf ∧
      stepUnder toy (withHost (loaded iv pt) [.readStatus]) = .next (reply (.status 0x50#32) (loaded iv pt)) ∧
      stepUnder toy { withHost (loaded iv pt) [.readStatus] with
          keystore := some iv, ivbuf := some key, op := .encrypt iv pt } =
        .next { reply (.status 0x50#32) (loaded iv pt) with
          keystore := some iv, ivbuf := some key, op := .encrypt iv pt } :=
  ⟨rfl, rfl, rfl, rfl, rfl⟩

theorem witness_DefaultPayloadIsAWord : 0xFFFFFFFF < 2 ^ 32 := by decide

end Sys2Proof.Tests
end

section
/-! Which runs are faulted, and when the host has a move (00_scope.md R12, R13): a step only ever adds to the faults a run
has recorded, so a faulted run stays faulted; a command written while an operation runs is refused; and how the default
`Info` holds a number (R9). -/

namespace Sys2Proof

/-- The word of a number that fits has the number as its value: nothing is truncated (R9, R16). -/
theorem info_number_toNat {n : Nat} (h : n < 2 ^ 32) : (Config.info.number n).toNat = n := by
  rw [info_number h, BitVec.toNat_ofNat, Nat.mod_eq_of_lt h]

/-- Settles O55: the default representation of numbers and words, as its two laws give it. -/
theorem defaultPayloadIsAWord : Obligations.DefaultPayloadIsAWord :=
  ⟨fun _ h => ⟨info_number h, info_number_toNat h⟩, info_word⟩

end Sys2Proof

namespace Sys2Proof.Machine

variable {ι : Type} {I : InfoRep ι} {P : Params I} {s t : State ι}

/-- Outside IDLE there is no host move, so no command (R12, R243). -/
theorem command_refused_of_busy (i : Instr) (hp : s.phase ≠ .idle) :
    command I i s = .refused .hostMoveWhileBusy := by
  cases i with
  | new | encrypt | decrypt =>
    dsimp only [command, commandNew, commandEncrypt, commandDecrypt]
    split
    · exact absurd ‹_› hp
    · rfl

/-- Settles O8, by the three commands' guard on PHASE. -/
theorem noCommandWhileBusy : Obligations.NoCommandWhileBusy := by
  intro i s hp
  rw [exec_eq_command]
  exact command_refused_of_busy i hp

/-! ### The record of faults only grows -/

/-- A command leaves the record as it is, or adds its UsageFault (R138). -/
theorem command_extends_runFaults {i : Instr} (h : command I i s = .next t) : s.runFaults <+: t.runFaults := by
  cases i with
  | new bs => obtain ⟨-, ⟨-, key, -, rfl⟩ | ⟨-, rfl⟩⟩ := commandNew_next h <;> simp
  | encrypt => obtain ⟨-, ⟨-, iv, data, -, -, rfl⟩ | ⟨-, rfl⟩⟩ := commandEncrypt_next h <;> simp
  | decrypt => obtain ⟨-, ⟨-, iv, data, -, -, rfl⟩ | ⟨-, rfl⟩⟩ := commandDecrypt_next h <;> simp

/-- IVLOAD leaves the record as it is, or adds its IvSizeError (R142, R205). -/
theorem ivload_extends_runFaults {iv : Bytes} {ph : Phase} (h : ivload I iv ph s = .next t) :
    s.runFaults <+: t.runFaults := by
  obtain ⟨-, rfl⟩ | ⟨-, rfl⟩ := ivload_next h <;> simp [raiseIvSize]

theorem newop_runFaults (h : newop P s = .next t) : t.runFaults = s.runFaults := by
  obtain ⟨bs, key, -, ⟨-, rfl⟩ | ⟨-, rfl⟩⟩ := newop_next h <;> rfl

theorem padenc_runFaults (h : padenc P s = .next t) : t.runFaults = s.runFaults := by
  obtain ⟨iv, data, -, -, -, -, rfl⟩ := padenc_next h
  rfl

theorem sizechk_runFaults (h : sizechk I s = .next t) : t.runFaults = s.runFaults := by
  obtain ⟨iv, data, -, -, ⟨-, rfl⟩ | ⟨-, rfl⟩⟩ := sizechk_next h <;> rfl

theorem encBlkStep_runFaults (h : encBlkStep P s = .next t) : t.runFaults = s.runFaults := by
  obtain ⟨i, n, -, -, ⟨-, hb⟩ | ⟨-, hf⟩⟩ := encBlkStep_next h
  · obtain ⟨key, blk, fb, acc, -, -, -, -, ho⟩ := encblk_next hb
    obtain ⟨info, -, rfl⟩ | ⟨ob, -, rfl⟩ := encblkOn_next ho <;> rfl
  · obtain ⟨acc, -, rfl⟩ := encfin_next hf
    rfl

theorem decBlkStep_runFaults (h : decBlkStep P s = .next t) : t.runFaults = s.runFaults := by
  obtain ⟨i, n, -, -, ⟨-, hb⟩ | ⟨-, hf⟩⟩ := decBlkStep_next h
  · obtain ⟨key, blk, fb, acc, -, -, -, -, ho⟩ := decblk_next hb
    obtain ⟨info, -, rfl⟩ | ⟨d, -, rfl⟩ := decblkOn_next ho <;> rfl
  · obtain ⟨acc, -, ⟨info, -, rfl⟩ | ⟨plain, -, rfl⟩⟩ := paddec_next hf <;> rfl

/-- Of the micro-operations only IVLOAD records a fault (R148, R205). -/
theorem engineStep_extends_runFaults (h : engineStep P s = .next t) : s.runFaults <+: t.runFaults := by
  obtain ⟨-, rfl⟩ | ⟨-, h⟩ | ⟨-, h⟩ | ⟨-, h⟩ | ⟨-, h⟩ | ⟨-, h⟩ | ⟨-, h⟩ | ⟨-, h⟩ := engineStep_next h
  · exact List.prefix_rfl
  · rw [newop_runFaults h]
  · rw [padenc_runFaults h]
  · obtain ⟨iv, data, -, hl⟩ := encIvStep_next h
    exact ivload_extends_runFaults hl
  · rw [encBlkStep_runFaults h]
  · rw [sizechk_runFaults h]
  · obtain ⟨iv, data, -, hl⟩ := decIvStep_next h
    exact ivload_extends_runFaults hl
  · rw [decBlkStep_runFaults h]

/-- READ_OUT leaves the record as it is, or adds the read of an absent result (R206). -/
theorem readOut_extends_runFaults : s.runFaults <+: (readOut s).runFaults := by
  unfold readOut
  split <;> simp

theorem hostMove_extends_runFaults {m : HostMove} (h : hostMove P m s = .next t) : s.runFaults <+: t.runFaults := by
  cases m with
  | loadKey b | loadIv b | loadIn b =>
    simp only [hostMove, loadKey, loadIv, loadIn] at h
    split at h
    · exact next_inj h ▸ List.prefix_rfl
    · cases h
  | writeCmd w =>
    obtain ⟨i, -, hc⟩ | ⟨why, -, rfl⟩ := writeCmd_next h
    · exact command_extends_runFaults hc
    · simp
  | readOut => exact next_inj h ▸ readOut_extends_runFaults
  | rst | rstDuring | readStatus | readErrinfo | readErridx | readCfg | readLen =>
    exact next_inj h ▸ List.prefix_rfl

/-- A step never forgets a fault, a reset included (R13, R230; log entry 8). -/
theorem stepUnder_extends_runFaults (h : stepUnder P s = .next t) : s.runFaults <+: t.runFaults := by
  obtain ⟨-, -, rfl⟩ | ⟨-, m, rest, -, hm⟩ | ⟨-, rest, -, rfl⟩ | ⟨-, k, rest, -, he⟩ | ⟨-, -, he⟩ := stepUnder_next h
  · exact List.prefix_rfl
  · exact hostMove_extends_runFaults (s := { s with host := rest }) hm
  · exact List.prefix_rfl
  · exact engineStep_extends_runFaults (s := { s with host := .rstDuring k :: rest }) he
  · exact engineStep_extends_runFaults he

theorem runsTo_extends_runFaults {k : Nat} (h : runsTo P k s t) : s.runFaults <+: t.runFaults := by
  induction k generalizing s with
  | zero => exact next_inj h ▸ List.prefix_rfl
  | succ k ih =>
    obtain ⟨u, hu, hr⟩ := runsTo_succ.mp h
    exact (stepUnder_extends_runFaults hu).trans (ih hr)

/-- A faulted run stays faulted (R13). -/
theorem runsTo_keeps_faulted {k : Nat} (h : runsTo P k s t) (hs : s.faulted = true) : t.faulted = true := by
  have hne : t.runFaults ≠ [] := (runsTo_extends_runFaults h).ne_nil (faulted_ne_nil hs)
  simpa [State.faulted] using hne

theorem final_eq_false_of_faulted (h : s.faulted = true) : s.final = false := by
  simp [State.final, h]

/-- Settles O48, by induction on the number of steps: the record of faults only grows. -/
theorem faultedRunsAreNeverFinal : Obligations.FaultedRunsAreNeverFinal :=
  fun _ _ _ _ _ _ hs hr => final_eq_false_of_faulted (runsTo_keeps_faulted hr hs)

end Sys2Proof.Machine
end

section
/-! Payloads are only copied (00_scope.md R9): each operation of the machine commutes with `State.mapInfo f`, in the order
of the definitions, and so does the step. -/

namespace Sys2Proof

section
variable {ι κ α β : Type} (f : ι → κ)

@[simp] theorem Result.mapInfo_err (info : ι) : (Result.err info : Result α ι).mapInfo f = .err (f info) := rfl
@[simp] theorem Result.mapInfo_ok (a : α) : (Result.ok a : Result α ι).mapInfo f = .ok a := rfl
@[simp] theorem Result.map_err (g : α → β) (info : ι) : (Result.err info : Result α ι).map g = .err info := rfl
@[simp] theorem Result.map_ok (g : α → β) (a : α) : (Result.ok a : Result α ι).map g = .ok (g a) := rfl

end

end Sys2Proof

namespace Sys2Proof.Machine

variable {ι κ : Type} {I : InfoRep ι} (f : ι → κ) (P : Params I) (s : State ι)

@[simp] theorem mapInfo_cfgErr (kl bs : Nat) : (P.mapInfo f).ciph.cfgErr kl bs = f (P.ciph.cfgErr kl bs) := rfl
@[simp] theorem mapInfo_enc (key : Bytes) (n : Nat) (x : Block n) :
    (P.mapInfo f).ciph.enc key n x = (P.ciph.enc key n x).mapInfo f := rfl
@[simp] theorem mapInfo_dec (key : Bytes) (n : Nat) (y : Block n) :
    (P.mapInfo f).ciph.dec key n y = (P.ciph.dec key n y).mapInfo f := rfl
@[simp] theorem mapInfo_encode : (P.mapInfo f).pad.encode = P.pad.encode := rfl
@[simp] theorem mapInfo_decode (bs : Nat) (p : Bytes) :
    (P.mapInfo f).pad.decode bs p = (P.pad.decode bs p).mapInfo f := rfl
@[simp] theorem mapInfo_number (n : Nat) : (I.mapInfo f).number n = f (I.number n) := rfl

@[simp] theorem mapInfo_evNew (kl bs : Nat) (r : Result Unit ι) :
    (Event.evNew kl bs r).mapInfo f = .evNew kl bs (r.mapInfo f) := rfl
@[simp] theorem mapInfo_evPadEncode (bs : Nat) (data out : Bytes) :
    (Event.evPadEncode bs data out : Event ι).mapInfo f = .evPadEncode bs data out := rfl
@[simp] theorem mapInfo_evEnc (i : Nat) (x : Bytes) (r : Result Bytes ι) :
    (Event.evEnc i x r).mapInfo f = .evEnc i x (r.mapInfo f) := rfl
@[simp] theorem mapInfo_evDec (i : Nat) (y : Bytes) (r : Result Bytes ι) :
    (Event.evDec i y r).mapInfo f = .evDec i y (r.mapInfo f) := rfl
@[simp] theorem mapInfo_evPadDecode (bs : Nat) (data : Bytes) (r : Result Bytes ι) :
    (Event.evPadDecode bs data r).mapInfo f = .evPadDecode bs data (r.mapInfo f) := rfl

@[simp] theorem mapOutcome_next : mapOutcome f (.next s) = .next (s.mapInfo f) := rfl

/-- A guard that no payload enters is the same on both sides. -/
theorem ite_mapOutcome {p : Prop} [Decidable p] {a b : Outcome ι} {a' b' : Outcome κ} (ha : a' = mapOutcome f a)
    (hb : b' = mapOutcome f b) : (if p then a' else b') = mapOutcome f (if p then a else b) := by
  rw [apply_ite (mapOutcome f), ha, hb]

/-! ### The engine -/

theorem newop_mapInfo : newop (P.mapInfo f) (s.mapInfo f) = mapOutcome f (newop P s) := by
  simp only [newop, mapInfo_op, mapInfo_supports]
  split
  · refine ite_mapOutcome f ?_ ?_
    · simp [addEvent, complete, State.mapInfo]
    · simp [addEvent_mapInfo, complete_mapInfo]
  · rfl

theorem ivload_mapInfo (iv : Bytes) (ph : Phase) :
    ivload (I.mapInfo f) iv ph (s.mapInfo f) = mapOutcome f (ivload I iv ph s) :=
  ite_mapOutcome f rfl rfl

theorem sizechk_mapInfo : sizechk (I.mapInfo f) (s.mapInfo f) = mapOutcome f (sizechk I s) := by
  simp only [sizechk, mapInfo_op]
  split
  · exact ite_mapOutcome f rfl (ite_mapOutcome f rfl rfl)
  · rfl

theorem decIvStep_mapInfo : decIvStep (I.mapInfo f) (s.mapInfo f) = mapOutcome f (decIvStep I s) := by
  simp only [decIvStep, mapInfo_op]
  split
  · exact ivload_mapInfo f s _ _
  · rfl

theorem decblkOn_mapInfo (i : Nat) (key acc : Bytes) (blk fb : Block s.bs) :
    decblkOn (P.mapInfo f) (s.mapInfo f) i key acc blk fb = mapOutcome f (decblkOn P s i key acc blk fb) := by
  simp only [decblkOn, mapInfo_bs, mapInfo_dec]
  cases P.ciph.dec key s.bs blk with
  | err info => simp [addEvent, complete, State.mapInfo]
  | ok d => simp [addEvent, State.mapInfo]

/-- An operand that is absent is absent on both sides, and its fault carries no payload. -/
theorem decblk_mapInfo (i : Nat) : decblk (P.mapInfo f) i (s.mapInfo f) = mapOutcome f (decblk P i s) := by
  dsimp only [decblk, mapInfo_keystore, mapInfo_bs, mapInfo_fb, mapInfo_acc]
  rw [mapInfo_space]
  rcases s.keystore with _ | key
  · rfl
  rcases memRead (s.space .opData) (i * s.bs) s.bs with _ | blk
  · rfl
  rcases s.fb with _ | fb
  · rfl
  rcases s.acc with _ | acc
  · rfl
  dsimp only
  split
  · exact decblkOn_mapInfo f P s ..
  · rfl

theorem paddec_mapInfo : paddec (P.mapInfo f) (s.mapInfo f) = mapOutcome f (paddec P s) := by
  simp only [paddec, mapInfo_acc, mapInfo_pbs, mapInfo_decode]
  split
  · cases P.pad.decode s.pbs _ with
    | err info => simp [addEvent_mapInfo, complete_mapInfo]
    | ok plain => simp [addEvent_mapInfo, complete_mapInfo]
  · rfl

theorem decBlkStep_mapInfo : decBlkStep (P.mapInfo f) (s.mapInfo f) = mapOutcome f (decBlkStep P s) := by
  simp only [decBlkStep, mapInfo_idx, mapInfo_nblk]
  split
  · exact ite_mapOutcome f (decblk_mapInfo f P s _) (ite_mapOutcome f (paddec_mapInfo f P s) rfl)
  · rfl

theorem padenc_mapInfo : padenc (P.mapInfo f) (s.mapInfo f) = mapOutcome f (padenc P s) := by
  simp only [padenc, mapInfo_op]
  split
  · refine ite_mapOutcome f rfl (ite_mapOutcome f rfl (ite_mapOutcome f rfl ?_))
    simp [addEvent, State.mapInfo, State.bs, State.pbs]
  · rfl

theorem encIvStep_mapInfo : encIvStep (I.mapInfo f) (s.mapInfo f) = mapOutcome f (encIvStep I s) := by
  simp only [encIvStep, mapInfo_op]
  split
  · exact ivload_mapInfo f s _ _
  · rfl

theorem encblkOn_mapInfo (i : Nat) (key acc : Bytes) (blk fb : Block s.bs) :
    encblkOn (P.mapInfo f) (s.mapInfo f) i key acc blk fb = mapOutcome f (encblkOn P s i key acc blk fb) := by
  simp only [encblkOn, mapInfo_bs, mapInfo_enc]
  cases P.ciph.enc key s.bs (xorblk blk fb) with
  | err info => simp [addEvent, complete, State.mapInfo]
  | ok ob => simp [addEvent, State.mapInfo]

/-- As for DECBLK: an absent operand is absent on both sides. -/
theorem encblk_mapInfo (i : Nat) : encblk (P.mapInfo f) i (s.mapInfo f) = mapOutcome f (encblk P i s) := by
  dsimp only [encblk, mapInfo_keystore, mapInfo_work, mapInfo_bs, mapInfo_fb, mapInfo_acc]
  rcases s.keystore with _ | key
  · rfl
  rcases memRead s.work (i * s.bs) s.bs with _ | blk
  · rfl
  rcases s.fb with _ | fb
  · rfl
  rcases s.acc with _ | acc
  · rfl
  dsimp only
  split
  · exact encblkOn_mapInfo f P s ..
  · rfl

theorem encfin_mapInfo : encfin (I.mapInfo f) (s.mapInfo f) = mapOutcome f (encfin I s) := by
  simp only [encfin, mapInfo_acc]
  split <;> rfl

theorem encBlkStep_mapInfo : encBlkStep (P.mapInfo f) (s.mapInfo f) = mapOutcome f (encBlkStep P s) := by
  simp only [encBlkStep, mapInfo_idx, mapInfo_nblk]
  split
  · exact ite_mapOutcome f (encblk_mapInfo f P s _) (ite_mapOutcome f (encfin_mapInfo f s) rfl)
  · rfl

theorem engineStep_mapInfo : engineStep (P.mapInfo f) (s.mapInfo f) = mapOutcome f (engineStep P s) := by
  simp only [engineStep, mapInfo_phase]
  cases s.phase with
  | idle => rfl
  | newop => exact newop_mapInfo f P s
  | encPad => exact padenc_mapInfo f P s
  | encIv => exact encIvStep_mapInfo f s
  | encBlk => exact encBlkStep_mapInfo f P s
  | decChk => exact sizechk_mapInfo f s
  | decIv => exact decIvStep_mapInfo f s
  | decBlk => exact decBlkStep_mapInfo f P s

/-! ### The host's moves -/

theorem command_mapInfo (i : Instr) : command (I.mapInfo f) i (s.mapInfo f) = mapOutcome f (command I i s) := by
  cases i with
  | new | encrypt | decrypt =>
    simp only [command, commandNew, commandEncrypt, commandDecrypt, mapInfo_phase, mapInfo_cfgValid, mapInfo_keybuf,
      mapInfo_ivbuf, mapInfo_inbuf]
    split
    · split <;> rfl
    · rfl

theorem writeCmd_mapInfo (w : Word) : writeCmd (I.mapInfo f) w (s.mapInfo f) = mapOutcome f (writeCmd I w s) := by
  unfold writeCmd
  split
  · exact command_mapInfo f s _
  · rfl

theorem next_reply_mapInfo (r : Reply ι) :
    .next (reply (r.mapInfo f) (s.mapInfo f)) = mapOutcome f (.next (reply r s)) := by
  rw [mapOutcome_next, reply_mapInfo]

theorem readOut_mapInfo : .next (readOut (s.mapInfo f)) = mapOutcome f (.next (readOut s)) := by
  simp only [readOut, mapInfo_outbuf]
  split
  · exact next_reply_mapInfo f s (.out _)
  · simp [addRunFault, reply, State.mapInfo, Reply.mapInfo]

/-- READ_ERRINFO is the one move that answers a payload, and answers a copy of ERRINFO (R40, R41). -/
theorem hostMove_mapInfo (m : HostMove) :
    hostMove (P.mapInfo f) m (s.mapInfo f) = mapOutcome f (hostMove P m s) := by
  cases m with
  | loadKey | loadIv | loadIn => exact ite_mapOutcome f rfl rfl
  | writeCmd w => exact writeCmd_mapInfo f s w
  | readStatus => exact next_reply_mapInfo f s (.status _)
  | readErrinfo => exact next_reply_mapInfo f s (.errinfo _)
  | readErridx => exact next_reply_mapInfo f s (.erridx _)
  | readCfg => exact next_reply_mapInfo f s (.cfg _)
  | readOut => exact readOut_mapInfo f s
  | readLen which =>
    rw [hostMove, mapInfo_len]
    exact next_reply_mapInfo f s (.len _)
  | rst | rstDuring => rfl

/-! ### The step -/

theorem hostStep_mapInfo : hostStep (P.mapInfo f) (s.mapInfo f) = mapOutcome f (hostStep P s) := by
  simp only [hostStep, mapInfo_host]
  split
  · rfl
  · rename_i m rest _
    exact hostMove_mapInfo f P { s with host := rest } m

theorem busyStep_mapInfo : busyStep (P.mapInfo f) (s.mapInfo f) = mapOutcome f (busyStep P s) := by
  simp only [busyStep, mapInfo_host]
  split
  · rfl
  · rename_i k rest _
    exact engineStep_mapInfo f P { s with host := .rstDuring k :: rest }
  · exact engineStep_mapInfo f P s

theorem stepUnder_mapInfo : stepUnder (P.mapInfo f) (s.mapInfo f) = mapOutcome f (stepUnder P s) := by
  simp only [stepUnder, mapInfo_phase]
  split
  · exact hostStep_mapInfo f P s
  · exact busyStep_mapInfo f P s

/-- Settles O56, one commuting law per operation. -/
theorem payloadsAreOnlyCopied : Obligations.PayloadsAreOnlyCopied :=
  fun _ _ f _ P s => stepUnder_mapInfo f P s

end Sys2Proof.Machine
end

section
/-! The state the machine starts from and keeps (10_state.md R31, R42): every step keeps the invariant, reset establishes
it, and every reset leaves the values of the table of R42. -/

namespace Sys2Proof.Machine

variable {ι : Type} {I : InfoRep ι} {P : Params I} {s t : State ι}

/-- Whoever has the step, the host, the engine or a reset in mid-operation, keeps the invariant (R12, R230). -/
theorem stepUnder_keeps_inv (hi : s.Inv P) (h : stepUnder P s = .next t) : t.Inv P := by
  obtain ⟨-, -, rfl⟩ | ⟨hid, m, rest, -, hm⟩ | ⟨-, rest, -, rfl⟩ | ⟨-, k, rest, -, he⟩ | ⟨-, -, he⟩ := stepUnder_next h
  · exact hi
  · exact hostMove_keeps_inv (inv_of_host hi rest) hid hm
  · exact resetEngine_meets_inv
  · exact engineStep_keeps_inv (inv_of_host hi (.rstDuring k :: rest)) he
  · exact engineStep_keeps_inv hi he

/-- Settles O39, by the laws of the host's moves, of the engine's step and of reset. -/
theorem stepKeepsTheInvariant : Obligations.StepKeepsTheInvariant :=
  ⟨fun _ _ _ _ _ => stepUnder_keeps_inv, fun _ _ => stepUnder_keeps_inv⟩

/-- Resetting the reset state changes nothing. -/
theorem resetEngine_resetOf : resetEngine I (State.resetOf I) = State.resetOf I := rfl

/-- Settles O38: the reset state is the outcome of a reset, which meets the invariant. -/
theorem resetMeetsTheInvariant : Obligations.ResetMeetsTheInvariant := by
  have hinv (ι : Type) (I : InfoRep ι) (P : Params I) : (State.resetOf I).Inv P :=
    resetEngine_resetOf (I := I) ▸ resetEngine_meets_inv
  exact ⟨hinv, hinv _ _ params⟩

/-- RST gives every piece of the engine's state its value of R42, whatever it held (R230). -/
theorem resetEngine_atReset (s : State ι) : (resetEngine I s).atReset I := by
  have hlen (which : LenSel) : (resetEngine I s).len which = 0 := by cases which <;> rfl
  simp [State.atReset, hlen, State.resetOf, State.statusWord, State.busy]

/-- Settles O10: power-on and RST both leave the outcome of a reset. -/
theorem resetValues : Obligations.ResetValues := by
  have hreset (ι : Type) (I : InfoRep ι) : (State.resetOf I).atReset I :=
    resetEngine_resetOf (I := I) ▸ resetEngine_atReset _
  exact ⟨hreset _ _, rfl, hreset, fun _ _ _ _ _ hp hh => ⟨_, stepUnder_host hp hh, resetEngine_atReset _⟩⟩

end Sys2Proof.Machine
end

section
/-! The host's moves in IDLE, one by one (10_state.md R40), and the words it reads STATUS and CFG as (R25, R32). -/

namespace Sys2Proof.Machine

variable {ι : Type} {I : InfoRep ι} {P : Params I} {s t : State ι}

/-- With no host move left a step in IDLE changes nothing (R13, R42; log entry 2). -/
theorem stepUnder_waits (hp : s.phase = .idle) (hh : s.host = []) : stepUnder P s = .next s := by
  simp only [stepUnder, hp, hostStep, hh]

/-- Settles O9. -/
theorem idleEngineWaits : Obligations.IdleEngineWaits :=
  fun _ _ _ _ hp hh => stepUnder_waits hp hh

/-- A word that decodes to a command runs it (R82). -/
theorem writeCmd_of_legal {w : Word} {i : Instr} (hd : decode w = .legal i) : writeCmd I w s = command I i s := by
  rw [writeCmd, hd]

/-- Settles O6: the host's move is WRITE_CMD of a legal word, and `exec` is the command at the default `Info`. -/
theorem stepRunsTheDecodedCommand : Obligations.StepRunsTheDecodedCommand := by
  have hstep (ι : Type) (I : InfoRep ι) (P : Params I) (s : State ι) (w : Word) (rest : List HostMove) (i : Instr)
      (hp : s.phase = .idle) (hh : s.host = .writeCmd w :: rest) (hd : decode w = .legal i) :
      stepUnder P s = command I i { s with host := rest } :=
    (stepUnder_host hp hh).trans (writeCmd_of_legal hd)
  refine ⟨fun _ => rfl, fun P s w rest i hp hh hd => ?_, hstep, exec_eq_command⟩
  rw [exec_eq_command, hstep _ _ P s w rest i hp hh hd]

/-- What a LOAD of `n` bytes answers, by whether they fit (R59; log entry 13). -/
theorem load_by_capacity (n : Nat) (t : State ι) :
    (P.fits n = true → (if P.fits n then .next t else .refused .loadOverCapacity : Outcome ι) = .next t) ∧
    (P.fits n = false →
      (if P.fits n then .next t else .refused .loadOverCapacity : Outcome ι) = .refused .loadOverCapacity) := by
  cases P.fits n <;> simp

/-- Settles O50: the three LOADs are the same test of the capacity. -/
theorem loadMoves : Obligations.LoadMoves := by
  intro ι I P s b rest hp
  refine ⟨fun hh => ?_, fun hh => ?_, fun hh => ?_⟩ <;> rw [stepUnder_host hp hh]
  · exact load_by_capacity b.length { s with host := rest, keybuf := some b }
  · exact load_by_capacity b.length { s with host := rest, ivbuf := some b }
  · exact load_by_capacity b.length { s with host := rest, inbuf := some b }

theorem readOut_present {b : Bytes} (h : s.outbuf = some b) : readOut s = reply (.out b) s := by
  rw [readOut, h]

theorem readOut_absent (h : s.outbuf = none) : readOut s = addRunFault .readOutAbsent (reply .noValue s) := by
  rw [readOut, h]

/-- An absent sequence reads as length 0, like the empty one (R35). -/
theorem lenOf_eq_getD (buf : Option Bytes) : lenOf buf = (buf.getD []).length := by
  cases buf <;> rfl

/-- Settles O51: each READ is the reply of what it reads; READ_OUT by whether there is a result. -/
theorem readMoves : Obligations.ReadMoves := by
  intro ι I P s rest hp
  refine ⟨fun hh => ?_, fun hh => ?_, fun hh => ?_, fun hh => ?_, fun b ho hh => ?_, fun ho hh => ?_,
    fun which b hb hh => ?_⟩ <;> rw [stepUnder_host hp hh]
  · rfl
  · rfl
  · rfl
  · rfl
  · exact congrArg Host.Outcome.next (readOut_present (s := { s with host := rest }) ho)
  · exact congrArg Host.Outcome.next (readOut_absent (s := { s with host := rest }) ho)
  · have hl : s.len which = (b.getD []).length := by
      subst hb
      cases which <;> exact lenOf_eq_getD _
    exact congrArg (fun n => Host.Outcome.next (reply (.len n) { s with host := rest })) hl

/-! ### The layouts of STATUS and CFG: each field stands above the widths of the fields after it -/

section
open BitVec

theorem statusWord_err : s.statusWord.extractLsb' 0 4 = s.err := by
  rw [State.statusWord, extractLsb'_append_eq_right]

theorem statusWord_done : s.statusWord.getLsbD 4 = s.done := by
  simp only [State.statusWord, getLsbD_append]
  simp

theorem statusWord_busy : s.statusWord.getLsbD 5 = s.busy := by
  simp only [State.statusWord, getLsbD_append]
  simp

theorem statusWord_lastop : s.statusWord.extractLsb' 6 2 = s.lastop := by
  simp (disch := decide) only [State.statusWord, extractLsb'_append_eq_of_le]
  exact extractLsb'_append_eq_right

theorem statusWord_zero : s.statusWord.extractLsb' 8 24 = 0#24 := by
  simp (disch := decide) only [State.statusWord, extractLsb'_append_eq_of_le]
  rfl

theorem cfgWord_valid : s.cfgWord.getLsbD 0 = s.cfgValid := by
  simp only [State.cfgWord, getLsbD_append]
  simp

theorem cfgWord_zero_low : s.cfgWord.extractLsb' 1 7 = 0#7 := by
  simp (disch := decide) only [State.cfgWord, extractLsb'_append_eq_of_le]
  exact extractLsb'_append_eq_right

theorem cfgWord_bs : s.cfgWord.extractLsb' 8 8 = s.cfgBs := by
  simp (disch := decide) only [State.cfgWord, extractLsb'_append_eq_of_le]
  exact extractLsb'_append_eq_right

theorem cfgWord_pbs : s.cfgWord.extractLsb' 16 8 = s.cfgPbs := by
  simp (disch := decide) only [State.cfgWord, extractLsb'_append_eq_of_le]
  exact extractLsb'_append_eq_right

theorem cfgWord_zero_high : s.cfgWord.extractLsb' 24 8 = 0#8 := by
  simp (disch := decide) only [State.cfgWord, extractLsb'_append_eq_of_le]
  rfl

end

/-- BUSY says that an operation runs (R32). -/
theorem busy_eq_true : s.busy = true ↔ s.phase ≠ .idle := bne_iff_ne

/-- Settles O52, field by field. -/
theorem statusAndCfgLayout : Obligations.StatusAndCfgLayout := by
  intro s
  have hbusy : s.statusWord.getLsbD 5 = true ↔ s.phase ≠ .idle := by rw [statusWord_busy, busy_eq_true]
  exact ⟨statusWord_err, statusWord_done, hbusy, statusWord_lastop, statusWord_zero, cfgWord_valid, cfgWord_zero_low,
    cfgWord_bs, cfgWord_pbs, cfgWord_zero_high⟩

end Sys2Proof.Machine
end

section
/-! What a step leaves alone: the configuration group, but for a NEW that succeeds and for reset (10_state.md R21,
40_construction.md R93, 70_reset_and_hazards.md R247), and the replies, but for the READ moves (R40). -/

namespace Sys2Proof.Machine

variable {ι : Type} {I : InfoRep ι} {P : Params I} {s t : State ι}

/-- The configuration group (R20 to R24). -/
def State.cfgGroup (s : State ι) : Bool × BitVec 8 × BitVec 8 × Option Bytes :=
  (s.cfgValid, s.cfgBs, s.cfgPbs, s.keystore)

theorem cfgGroup_eq_iff : t.cfgGroup = s.cfgGroup ↔
    t.cfgValid = s.cfgValid ∧ t.cfgBs = s.cfgBs ∧ t.cfgPbs = s.cfgPbs ∧ t.keystore = s.keystore := by
  simp [State.cfgGroup]

/-- The step from `s` to `t` is NEWOP on a supported pair, which `t` holds as its configuration (R147). -/
def State.constructs (P : Params I) (s t : State ι) : Prop :=
  s.phase = .newop ∧ ∃ bs key, s.op = .new bs key ∧ P.ciph.supports key.length bs.toNat = true ∧
    t.keystore = some key ∧ t.cfgBs = bs ∧ t.cfgPbs = bs

/-! ### The engine -/

theorem newop_frame (hp : s.phase = .newop) (h : newop P s = .next t) :
    (t.cfgGroup = s.cfgGroup ∨ s.constructs P t) ∧ t.replies = s.replies := by
  obtain ⟨bs, key, ho, ⟨hs, rfl⟩ | ⟨-, rfl⟩⟩ := newop_next h
  · exact ⟨.inr ⟨hp, bs, key, ho, hs, rfl, rfl, rfl⟩, rfl⟩
  · exact ⟨.inl rfl, rfl⟩

theorem padenc_frame (h : padenc P s = .next t) : t.cfgGroup = s.cfgGroup ∧ t.replies = s.replies := by
  obtain ⟨iv, data, -, -, -, -, rfl⟩ := padenc_next h
  exact ⟨rfl, rfl⟩

theorem sizechk_frame (h : sizechk I s = .next t) : t.cfgGroup = s.cfgGroup ∧ t.replies = s.replies := by
  obtain ⟨iv, data, -, -, ⟨-, rfl⟩ | ⟨-, rfl⟩⟩ := sizechk_next h <;> exact ⟨rfl, rfl⟩

theorem ivload_frame {iv : Bytes} {ph : Phase} (h : ivload I iv ph s = .next t) :
    t.cfgGroup = s.cfgGroup ∧ t.replies = s.replies := by
  obtain ⟨-, rfl⟩ | ⟨-, rfl⟩ := ivload_next h <;> exact ⟨rfl, rfl⟩

theorem encBlkStep_frame (h : encBlkStep P s = .next t) : t.cfgGroup = s.cfgGroup ∧ t.replies = s.replies := by
  obtain ⟨i, n, -, -, ⟨-, hb⟩ | ⟨-, hf⟩⟩ := encBlkStep_next h
  · obtain ⟨key, blk, fb, acc, -, -, -, -, ho⟩ := encblk_next hb
    obtain ⟨info, -, rfl⟩ | ⟨ob, -, rfl⟩ := encblkOn_next ho <;> exact ⟨rfl, rfl⟩
  · obtain ⟨acc, -, rfl⟩ := encfin_next hf
    exact ⟨rfl, rfl⟩

theorem decBlkStep_frame (h : decBlkStep P s = .next t) : t.cfgGroup = s.cfgGroup ∧ t.replies = s.replies := by
  obtain ⟨i, n, -, -, ⟨-, hb⟩ | ⟨-, hf⟩⟩ := decBlkStep_next h
  · obtain ⟨key, blk, fb, acc, -, -, -, -, ho⟩ := decblk_next hb
    obtain ⟨info, -, rfl⟩ | ⟨d, -, rfl⟩ := decblkOn_next ho <;> exact ⟨rfl, rfl⟩
  · obtain ⟨acc, -, ⟨info, -, rfl⟩ | ⟨plain, -, rfl⟩⟩ := paddec_next hf <;> exact ⟨rfl, rfl⟩

/-- The engine writes the configuration in NEWOP only, and answers the host nothing (R40, R148). -/
theorem engineStep_frame (h : engineStep P s = .next t) :
    (t.cfgGroup = s.cfgGroup ∨ s.constructs P t) ∧ t.replies = s.replies := by
  obtain ⟨-, rfl⟩ | ⟨hp, h⟩ | ⟨-, h⟩ | ⟨-, h⟩ | ⟨-, h⟩ | ⟨-, h⟩ | ⟨-, h⟩ | ⟨-, h⟩ := engineStep_next h
  · exact ⟨.inl rfl, rfl⟩
  · exact newop_frame hp h
  · exact (padenc_frame h).imp_left .inl
  · obtain ⟨iv, data, -, hl⟩ := encIvStep_next h
    exact (ivload_frame hl).imp_left .inl
  · exact (encBlkStep_frame h).imp_left .inl
  · exact (sizechk_frame h).imp_left .inl
  · obtain ⟨iv, data, -, hl⟩ := decIvStep_next h
    exact (ivload_frame hl).imp_left .inl
  · exact (decBlkStep_frame h).imp_left .inl

/-! ### The host's moves -/

theorem command_frame {i : Instr} (h : command I i s = .next t) :
    t.cfgGroup = s.cfgGroup ∧ t.replies = s.replies := by
  cases i with
  | new bs => obtain ⟨-, ⟨-, key, -, rfl⟩ | ⟨-, rfl⟩⟩ := commandNew_next h <;> exact ⟨rfl, rfl⟩
  | encrypt => obtain ⟨-, ⟨-, iv, data, -, -, rfl⟩ | ⟨-, rfl⟩⟩ := commandEncrypt_next h <;> exact ⟨rfl, rfl⟩
  | decrypt => obtain ⟨-, ⟨-, iv, data, -, -, rfl⟩ | ⟨-, rfl⟩⟩ := commandDecrypt_next h <;> exact ⟨rfl, rfl⟩

/-- What a host move answers: nothing, or one reply, and a STATUS only as STATUS is (R40). -/
def State.answers (s t : State ι) : Prop :=
  t.replies = s.replies ∨ ∃ r, t.replies = s.replies ++ [r] ∧ ∀ w, r = .status w → w = s.statusWord

/-- A host move changes no configuration but by RST, and answers as its READ says (R40, R93). -/
theorem hostMove_frame {m : HostMove} (h : hostMove P m s = .next t) :
    (t.cfgGroup = s.cfgGroup ∨ t.atReset I) ∧ s.answers t := by
  cases m with
  | loadKey b | loadIv b | loadIn b =>
    simp only [hostMove, loadKey, loadIv, loadIn] at h
    split at h
    · exact next_inj h ▸ ⟨.inl rfl, .inl rfl⟩
    · cases h
  | writeCmd w =>
    obtain ⟨i, -, hc⟩ | ⟨why, -, rfl⟩ := writeCmd_next h
    · exact (command_frame hc).imp .inl .inl
    · exact ⟨.inl rfl, .inl rfl⟩
  | readStatus => exact next_inj h ▸ ⟨.inl rfl, .inr ⟨_, rfl, fun _ e => by injection e with e; exact e.symm⟩⟩
  | readErrinfo | readErridx | readCfg | readLen =>
    exact next_inj h ▸ ⟨.inl rfl, .inr ⟨_, rfl, fun _ e => by cases e⟩⟩
  | readOut =>
    rw [← next_inj h, readOut]
    split <;> exact ⟨.inl rfl, .inr ⟨_, rfl, fun _ e => by cases e⟩⟩
  | rst | rstDuring => exact next_inj h ▸ ⟨.inr (resetEngine_atReset s), .inl rfl⟩

/-! ### The step -/

/-- The configuration group changes only by a NEWOP that succeeds and by reset (R93, R247). -/
theorem stepUnder_cfgGroup (h : stepUnder P s = .next t) :
    t.cfgGroup = s.cfgGroup ∨ t.atReset I ∨ s.constructs P t := by
  obtain ⟨-, -, rfl⟩ | ⟨-, m, rest, -, hm⟩ | ⟨-, rest, -, rfl⟩ | ⟨-, k, rest, -, he⟩ | ⟨-, -, he⟩ := stepUnder_next h
  · exact .inl rfl
  · exact (hostMove_frame hm).1.imp_right .inl
  · exact .inr (.inl (resetEngine_atReset _))
  · exact (engineStep_frame he).1.imp_right .inr
  · exact (engineStep_frame he).1.imp_right .inr

/-- Settles O46, by the three ways a step can treat the configuration group. -/
theorem configurationIsFixedOnce : Obligations.ConfigurationIsFixedOnce := by
  intro ι I P s t h
  obtain hc | hr | hn := stepUnder_cfgGroup h
  · obtain ⟨hv, hrest⟩ := cfgGroup_eq_iff.mp hc
    exact ⟨fun h0 h1 => by simp [hv, h0] at h1, fun _ h1 => .inr ⟨hv.trans h1, hrest⟩⟩
  · exact ⟨fun _ h1 => by simp [hr.1] at h1, fun _ _ => .inl hr⟩
  · refine ⟨fun _ _ => hn, fun hi h1 => ?_⟩
    obtain ⟨-, hp, -⟩ := hi
    simp [State.phaseInv, hn.1, h1] at hp

/-- Only in IDLE is the host answered, and a STATUS as STATUS is (R12, R40). -/
theorem stepUnder_answers (h : stepUnder P s = .next t) :
    t.replies = s.replies ∨ (s.phase = .idle ∧ s.answers t) := by
  obtain ⟨-, -, rfl⟩ | ⟨hid, m, rest, -, hm⟩ | ⟨-, rest, -, rfl⟩ | ⟨-, k, rest, -, he⟩ | ⟨-, -, he⟩ := stepUnder_next h
  · exact .inl rfl
  · exact .inr ⟨hid, (hostMove_frame hm).2⟩
  · exact .inl rfl
  · exact .inl (engineStep_frame he).2
  · exact .inl (engineStep_frame he).2

/-- A STATUS the host reads is the STATUS word of an IDLE state. -/
theorem status_reply_of_step {w : Word} (h : stepUnder P s = .next t) (hr : t.replies = s.replies ++ [.status w]) :
    s.phase = .idle ∧ w = s.statusWord := by
  obtain hs | ⟨hid, hs | ⟨r, hs, hw⟩⟩ := stepUnder_answers h
  · simp [hs] at hr
  · simp [hs] at hr
  · have e : r = .status w := by simpa [hs] using hr
    exact ⟨hid, hw w e⟩

/-- In IDLE the invariant lists the values of STATUS (R32). -/
theorem inv_statusWord_of_idle (hi : s.Inv P) (hid : s.phase = .idle) : s.statusWord ∈ statusValues := by
  obtain ⟨-, hp, -⟩ := hi
  simp only [State.phaseInv, hid] at hp
  obtain ⟨-, -, hs, -⟩ := hp
  exact hs

/-- Settles O53: the host reads STATUS in IDLE, where the invariant lists its values and BUSY is 0. -/
theorem statusTheHostReads : Obligations.StatusTheHostReads := by
  intro ι I P s t w hi h hr
  obtain ⟨hid, rfl⟩ := status_reply_of_step h hr
  exact ⟨inv_statusWord_of_idle hi hid, by rw [statusWord_busy]; simp [State.busy, hid]⟩

end Sys2Proof.Machine
end

section
/-! TRACE is ghost (10_state.md R38): every operation but reset commutes with putting earlier events in front of TRACE, in
the order of the definitions; so a step on another history differs in TRACE alone, and appends the same events. -/

namespace Sys2Proof.Machine

variable {ι : Type} {I : InfoRep ι} (h : List (Event ι)) (P : Params I) (s : State ι)

/-- The state with the events `h` before those of TRACE. -/
def State.withPast (s : State ι) : State ι := { s with trace := h ++ s.trace }

@[simp] theorem withPast_cfgValid : (s.withPast h).cfgValid = s.cfgValid := rfl
@[simp] theorem withPast_keystore : (s.withPast h).keystore = s.keystore := rfl
@[simp] theorem withPast_phase : (s.withPast h).phase = s.phase := rfl
@[simp] theorem withPast_op : (s.withPast h).op = s.op := rfl
@[simp] theorem withPast_fb : (s.withPast h).fb = s.fb := rfl
@[simp] theorem withPast_idx : (s.withPast h).idx = s.idx := rfl
@[simp] theorem withPast_nblk : (s.withPast h).nblk = s.nblk := rfl
@[simp] theorem withPast_work : (s.withPast h).work = s.work := rfl
@[simp] theorem withPast_acc : (s.withPast h).acc = s.acc := rfl
@[simp] theorem withPast_keybuf : (s.withPast h).keybuf = s.keybuf := rfl
@[simp] theorem withPast_ivbuf : (s.withPast h).ivbuf = s.ivbuf := rfl
@[simp] theorem withPast_inbuf : (s.withPast h).inbuf = s.inbuf := rfl
@[simp] theorem withPast_outbuf : (s.withPast h).outbuf = s.outbuf := rfl
@[simp] theorem withPast_host : (s.withPast h).host = s.host := rfl
@[simp] theorem withPast_bs : (s.withPast h).bs = s.bs := rfl
@[simp] theorem withPast_pbs : (s.withPast h).pbs = s.pbs := rfl
@[simp] theorem withPast_space (sp : Space) : (s.withPast h).space sp = s.space sp := by cases sp <;> rfl
@[simp] theorem withPast_len (which : LenSel) : (s.withPast h).len which = s.len which := by cases which <;> rfl

/-- The outcome with the events `h` before those of TRACE in its next state. -/
def outcomeWithPast : Outcome ι → Outcome ι
  | .next t => .next (t.withPast h)
  | .fault r => .fault r
  | .refused r => .refused r

@[simp] theorem outcomeWithPast_next : outcomeWithPast h (.next s) = .next (s.withPast h) := rfl

theorem addEvent_withPast (ev : Event ι) : addEvent ev (s.withPast h) = (addEvent ev s).withPast h := by
  simp [addEvent, State.withPast]

/-- A guard that does not read TRACE is the same with any past. -/
theorem ite_withPast {p : Prop} [Decidable p] {a b a' b' : Outcome ι} (ha : a' = outcomeWithPast h a)
    (hb : b' = outcomeWithPast h b) : (if p then a' else b') = outcomeWithPast h (if p then a else b) := by
  rw [apply_ite (outcomeWithPast h), ha, hb]

/-! ### The engine -/

theorem newop_withPast : newop P (s.withPast h) = outcomeWithPast h (newop P s) := by
  simp only [newop, withPast_op, addEvent_withPast]
  split
  · exact ite_withPast h rfl rfl
  · rfl

theorem ivload_withPast (iv : Bytes) (ph : Phase) :
    ivload I iv ph (s.withPast h) = outcomeWithPast h (ivload I iv ph s) :=
  ite_withPast h rfl rfl

theorem sizechk_withPast : sizechk I (s.withPast h) = outcomeWithPast h (sizechk I s) := by
  simp only [sizechk, withPast_op]
  split
  · exact ite_withPast h rfl (ite_withPast h rfl rfl)
  · rfl

theorem decIvStep_withPast : decIvStep I (s.withPast h) = outcomeWithPast h (decIvStep I s) := by
  simp only [decIvStep, withPast_op]
  split
  · exact ivload_withPast h s _ _
  · rfl

theorem decblkOn_withPast (i : Nat) (key acc : Bytes) (blk fb : Block s.bs) :
    decblkOn P (s.withPast h) i key acc blk fb = outcomeWithPast h (decblkOn P s i key acc blk fb) := by
  simp only [decblkOn, withPast_bs]
  cases P.ciph.dec key s.bs blk with
  | err info | ok d => simp [addEvent, complete, State.withPast]

/-- An operand that is absent is absent with any past. -/
theorem decblk_withPast (i : Nat) : decblk P i (s.withPast h) = outcomeWithPast h (decblk P i s) := by
  dsimp only [decblk, withPast_keystore, withPast_bs, withPast_fb, withPast_acc]
  rw [withPast_space]
  rcases s.keystore with _ | key
  · rfl
  rcases memRead (s.space .opData) (i * s.bs) s.bs with _ | blk
  · rfl
  rcases s.fb with _ | fb
  · rfl
  rcases s.acc with _ | acc
  · rfl
  dsimp only
  split
  · exact decblkOn_withPast h P s ..
  · rfl

theorem paddec_withPast : paddec P (s.withPast h) = outcomeWithPast h (paddec P s) := by
  simp only [paddec, withPast_acc, withPast_pbs, addEvent_withPast]
  split
  · split <;> rfl
  · rfl

theorem decBlkStep_withPast : decBlkStep P (s.withPast h) = outcomeWithPast h (decBlkStep P s) := by
  simp only [decBlkStep, withPast_idx, withPast_nblk]
  split
  · exact ite_withPast h (decblk_withPast h P s _) (ite_withPast h (paddec_withPast h P s) rfl)
  · rfl

theorem padenc_withPast : padenc P (s.withPast h) = outcomeWithPast h (padenc P s) := by
  simp only [padenc, withPast_op, withPast_pbs, addEvent_withPast]
  split
  · exact ite_withPast h rfl (ite_withPast h rfl (ite_withPast h rfl rfl))
  · rfl

theorem encIvStep_withPast : encIvStep I (s.withPast h) = outcomeWithPast h (encIvStep I s) := by
  simp only [encIvStep, withPast_op]
  split
  · exact ivload_withPast h s _ _
  · rfl

theorem encblkOn_withPast (i : Nat) (key acc : Bytes) (blk fb : Block s.bs) :
    encblkOn P (s.withPast h) i key acc blk fb = outcomeWithPast h (encblkOn P s i key acc blk fb) := by
  simp only [encblkOn, withPast_bs]
  cases P.ciph.enc key s.bs (xorblk blk fb) with
  | err info | ok ob => simp [addEvent, complete, State.withPast]

/-- As for DECBLK: an absent operand is absent with any past. -/
theorem encblk_withPast (i : Nat) : encblk P i (s.withPast h) = outcomeWithPast h (encblk P i s) := by
  dsimp only [encblk, withPast_keystore, withPast_work, withPast_bs, withPast_fb, withPast_acc]
  rcases s.keystore with _ | key
  · rfl
  rcases memRead s.work (i * s.bs) s.bs with _ | blk
  · rfl
  rcases s.fb with _ | fb
  · rfl
  rcases s.acc with _ | acc
  · rfl
  dsimp only
  split
  · exact encblkOn_withPast h P s ..
  · rfl

theorem encfin_withPast : encfin I (s.withPast h) = outcomeWithPast h (encfin I s) := by
  simp only [encfin, withPast_acc]
  split <;> rfl

theorem encBlkStep_withPast : encBlkStep P (s.withPast h) = outcomeWithPast h (encBlkStep P s) := by
  simp only [encBlkStep, withPast_idx, withPast_nblk]
  split
  · exact ite_withPast h (encblk_withPast h P s _) (ite_withPast h (encfin_withPast h s) rfl)
  · rfl

theorem engineStep_withPast : engineStep P (s.withPast h) = outcomeWithPast h (engineStep P s) := by
  simp only [engineStep, withPast_phase]
  cases s.phase with
  | idle => rfl
  | newop => exact newop_withPast h P s
  | encPad => exact padenc_withPast h P s
  | encIv => exact encIvStep_withPast h s
  | encBlk => exact encBlkStep_withPast h P s
  | decChk => exact sizechk_withPast h s
  | decIv => exact decIvStep_withPast h s
  | decBlk => exact decBlkStep_withPast h P s

/-! ### The host's moves -/

theorem command_withPast (i : Instr) : command I i (s.withPast h) = outcomeWithPast h (command I i s) := by
  cases i with
  | new | encrypt | decrypt =>
    simp only [command, commandNew, commandEncrypt, commandDecrypt, withPast_phase, withPast_cfgValid, withPast_keybuf,
      withPast_ivbuf, withPast_inbuf]
    split
    · split <;> rfl
    · rfl

theorem writeCmd_withPast (w : Word) : writeCmd I w (s.withPast h) = outcomeWithPast h (writeCmd I w s) := by
  unfold writeCmd
  split
  · exact command_withPast h s _
  · rfl

theorem readOut_withPast : readOut (s.withPast h) = (readOut s).withPast h := by
  simp only [readOut, withPast_outbuf]
  split <;> rfl

/-- Whether a host move is a reset (R40, R230). -/
def HostMove.isReset : HostMove → Bool
  | .rst | .rstDuring _ => true
  | _ => false

/-- No host move but a reset reads or loses the history. -/
theorem hostMove_withPast {m : HostMove} (hm : m.isReset = false) :
    hostMove P m (s.withPast h) = outcomeWithPast h (hostMove P m s) := by
  cases m with
  | loadKey | loadIv | loadIn => exact ite_withPast h rfl rfl
  | writeCmd w => exact writeCmd_withPast h s w
  | readStatus | readErrinfo | readErridx | readCfg => rfl
  | readOut => exact congrArg Host.Outcome.next (readOut_withPast h s)
  | readLen which =>
    rw [hostMove, withPast_len]
    rfl
  | rst | rstDuring => cases hm

/-- A reset leaves the same state whatever the history. -/
theorem hostMove_of_isReset {m : HostMove} (hm : m.isReset = true) :
    hostMove P m (s.withPast h) = .next (resetEngine I s) := by
  cases m with
  | rst | rstDuring => rfl
  | _ => cases hm

/-! ### The step -/

/-- While an operation runs, all but a reset that strikes now keeps the history. -/
theorem busyStep_withPast (hn : ∀ rest, s.host ≠ .rstDuring 0 :: rest) :
    busyStep P (s.withPast h) = outcomeWithPast h (busyStep P s) := by
  simp only [busyStep, withPast_host]
  split
  · exact absurd ‹_› (hn _)
  · rename_i k rest _
    exact engineStep_withPast h P { s with host := .rstDuring k :: rest }
  · exact engineStep_withPast h P s

theorem busyStep_of_reset {rest : List HostMove} (hh : s.host = .rstDuring 0 :: rest) :
    busyStep P (s.withPast h) = .next (resetEngine I { s with host := rest }) := by
  simp only [busyStep, withPast_host, hh]
  rfl

theorem stepUnder_of_busy (hp : s.phase ≠ .idle) : stepUnder P s = busyStep P s := by
  unfold stepUnder
  split
  · exact absurd ‹_› hp
  · rfl

/-- The step at `s` resets the engine, whatever the history. -/
def State.resets (P : Params I) (s : State ι) : Prop :=
  ∃ r, r.atReset I ∧ ∀ h, stepUnder P (s.withPast h) = .next r

/-- A step resets the engine, or does not read the history and only adds to it (R38). -/
theorem stepUnder_resets_or_withPast :
    s.resets P ∨ ∀ h, stepUnder P (s.withPast h) = outcomeWithPast h (stepUnder P s) := by
  by_cases hp : s.phase = .idle
  · cases hh : s.host with
    | nil =>
      refine .inr fun h => ?_
      rw [stepUnder_waits hp hh, stepUnder_waits (s := s.withPast h) hp hh, outcomeWithPast_next]
    | cons m rest =>
      have hstep (h : List (Event ι)) :
          stepUnder P (s.withPast h) = hostMove P m (State.withPast h { s with host := rest }) :=
        stepUnder_host (s := s.withPast h) hp hh
      cases hm : m.isReset with
      | true => exact .inl ⟨_, resetEngine_atReset _, fun h => (hstep h).trans (hostMove_of_isReset h P _ hm)⟩
      | false =>
        refine .inr fun h => ?_
        rw [hstep, stepUnder_host hp hh, hostMove_withPast h P _ hm]
  · have hstep (h : List (Event ι)) : stepUnder P (s.withPast h) = busyStep P (s.withPast h) :=
      stepUnder_of_busy P (s.withPast h) hp
    by_cases hr : ∃ rest, s.host = .rstDuring 0 :: rest
    · obtain ⟨rest, hh⟩ := hr
      exact .inl ⟨_, resetEngine_atReset _, fun h => (hstep h).trans (busyStep_of_reset h P s hh)⟩
    · refine .inr fun h => ?_
      rw [hstep, stepUnder_of_busy P s hp, busyStep_withPast h P s (not_exists.mp hr)]

/-- An outcome with a past is a next state only if the outcome is one. -/
theorem outcomeWithPast_eq_next {o : Outcome ι} {t : State ι} (ht : outcomeWithPast h o = .next t) :
    ∃ t₀, o = .next t₀ ∧ t = t₀.withPast h := by
  cases o with
  | next t₀ => exact ⟨t₀, rfl, (next_inj ht).symm⟩
  | fault | refused => cases ht

/-- With its own history put back in front of an empty one, a state is as it was. -/
theorem withPast_of_empty : State.withPast h { s with trace := [] } = { s with trace := h } := by
  simp [State.withPast]

/-- Settles O47: the step at `s` and on another history are the step on the empty one, with the past put in front. -/
theorem traceIsGhost : Obligations.TraceIsGhost := by
  intro ι I P s t ht
  obtain ⟨r, hr, hstep⟩ | hstep := stepUnder_resets_or_withPast P { s with trace := [] }
  · simp only [withPast_of_empty] at hstep
    obtain rfl : r = t := next_inj ((hstep s.trace).symm.trans ht)
    exact ⟨.inr hr, fun h => ⟨r.trace, hstep h, fun _ _ => .inl hr⟩⟩
  · simp only [withPast_of_empty] at hstep
    obtain ⟨t₀, ht₀, rfl⟩ := outcomeWithPast_eq_next s.trace ((hstep s.trace).symm.trans ht)
    refine ⟨.inl (List.prefix_append _ _), fun h => ⟨h ++ t₀.trace, ?_, fun evs he => .inr ?_⟩⟩
    · rw [hstep h, ht₀]
      rfl
    · rw [List.append_cancel_left he]

end Sys2Proof.Machine
end

section
/-! The host's buffers and the byte-addressed spaces (20_memory.md R50 to R63): a command placed as the host's next move
runs, a step of the engine changes nothing that is the host's, and no step takes a space over the capacity. -/

namespace Sys2Proof

/-- A decoding that is an instruction is legal. -/
theorem Decoded.instr?_eq_some {d : Decoded} {i : Instr} : d.instr? = some i ↔ d = .legal i := by
  cases d <;> simp [Decoded.instr?]

/-- A table word that decodes to an instruction has a legal command word (R82). -/
theorem decode_commandWord {nbits w : Nat} {i : Instr} (h : decodeTableWord nbits w = some i) :
    decode (commandWord nbits w) = .legal i := by
  unfold decodeTableWord at h
  split at h
  · exact Decoded.instr?_eq_some.mp h
  · cases h

end Sys2Proof

namespace Sys2Proof.Machine

variable {ι : Type} {I : InfoRep ι} {P : Params I} {s t : State ι}

/-- Taking a command placed in IDLE from the host's program gives back the state it was placed in. -/
theorem placeCommand_taken (hp : s.phase = .idle) (w : Word) : { placeCommand w s with host := s.host } = s := by
  rw [placeCommand, ← hp]

/-- In IDLE the next step runs a legal command word that is placed (R12, R63, R82). -/
theorem stepUnder_placeCommand {w : Word} {i : Instr} (hp : s.phase = .idle) (hd : decode w = .legal i) :
    stepUnder P (placeCommand w s) = command I i s := by
  rw [stepUnder_host (s := placeCommand w s) (m := .writeCmd w) (rest := s.host) rfl rfl, placeCommand_taken hp]
  exact writeCmd_of_legal hd

/-- Settles O7: the placed word is the command word the table word stands for. -/
theorem placedCommandRunsNext : Obligations.PlacedCommandRunsNext := by
  intro s w i hp hd
  rw [exec_eq_command]
  exact stepUnder_placeCommand hp (decode_commandWord hd)

/-! ### What is the host's, and no micro-operation touches -/

/-- The host's program and the three buffers it loads (R12, R35 to R37). -/
def State.hostGroup (s : State ι) : List HostMove × Option Bytes × Option Bytes × Option Bytes :=
  (s.host, s.keybuf, s.ivbuf, s.inbuf)

theorem hostGroup_eq_iff : t.hostGroup = s.hostGroup ↔
    t.host = s.host ∧ t.keybuf = s.keybuf ∧ t.ivbuf = s.ivbuf ∧ t.inbuf = s.inbuf := by
  simp [State.hostGroup]

theorem newop_hostGroup (h : newop P s = .next t) : t.hostGroup = s.hostGroup := by
  obtain ⟨bs, key, -, ⟨-, rfl⟩ | ⟨-, rfl⟩⟩ := newop_next h <;> rfl

theorem padenc_hostGroup (h : padenc P s = .next t) : t.hostGroup = s.hostGroup := by
  obtain ⟨iv, data, -, -, -, -, rfl⟩ := padenc_next h
  rfl

theorem sizechk_hostGroup (h : sizechk I s = .next t) : t.hostGroup = s.hostGroup := by
  obtain ⟨iv, data, -, -, ⟨-, rfl⟩ | ⟨-, rfl⟩⟩ := sizechk_next h <;> rfl

theorem ivload_hostGroup {iv : Bytes} {ph : Phase} (h : ivload I iv ph s = .next t) : t.hostGroup = s.hostGroup := by
  obtain ⟨-, rfl⟩ | ⟨-, rfl⟩ := ivload_next h <;> rfl

theorem encBlkStep_hostGroup (h : encBlkStep P s = .next t) : t.hostGroup = s.hostGroup := by
  obtain ⟨i, n, -, -, ⟨-, hb⟩ | ⟨-, hf⟩⟩ := encBlkStep_next h
  · obtain ⟨key, blk, fb, acc, -, -, -, -, ho⟩ := encblk_next hb
    obtain ⟨info, -, rfl⟩ | ⟨ob, -, rfl⟩ := encblkOn_next ho <;> rfl
  · obtain ⟨acc, -, rfl⟩ := encfin_next hf
    rfl

theorem decBlkStep_hostGroup (h : decBlkStep P s = .next t) : t.hostGroup = s.hostGroup := by
  obtain ⟨i, n, -, -, ⟨-, hb⟩ | ⟨-, hf⟩⟩ := decBlkStep_next h
  · obtain ⟨key, blk, fb, acc, -, -, -, -, ho⟩ := decblk_next hb
    obtain ⟨info, -, rfl⟩ | ⟨d, -, rfl⟩ := decblkOn_next ho <;> rfl
  · obtain ⟨acc, -, ⟨info, -, rfl⟩ | ⟨plain, -, rfl⟩⟩ := paddec_next hf <;> rfl

/-- The engine works on its latches and its own registers only (R55, R60, R148). -/
theorem engineStep_hostGroup (h : engineStep P s = .next t) : t.hostGroup = s.hostGroup := by
  obtain ⟨-, rfl⟩ | ⟨-, h⟩ | ⟨-, h⟩ | ⟨-, h⟩ | ⟨-, h⟩ | ⟨-, h⟩ | ⟨-, h⟩ | ⟨-, h⟩ := engineStep_next h
  · rfl
  · exact newop_hostGroup h
  · exact padenc_hostGroup h
  · obtain ⟨iv, data, -, hl⟩ := encIvStep_next h
    exact ivload_hostGroup hl
  · exact encBlkStep_hostGroup h
  · exact sizechk_hostGroup h
  · obtain ⟨iv, data, -, hl⟩ := decIvStep_next h
    exact ivload_hostGroup hl
  · exact decBlkStep_hostGroup h

/-- The bytes of a space are those of its content. -/
theorem readByte_congr {sp : Space} (h : t.space sp = s.space sp) (a : Nat) : t.readByte sp a = s.readByte sp a := by
  rw [State.readByte, h, State.readByte]

/-- Settles O45: the step is the engine's, which leaves the host's group and answers the host nothing. -/
theorem engineTouchesNoHostBuffer : Obligations.EngineTouchesNoHostBuffer := by
  intro ι I P s t hp hr h
  rw [stepUnder_busy hp hr] at h
  obtain ⟨hhost, hkey, hiv, hin⟩ := hostGroup_eq_iff.mp (engineStep_hostGroup h)
  obtain ⟨-, hreplies⟩ := engineStep_frame h
  exact ⟨hhost, hreplies, fun a => ⟨readByte_congr (sp := .keybuf) hkey a, readByte_congr (sp := .ivbuf) hiv a,
    readByte_congr (sp := .inbuf) hin a⟩⟩

/-! ### The capacity: what the engine puts into WORK, ACC and OUTBUF fits (R51, R59) -/

theorem stripZeros_length_le (p : Bytes) : (stripZeros p).length ≤ p.length := by
  induction p with
  | nil => exact le_rfl
  | cons b rest ih =>
    unfold stripZeros
    split
    · split <;> simp
    · rename_i c cs hr
      rw [hr] at ih
      simpa using ih

/-- ZeroPad's decode only ever removes bytes (R162). -/
theorem zeroPad_decode_length_le {bs : Nat} {p d : Bytes} (h : (zeroPad I).decode bs p = .ok d) :
    d.length ≤ p.length := by
  simp only [zeroPad, zeroPadDecode] at h
  split at h
  · cases h
    exact stripZeros_length_le p
  · cases h

/-- What is no longer than a space within the capacity fits. -/
theorem fits_of_le_space {n : Nat} (sp : Space) (hw : Memory.wf P s = true) (hn : n ≤ lenOf (s.space sp)) :
    P.fits n = true :=
  fits_mono hn (wf_iff.mp hw sp)

/-- The content of ACC within the capacity fits. -/
theorem acc_fits {acc : Bytes} (hw : Memory.wf P s = true) (ha : s.acc = some acc) : P.fits acc.length = true :=
  fits_of_le_space .acc hw (by rw [State.space, ha, lenOf])

/-- At a block phase of ENCRYPT the accumulator is no longer than the padded plaintext: `|ACC| = IDX·BS` (R29, R143). -/
theorem inv_acc_le_work (hi : s.Inv P) (hp : s.phase = .encBlk) : lenOf s.acc ≤ lenOf s.work := by
  obtain ⟨-, hi, -⟩ := hi
  simp only [State.phaseInv, hp] at hi
  obtain ⟨-, -, iv, data, work, acc, n, i, -, -, hwork, hwl, -, -, hin, hacc, hal, -⟩ := hi
  rw [hacc, hwork]
  exact hal.trans_le ((Nat.mul_le_mul_right _ hin).trans_eq hwl.symm)

/-- At a block phase of DECRYPT it is no longer than the latched ciphertext (R29, R144). -/
theorem inv_acc_le_opData (hi : s.Inv P) (hp : s.phase = .decBlk) : lenOf s.acc ≤ lenOf (s.space .opData) := by
  obtain ⟨-, hi, -⟩ := hi
  simp only [State.phaseInv, hp] at hi
  obtain ⟨-, -, iv, data, acc, n, i, hop, -, hdl, -, -, hin, hacc, hal, -⟩ := hi
  rw [hacc, State.space, hop]
  exact hal.trans_le ((Nat.mul_le_mul_right _ hin).trans_eq hdl.symm)

/-- New contents of WORK and ACC that fit keep every space within the capacity. -/
theorem working_wf {work acc : Option Bytes} (hw : Memory.wf P s = true) (hwork : P.fits (lenOf work) = true)
    (hacc : P.fits (lenOf acc) = true) : Memory.wf P { s with work := work, acc := acc } = true := by
  refine wf_iff.mpr fun sp => ?_
  have hs := wf_iff.mp hw sp
  cases sp with
  | work => exact hwork
  | acc => exact hacc
  | keybuf | ivbuf | inbuf | outbuf | opKey | opIv | opData => exact hs

theorem newop_keeps_wf (hw : Memory.wf P s = true) (h : newop P s = .next t) : Memory.wf P t = true := by
  obtain ⟨bs, key, -, ⟨-, rfl⟩ | ⟨-, rfl⟩⟩ := newop_next h <;> exact complete_wf hw fits_zero

/-- PADENC is guarded by the capacity (R59, R140). -/
theorem padenc_keeps_wf (hw : Memory.wf P s = true) (h : padenc P s = .next t) : Memory.wf P t = true := by
  obtain ⟨iv, data, -, -, -, hfits, rfl⟩ := padenc_next h
  exact working_wf hw hfits fits_zero

theorem sizechk_keeps_wf (hw : Memory.wf P s = true) (h : sizechk I s = .next t) : Memory.wf P t = true := by
  obtain ⟨iv, data, -, -, ⟨-, rfl⟩ | ⟨-, rfl⟩⟩ := sizechk_next h
  · exact complete_wf hw fits_zero
  · exact working_wf hw (wf_iff.mp hw .work) fits_zero

/-- Recording the fault of an IvSizeError touches no space (R205). -/
theorem raiseIvSize_wf {n : Nat} (hw : Memory.wf P s = true) : Memory.wf P (raiseIvSize I n s) = true :=
  show Memory.wf P (complete .ivSize (I.number n) 0 none s) = true from complete_wf hw fits_zero

theorem ivload_keeps_wf {iv : Bytes} {ph : Phase} (hw : Memory.wf P s = true) (h : ivload I iv ph s = .next t) :
    Memory.wf P t = true := by
  obtain ⟨-, rfl⟩ | ⟨-, rfl⟩ := ivload_next h
  · exact hw
  · exact raiseIvSize_wf hw

/-- ENCBLK appends to ACC, which stays within WORK; ENCFIN delivers ACC (R143, R145). -/
theorem encBlkStep_keeps_wf (hi : s.Inv P) (hp : s.phase = .encBlk) (hw : Memory.wf P s = true)
    (h : encBlkStep P s = .next t) : Memory.wf P t = true := by
  have hit : t.Inv P := encBlkStep_keeps_inv hi hp h
  obtain ⟨i, n, -, -, ⟨-, hb⟩ | ⟨-, hf⟩⟩ := encBlkStep_next h
  · obtain ⟨key, blk, fb, acc, -, -, -, -, ho⟩ := encblk_next hb
    obtain ⟨info, -, rfl⟩ | ⟨ob, -, rfl⟩ := encblkOn_next ho
    · exact complete_wf hw fits_zero
    · exact working_wf hw (wf_iff.mp hw .work) (fits_of_le_space .work hw (inv_acc_le_work hit hp))
  · obtain ⟨acc, ha, rfl⟩ := encfin_next hf
    exact complete_wf hw (acc_fits hw ha)

/-- DECBLK appends to ACC, which stays within the latched ciphertext; what ZeroPad makes of ACC is no longer (R59, R144,
R146). -/
theorem decBlkStep_keeps_wf (hpad : P.pad = zeroPad I) (hi : s.Inv P) (hp : s.phase = .decBlk)
    (hw : Memory.wf P s = true) (h : decBlkStep P s = .next t) : Memory.wf P t = true := by
  have hit : t.Inv P := decBlkStep_keeps_inv hi hp h
  obtain ⟨i, n, -, -, ⟨-, hb⟩ | ⟨-, hf⟩⟩ := decBlkStep_next h
  · obtain ⟨key, blk, fb, acc, -, -, -, -, ho⟩ := decblk_next hb
    obtain ⟨info, -, rfl⟩ | ⟨d, -, rfl⟩ := decblkOn_next ho
    · exact complete_wf hw fits_zero
    · exact working_wf hw (wf_iff.mp hw .work) (fits_of_le_space .opData hw (inv_acc_le_opData hit hp))
  · obtain ⟨acc, ha, ⟨info, -, rfl⟩ | ⟨plain, hd, rfl⟩⟩ := paddec_next hf
    · exact complete_wf hw fits_zero
    · rw [hpad] at hd
      exact complete_wf hw (fits_mono (zeroPad_decode_length_le hd) (acc_fits hw ha))

/-- The engine keeps every space within the capacity (R59, R148). -/
theorem engineStep_keeps_wf (hpad : P.pad = zeroPad I) (hi : s.Inv P) (hw : Memory.wf P s = true)
    (h : engineStep P s = .next t) : Memory.wf P t = true := by
  obtain ⟨-, rfl⟩ | ⟨-, h⟩ | ⟨-, h⟩ | ⟨-, h⟩ | ⟨hp, h⟩ | ⟨-, h⟩ | ⟨-, h⟩ | ⟨hp, h⟩ := engineStep_next h
  · exact hw
  · exact newop_keeps_wf hw h
  · exact padenc_keeps_wf hw h
  · obtain ⟨iv, data, -, hl⟩ := encIvStep_next h
    exact ivload_keeps_wf hw hl
  · exact encBlkStep_keeps_wf hi hp hw h
  · exact sizechk_keeps_wf hw h
  · obtain ⟨iv, data, -, hl⟩ := decIvStep_next h
    exact ivload_keeps_wf hw hl
  · exact decBlkStep_keeps_wf hpad hi hp hw h

/-- A LOAD of `n` bytes that answers a next state fits (R59; log entry 13). -/
theorem load_next {n : Nat} {u : State ι}
    (h : (if P.fits n then .next u else .refused .loadOverCapacity : Outcome ι) = .next t) :
    P.fits n = true ∧ t = u := by
  split at h
  · exact ⟨‹_›, (next_inj h).symm⟩
  · cases h

/-- A host move keeps every space within the capacity: a LOAD that does not fit is refused (R40, R59). -/
theorem hostMove_keeps_wf {m : HostMove} (hw : Memory.wf P s = true) (h : hostMove P m s = .next t) :
    Memory.wf P t = true := by
  cases m with
  | loadKey b =>
    obtain ⟨hfits, rfl⟩ := load_next h
    exact (load_wf hw hfits).1
  | loadIv b =>
    obtain ⟨hfits, rfl⟩ := load_next h
    exact (load_wf hw hfits).2.1
  | loadIn b =>
    obtain ⟨hfits, rfl⟩ := load_next h
    exact (load_wf hw hfits).2.2
  | writeCmd w =>
    obtain ⟨i, -, hc⟩ | ⟨why, -, rfl⟩ := writeCmd_next h
    · exact command_wf hw hc
    · exact hw
  | readOut =>
    rw [← next_inj h, readOut]
    split <;> exact hw
  | rst | rstDuring => exact next_inj h ▸ resetEngine_wf
  | readStatus | readErrinfo | readErridx | readCfg | readLen => exact next_inj h ▸ hw

/-- Settles O41, by who has the step: the host, the engine, or a reset in mid-operation. -/
theorem spacesStayWithinCapacity : Obligations.SpacesStayWithinCapacity := by
  intro ι I P s t hpad hi hw h
  obtain ⟨-, -, rfl⟩ | ⟨-, m, rest, -, hm⟩ | ⟨-, rest, -, rfl⟩ | ⟨-, k, rest, -, he⟩ | ⟨-, -, he⟩ := stepUnder_next h
  · exact hw
  · exact hostMove_keeps_wf (s := { s with host := rest }) hw hm
  · exact resetEngine_wf
  · exact engineStep_keeps_wf (s := { s with host := .rstDuring k :: rest }) hpad hi hw he
  · exact engineStep_keeps_wf hpad hi hw he

end Sys2Proof.Machine
end

section
/-! Command words (30_encoding.md R71 to R74, R82): a word decodes to a command exactly when it is the encoding of that
command and the command is well-formed; the rows of the opcode map; the illegal words, and what writing one does. -/

namespace Sys2Proof

/-! ### Decoding is the inverse of encoding -/

theorem encode_encrypt : encode .encrypt = 2#32 := rfl

theorem encode_decrypt : encode .decrypt = 3#32 := rfl

/-- Settles O1, by the three commands; the block size of NEW comes back because it fits BSARG. -/
theorem decodeOfEncode : Obligations.DecodeOfEncode := by
  intro i hwf
  cases i with
  | new bs =>
    have hbs : bs ≤ 255 := of_decide_eq_true hwf
    have hzero : (256 * (bs % 256) + 1) / 65536 = 0 := by omega
    have hop : (256 * (bs % 256) + 1) % 256 = 1 := by omega
    have harg : (256 * (bs % 256) + 1) / 256 % 256 = bs := by omega
    rw [decode_eq, encode_new_toNat, hzero, hop, harg]
    rfl
  | encrypt | decrypt => rfl

/-- A word decodes to NEW when its ZERO is 0 and its OPCODE is 1; the block size is its BSARG (R71, R73). -/
theorem decode_eq_new_iff {w : Word} {bs : Nat} :
    decode w = .legal (.new bs) ↔ w.toNat / 65536 = 0 ∧ w.toNat % 256 = 1 ∧ bs = w.toNat / 256 % 256 := by
  rw [decode_eq]
  split_ifs <;> simp <;> omega

/-- ENCRYPT has one word (R73). -/
theorem decode_eq_encrypt_iff {w : Word} : decode w = .legal .encrypt ↔ w.toNat = 2 := by
  rw [decode_eq]
  split_ifs <;> simp <;> omega

/-- DECRYPT has one word (R73). -/
theorem decode_eq_decrypt_iff {w : Word} : decode w = .legal .decrypt ↔ w.toNat = 3 := by
  rw [decode_eq]
  split_ifs <;> simp <;> omega

/-- Settles O2, by the three commands: the fields the decoder read determine the number of the word. -/
theorem encodeOfDecode : Obligations.EncodeOfDecode := by
  intro w i h
  cases i with
  | new bs =>
    obtain ⟨hzero, hop, rfl⟩ := decode_eq_new_iff.mp h
    refine ⟨decide_eq_true (by omega), BitVec.eq_of_toNat_eq ?_⟩
    rw [encode_new_toNat]
    omega
  | encrypt => exact ⟨rfl, BitVec.eq_of_toNat_eq (decode_eq_encrypt_iff.mp h).symm⟩
  | decrypt => exact ⟨rfl, BitVec.eq_of_toNat_eq (decode_eq_decrypt_iff.mp h).symm⟩

/-- The words of a command: its encoding, when it is well-formed, and no other (R73, R82). -/
theorem decode_eq_legal_iff {w : Word} {i : Instr} : decode w = .legal i ↔ i.wf = true ∧ encode i = w := by
  refine ⟨encodeOfDecode w i, ?_⟩
  rintro ⟨hwf, rfl⟩
  exact decodeOfEncode i hwf

/-! ### The rows of the opcode map -/

theorem opcodeOf_and (v w : Word) : opcodeOf (v &&& w) = opcodeOf v &&& opcodeOf w :=
  BitVec.extractLsb'_and

theorem zeroOf_and (v w : Word) : zeroOf (v &&& w) = zeroOf v &&& zeroOf w :=
  BitVec.extractLsb'_and

/-- The mask of NEW's row keeps OPCODE and ZERO and drops BSARG (R73). -/
theorem fields_of_new_row {w : Word} (h : w &&& 0xFFFF00FF#32 = 0x00000001#32) :
    zeroOf w = 0#16 ∧ opcodeOf w = 1#8 := by
  have hzero := congrArg zeroOf h
  have hop := congrArg opcodeOf h
  rw [zeroOf_and, show zeroOf 0xFFFF00FF#32 = BitVec.allOnes 16 by decide, BitVec.and_allOnes] at hzero
  rw [opcodeOf_and, show opcodeOf 0xFFFF00FF#32 = BitVec.allOnes 8 by decide, BitVec.and_allOnes] at hop
  exact ⟨hzero, hop⟩

/-- The row of NEW (R73). -/
theorem exists_decode_eq_new_iff {w : Word} :
    (∃ bs, decode w = .legal (.new bs)) ↔ w &&& 0xFFFF00FF#32 = 0x00000001#32 := by
  constructor
  · rintro ⟨bs, h⟩
    obtain ⟨-, rfl⟩ := decode_eq_legal_iff.mp h
    exact Laws.new_word_masked bs
  · intro h
    obtain ⟨hzero, hop⟩ := fields_of_new_row h
    exact ⟨_, decode_eq_new_iff.mpr
      ⟨(zeroOf_eq_zero_iff w).mp hzero, (opcodeOf_eq_iff w (by omega)).mp hop, rfl⟩⟩

/-- Settles O3: NEW by the fields its mask keeps, the other two rows by their single word. -/
theorem commandsAreTheirOpcodeRows : Obligations.CommandsAreTheirOpcodeRows := by
  refine ⟨fun w => ⟨exists_decode_eq_new_iff, ?_, ?_, ?_⟩, by decide⟩
  · rw [decode_eq_legal_iff, Laws.and_all, encode_encrypt]
    exact ⟨fun h => h.2.symm, fun h => ⟨rfl, h.symm⟩⟩
  · rw [decode_eq_legal_iff, Laws.and_all, encode_decrypt]
    exact ⟨fun h => h.2.symm, fun h => ⟨rfl, h.symm⟩⟩
  · intro bs h
    obtain ⟨-, -, hbs⟩ := decode_eq_new_iff.mp h
    exact hbs

/-- Settles O5, by running the decoder on the thirteen words. -/
theorem writtenWordsDecode : Obligations.WrittenWordsDecode := by
  unfold Obligations.WrittenWordsDecode
  decide

/-- R74's list of the illegal words, field by field. -/
theorem exists_decode_eq_illegal_iff {w : Word} : (∃ why, decode w = .illegal why) ↔
    (w.toNat % 256 = 0 ∨ 4 ≤ w.toNat % 256 ∨ w.toNat / 65536 ≠ 0 ∨
      ((w.toNat % 256 = 2 ∨ w.toNat % 256 = 3) ∧ w.toNat / 256 % 256 ≠ 0)) := by
  rw [decode_eq]
  split_ifs <;> simp <;> omega

end Sys2Proof

namespace Sys2Proof.Machine

variable {ι : Type} {I : InfoRep ι} {s : State ι}

/-- A word that decodes to no command is rejected (R74, R138 USAGE). -/
theorem writeCmd_of_illegal {w : Word} {why : Illegal} (hd : decode w = .illegal why) :
    writeCmd I w s = .next (usage I w s) := by
  rw [writeCmd, hd]

/-- Settles O4: the decoder's branches, and the host's move WRITE_CMD of an illegal word, which is USAGE of it. -/
theorem illegalWordsAreRejected : Obligations.IllegalWordsAreRejected := by
  refine ⟨fun _ => exists_decode_eq_illegal_iff, ?_⟩
  rintro ι I P s w rest hp hh ⟨why, hd⟩
  exact (stepUnder_host hp hh).trans (writeCmd_of_illegal hd)

end Sys2Proof.Machine
end

section
/-! NEW from acceptance to completion (40_construction.md R91, R93): the word a rejected NEW is reported with, the two
outcomes of NEWOP, and COMPLETE of a state whose working group holds nothing. -/

namespace Sys2Proof

/-- The word of NEW: opcode 1 with the block size above it (R71 to R73). -/
theorem encode_new {bs : Nat} (hbs : bs ≤ 255) : encode (.new bs) = BitVec.ofNat 32 (1 + 256 * bs) := by
  apply BitVec.eq_of_toNat_eq
  rw [encode_new_toNat, BitVec.toNat_ofNat]
  omega

end Sys2Proof

namespace Sys2Proof.Machine

variable {ι : Type} {I : InfoRep ι} {P : Params I} {s : State ι}

/-- NEWOP constructs the engine when the cipher supports the pair (R92, R147). -/
theorem newop_of_supported {bs : BitVec 8} {key : Bytes} (ho : s.op = .new bs key)
    (hs : P.ciph.supports key.length bs.toNat = true) :
    newop P s = .next (complete .ok (I.number 0) 0 none
      { addEvent (.evNew key.length bs.toNat (.ok ())) s with
        keystore := some key, cfgBs := bs, cfgPbs := bs, cfgValid := true }) := by
  rw [newop, ho]
  exact if_pos hs

/-- NEWOP raises ConfigurationError, with the cipher's payload, when it does not (R92, R147). -/
theorem newop_of_unsupported {bs : BitVec 8} {key : Bytes} (ho : s.op = .new bs key)
    (hs : P.ciph.supports key.length bs.toNat = false) :
    newop P s = .next (complete .configuration (P.ciph.cfgErr key.length bs.toNat) 0 none
      (addEvent (.evNew key.length bs.toNat (.err (P.ciph.cfgErr key.length bs.toNat))) s)) := by
  rw [newop, ho]
  exact if_neg (by simp [hs])

/-- In phase NEWOP the step is NEWOP, when no reset in mid-operation stands next (R148). -/
theorem stepUnder_newop (hp : s.phase = .newop) (hr : s.rstPending = false) : stepUnder P s = newop P s := by
  rw [stepUnder_busy (by simp [hp]) hr]
  simp only [engineStep, hp]

/-- In IDLE the working group and OP hold nothing (R31). -/
theorem inv_quiet_of_idle (hi : s.Inv P) (hid : s.phase = .idle) : s.quiet ∧ s.op = .none := by
  obtain ⟨-, hp, -⟩ := hi
  simp only [State.phaseInv, hid] at hp
  exact ⟨hp.1, hp.2.1⟩

/-- What COMPLETE does when the working group holds nothing: it reports, and the engine returns to IDLE (R31, R139). -/
theorem complete_of_quiet {k : ErrKind} {info : ι} {i : Nat} {out : Option Bytes} (hq : s.quiet) :
    complete k info i out s = { s with
      err := k.code, errinfo := info, erridx := i, outbuf := out, done := true, lastop := s.op.lastop
      op := .none, phase := .idle } := by
  obtain ⟨hfb, hblk, htmp, houtb, hidx, hnblk, hwork, hacc⟩ := hq
  simp only [complete, hfb, hblk, htmp, houtb, hidx, hnblk, hwork, hacc]

/-- Settles O27: a rejected NEW is USAGE of its word; an accepted one stands in phase NEWOP, where the cipher's answer
decides between the two outcomes, and its completion puts PHASE and OP back to what they were in IDLE. -/
theorem newCommand : Obligations.NewCommand := by
  intro P s bs hbs hi hid hr
  obtain ⟨hq, hop⟩ := inv_quiet_of_idle hi hid
  have hval : (BitVec.ofNat 8 bs).toNat = bs := (BitVec.toNat_ofNat bs 8).trans (Nat.mod_eq_of_lt (by omega))
  refine ⟨fun hrej => ?_, fun key hv hk => ⟨_, commandNew_accepts hid hv hk, rfl, fun hs => ?_, fun hs => ?_⟩⟩
  · refine (commandNew_rejects hid hrej).trans ?_
    rw [encode_new hbs]
    rfl
  · rw [stepUnder_newop (by rfl) (by exact hr), newop_of_supported (by rfl) (by rwa [hval]),
      complete_of_quiet (by exact hq), hval, hop, hid]
    rfl
  · rw [stepUnder_newop (by rfl) (by exact hr), newop_of_unsupported (by rfl) (by rwa [hval]),
      complete_of_quiet (by exact hq), hval, hop, hid]
    rfl

end Sys2Proof.Machine
end

section
/-! The collaborator calls of the reference functions (41_encrypt.md R109, 42_decrypt.md R124): the calls of a chain are
read off its result, once for both directions. -/

namespace Sys2Proof.Machine

variable {ι : Type} {I : InfoRep ι} {P : Params I}

/-- The cipher calls `ev i`, `ev (i + 1)`, … in index order, each answered with a value. -/
def callsAnswered (ev : Nat → Bytes → Result Bytes ι → Event ι) (i : Nat) (l : List (Event ι)) : Prop :=
  ∀ j, j < l.length → ∃ x y, l[j]? = some (ev (i + j) x (.ok y))

/-- The cipher calls from `ev i` on in index order, of which the last, `ev idx`, is the first one to fail. -/
def callsFailed (ev : Nat → Bytes → Result Bytes ι → Event ι) (i idx : Nat) (info : ι) (l : List (Event ι)) : Prop :=
  ∃ l' x, l = l' ++ [ev idx x (.err info)] ∧ idx = i + l'.length ∧ callsAnswered ev i l'

/-- The calls a chain with result `r` makes from block `i` on, with `left` blocks still to do. -/
def chainCalls (ev : Nat → Bytes → Result Bytes ι → Event ι) (left i : Nat) (r : Res Bytes ι)
    (l : List (Event ι)) : Prop :=
  match r with
  | .ok _ => l.length = left ∧ callsAnswered ev i l
  | .err _ info idx => callsFailed ev i idx info l

section
variable {ev : Nat → Bytes → Result Bytes ι → Event ι} {i idx left : Nat} {info : ι} {l : List (Event ι)}

theorem callsAnswered_nil : callsAnswered ev i [] := fun _ hj => absurd hj (Nat.not_lt_zero _)

theorem callsAnswered_cons (x y : Bytes) (h : callsAnswered ev (i + 1) l) :
    callsAnswered ev i (ev i x (.ok y) :: l) := by
  rintro (_ | j) hj
  · exact ⟨x, y, rfl⟩
  · obtain ⟨x', y', hx⟩ := h j (Nat.lt_of_succ_lt_succ hj)
    exact ⟨x', y', by rw [List.getElem?_cons_succ, hx, Nat.add_right_comm, Nat.add_assoc]⟩

theorem callsFailed_cons (x y : Bytes) (h : callsFailed ev (i + 1) idx info l) :
    callsFailed ev i idx info (ev i x (.ok y) :: l) := by
  obtain ⟨l', x', rfl, rfl, ha⟩ := h
  exact ⟨ev i x (.ok y) :: l', x', rfl, by rw [List.length_cons]; omega, callsAnswered_cons x y ha⟩

/-- One answered call in front of the calls of the rest of the chain. -/
theorem chainCalls_cons {r : Res Bytes ι} (x y : Bytes) (h : chainCalls ev left (i + 1) r l) :
    chainCalls ev (left + 1) i r (ev i x (.ok y) :: l) := by
  cases r with
  | ok out => exact ⟨congrArg (· + 1) h.1, callsAnswered_cons x y h.2⟩
  | err kind info idx => exact callsFailed_cons x y h

theorem callsAnswered_from_zero (h : callsAnswered ev 0 l) :
    ∀ j, j < l.length → ∃ x y, l[j]? = some (ev j x (.ok y)) := by
  simpa only [callsAnswered, Nat.zero_add] using h

/-- Calls from index 0 on that end in a failure at `idx`, position by position. -/
theorem callsFailed_from_zero (h : callsFailed ev 0 idx info l) :
    l.length = idx + 1 ∧ (∀ m, m < idx → ∃ x y, l[m]? = some (ev m x (.ok y))) ∧
      ∃ x, l[idx]? = some (ev idx x (.err info)) := by
  obtain ⟨l', x, rfl, rfl, ha⟩ := h
  rw [Nat.zero_add]
  refine ⟨List.length_append, fun m hm => ?_, x, List.getElem?_concat_length⟩
  rw [List.getElem?_append_left hm]
  exact callsAnswered_from_zero ha m hm

end

/-! ### The two chains -/

theorem chainEnc_calls (c : BlockCipher ι) (key : Bytes) (bs : Nat) (padded : Bytes) (left i : Nat) (fb : Block bs)
    (out : Bytes) :
    chainCalls .evEnc left i (chainEnc c key bs padded left i fb out) (chainEncEvents c key bs padded left i fb) := by
  induction left generalizing i fb out with
  | zero => exact ⟨rfl, callsAnswered_nil⟩
  | succ left ih =>
    simp only [chainEnc, chainEncEvents]
    cases c.enc key bs (xorblk (blockAt bs padded i) fb) with
    | err info => exact ⟨[], _, rfl, rfl, callsAnswered_nil⟩
    | ok ob => exact chainCalls_cons _ _ (ih (i + 1) ob _)

theorem chainDec_calls (c : BlockCipher ι) (key : Bytes) (bs : Nat) (ct : Bytes) (left i : Nat) (fb : Block bs)
    (acc : Bytes) :
    chainCalls .evDec left i (chainDec c key bs ct left i fb acc) (chainDecEvents c key bs ct left i) := by
  induction left generalizing i fb acc with
  | zero => exact ⟨rfl, callsAnswered_nil⟩
  | succ left ih =>
    simp only [chainDec, chainDecEvents]
    cases c.dec key bs (blockAt bs ct i) with
    | err info => exact ⟨[], _, rfl, rfl, callsAnswered_nil⟩
    | ok d => exact chainCalls_cons _ _ (ih (i + 1) _ _)

/-! ### ENCRYPT -/

section
variable (P) (key iv data : Bytes) (bs pbs : Nat)

/-- An IV of the wrong length leaves the call of `Pad.encode` alone (R109). -/
theorem encryptEvents_of_wrong_iv (hiv : iv.length ≠ bs) :
    encryptEvents P key bs pbs iv data = [.evPadEncode pbs data (P.pad.encode pbs data)] := by
  simp only [encryptEvents, asBlock_eq_none.mpr hiv]

theorem cbcEncrypt_of_wrong_iv (hiv : iv.length ≠ bs) :
    cbcEncrypt P key bs pbs iv data = .err .ivSize (I.number iv.length) 0 := by
  simp only [cbcEncrypt, asBlock_eq_none.mpr hiv]

/-- After `Pad.encode`, an IV of one block gives the calls of the chain (R109). -/
theorem encryptEvents_of_block_iv (hiv : iv.length = bs) :
    ∃ l, encryptEvents P key bs pbs iv data = .evPadEncode pbs data (P.pad.encode pbs data) :: l ∧
      chainCalls .evEnc ((P.pad.encode pbs data).length / bs) 0 (cbcEncrypt P key bs pbs iv data) l := by
  simp only [encryptEvents, cbcEncrypt, asBlock_of_length hiv]
  exact ⟨_, rfl, chainEnc_calls _ _ _ _ _ _ _ _⟩

/-! ### DECRYPT -/

/-- Nothing is called when the size or the IV's length is wrong (R124). -/
theorem decryptEvents_of_rejected (h : data.length % bs ≠ 0 ∨ iv.length ≠ bs) :
    decryptEvents P key bs pbs iv data = [] := by
  unfold decryptEvents
  split
  · rfl
  · next hlen => exact if_pos (h.resolve_left hlen)

/-- The three ends of the recovery: the size is wrong, the IV's length is wrong, or the chain runs (R121). -/
theorem cbcRecover_cases :
    (∃ info, cbcRecover P key bs iv data = .err .invalidSize info 0) ∨
    (∃ info, cbcRecover P key bs iv data = .err .ivSize info 0) ∨
    (data.length % bs = 0 ∧ ∃ hiv : iv.length = bs,
      cbcRecover P key bs iv data = chainDec P.ciph key bs data (data.length / bs) 0 ⟨iv, hiv⟩ []) := by
  by_cases hlen : data.length % bs = 0
  · by_cases hiv : iv.length = bs
    · exact .inr (.inr ⟨hlen, hiv, by simp [cbcRecover, hlen, asBlock_of_length hiv]⟩)
    · exact .inr (.inl ⟨_, by simp only [cbcRecover, hlen, asBlock_eq_none.mpr hiv]; rfl⟩)
  · exact .inl ⟨_, if_pos hlen⟩

end

section
variable {key iv data : Bytes} {bs pbs : Nat}

/-- A recovery never ends in a PaddingError (R184). -/
theorem cbcRecover_ne_padding {info : ι} {idx : Nat} : cbcRecover P key bs iv data ≠ .err .padding info idx := by
  intro h
  obtain ⟨_, hr⟩ | ⟨_, hr⟩ | ⟨-, _, hr⟩ := cbcRecover_cases P key iv data bs <;> rw [hr] at h
  · cases h
  · cases h
  · cases chainDec_err h

/-- A decryption succeeds when the recovery does and the deframing of its bytes does (R184). -/
theorem cbcDecrypt_ok {plain : Bytes} (h : cbcDecrypt P key bs pbs iv data = .ok plain) :
    ∃ acc, cbcRecover P key bs iv data = .ok acc ∧ P.pad.decode pbs acc = .ok plain := by
  unfold cbcDecrypt at h
  split at h
  · cases h
  · next acc hr =>
    split at h
    · cases h
    · next hd => exact ⟨acc, hr, hd.trans (by cases h; rfl)⟩

/-- A decryption fails when the recovery fails, with its error, or when the deframing of its bytes does (R184). -/
theorem cbcDecrypt_err {kind : ErrKind} {info : ι} {idx : Nat}
    (h : cbcDecrypt P key bs pbs iv data = .err kind info idx) :
    cbcRecover P key bs iv data = .err kind info idx ∨
      kind = .padding ∧ ∃ acc, cbcRecover P key bs iv data = .ok acc ∧ P.pad.decode pbs acc = .err info := by
  unfold cbcDecrypt at h
  split at h
  · next hr => exact .inl (hr.trans (by cases h; rfl))
  · next acc hr =>
    split at h
    · next hd =>
      cases h
      exact .inr ⟨rfl, acc, hr, hd⟩
    · cases h

/-- A recovery that succeeds has made every cipher call, and `Pad.decode` is called after them (R124). -/
theorem decryptEvents_of_recovered {acc : Bytes} (h : cbcRecover P key bs iv data = .ok acc) :
    ∃ l, decryptEvents P key bs pbs iv data = l ++ [.evPadDecode pbs acc (P.pad.decode pbs acc)] ∧
      l.length = data.length / bs ∧ callsAnswered .evDec 0 l := by
  obtain ⟨_, hr⟩ | ⟨_, hr⟩ | ⟨hlen, hiv, hr⟩ := cbcRecover_cases P key iv data bs
  · simp [hr] at h
  · simp [hr] at h
  · have hcalls := chainDec_calls P.ciph key bs data (data.length / bs) 0 ⟨iv, hiv⟩ []
    rw [← hr, h] at hcalls
    exact ⟨_, by simp [decryptEvents, hlen, hiv, h], hcalls⟩

/-- A recovery that fails in the cipher ends the calls there (R124). -/
theorem decryptEvents_of_cipher_error {info : ι} {idx : Nat}
    (h : cbcRecover P key bs iv data = .err .cipher info idx) :
    callsFailed .evDec 0 idx info (decryptEvents P key bs pbs iv data) := by
  obtain ⟨_, hr⟩ | ⟨_, hr⟩ | ⟨hlen, hiv, hr⟩ := cbcRecover_cases P key iv data bs
  · simp [hr] at h
  · simp [hr] at h
  · have hcalls := chainDec_calls P.ciph key bs data (data.length / bs) 0 ⟨iv, hiv⟩ []
    rw [← hr, h] at hcalls
    simpa [decryptEvents, hlen, hiv, h, chainCalls] using hcalls

end

/-- Settles O31: each clause is read off the calls of the chain that its result names. -/
theorem collaboratorCalls : Obligations.CollaboratorCalls := by
  intro ι I P key iv data bs pbs _ _
  refine ⟨?_, fun plain h => ?_, fun info h => ?_, fun info j h => ?_,
    decryptEvents_of_rejected P key iv data bs pbs⟩
  · by_cases hiv : iv.length = bs
    · obtain ⟨l, hl, hcalls⟩ := encryptEvents_of_block_iv P key iv data bs pbs hiv
      refine ⟨l, hl, fun ct h => ?_, fun info j h => ?_, fun hne => absurd hiv hne⟩ <;> rw [h] at hcalls
      · exact ⟨hcalls.1, callsAnswered_from_zero hcalls.2⟩
      · exact callsFailed_from_zero hcalls
    · refine ⟨[], encryptEvents_of_wrong_iv P key iv data bs pbs hiv, ?_, ?_, fun _ => rfl⟩ <;>
        simp [cbcEncrypt_of_wrong_iv P key iv data bs pbs hiv]
  · obtain ⟨acc, hr, hd⟩ := cbcDecrypt_ok h
    obtain ⟨l, hl, hlen, hcalls⟩ := decryptEvents_of_recovered (pbs := pbs) hr
    exact ⟨l, acc, hd ▸ hl, hlen, callsAnswered_from_zero hcalls⟩
  · obtain hr | ⟨-, acc, hr, hd⟩ := cbcDecrypt_err h
    · exact absurd hr cbcRecover_ne_padding
    · obtain ⟨l, hl, hlen, hcalls⟩ := decryptEvents_of_recovered (pbs := pbs) hr
      exact ⟨l, acc, hd ▸ hl, hlen, callsAnswered_from_zero hcalls⟩
  · obtain hr | ⟨hpad, -⟩ := cbcDecrypt_err h
    · exact callsFailed_from_zero (decryptEvents_of_cipher_error hr)
    · cases hpad

end Sys2Proof.Machine
end

section
/-! XORBLK (43_xorblock_sequencer.md R135, R137): it is read byte by byte, and its laws are those of the exclusive-or of
bytes. -/

namespace Sys2Proof.Machine

variable {n : Nat}

/-- Byte `k` of XORBLK (R135); past their end both blocks and the result read as 0. -/
theorem xorblk_getD (a b : Block n) (k : Nat) :
    (xorblk a b).val.getD k 0#8 = a.val.getD k 0#8 ^^^ b.val.getD k 0#8 := by
  rw [xorblk_val]
  by_cases hk : k < n <;> simp [a.property, b.property, hk]

/-- Two blocks of one length are equal when all their bytes are. -/
theorem block_ext {a b : Block n} (h : ∀ k, a.val.getD k 0#8 = b.val.getD k 0#8) : a = b := by
  refine Subtype.ext (List.ext_getElem (a.property.trans b.property.symm) fun k ha hb => ?_)
  simpa [ha, hb] using h k

/-- Settles O12: the length stands in the type of a block, the bytes are those of XORBLK at every index. -/
theorem xorblkIsBytewise : Obligations.XorblkIsBytewise :=
  ⟨fun _ a b => ⟨(xorblk a b).property, fun k _ => xorblk_getD a b k⟩, by decide⟩

theorem xorblk_comm (a b : Block n) : xorblk a b = xorblk b a :=
  block_ext fun k => by simp only [xorblk_getD, BitVec.xor_comm]

theorem xorblk_assoc (a b c : Block n) : xorblk (xorblk a b) c = xorblk a (xorblk b c) :=
  block_ext fun k => by simp only [xorblk_getD, BitVec.xor_assoc]

/-- A block is its own inverse, so XORBLK with it twice changes nothing (R137 (e)). -/
theorem xorblk_cancel (a b : Block n) : xorblk (xorblk a b) b = a :=
  block_ext fun k => by simp only [xorblk_getD, BitVec.xor_assoc, BitVec.xor_self, BitVec.xor_zero]

/-- The operand that two results share does not show in their difference (R137 (g)). -/
theorem xorblk_getD_xor (a a' b : Block n) (k : Nat) :
    (xorblk a b).val.getD k 0#8 ^^^ (xorblk a' b).val.getD k 0#8 = a.val.getD k 0#8 ^^^ a'.val.getD k 0#8 := by
  rw [← xorblk_getD, xorblk_comm a' b, ← xorblk_assoc, xorblk_cancel, xorblk_getD]

/-- Settles O13: (a) to (e) byte by byte, (f) from (e), (g) by cancelling the common operand. -/
theorem xorblkAlgebra : Obligations.XorblkAlgebra := by
  intro n a a' b c z hz
  have hzero (k : Nat) : z.val.getD k 0#8 = 0#8 := by simp [hz]
  refine ⟨xorblk_comm a b, xorblk_assoc a b c, block_ext fun k => ?_, block_ext fun k => ?_, xorblk_cancel a b,
    fun h => ?_, fun k _ => xorblk_getD_xor a a' b k, fun k _ => ?_⟩
  · rw [xorblk_getD, hzero, BitVec.xor_zero]
  · rw [xorblk_getD, hzero, BitVec.xor_self]
  · rw [← xorblk_cancel a b, h, xorblk_cancel]
  · rw [xorblk_getD, xorblk_getD, Ne, BitVec.xor_left_inj]

end Sys2Proof.Machine
end

section
/-! The micro-operations (43_xorblock_sequencer.md R140 to R147), one equation per outcome: under which condition each
answers what. The step of each phase is one of them, and the statements about a single step are read off the equations. -/

namespace Sys2Proof.Machine

variable {ι : Type} {I : InfoRep ι} {P : Params I} {s : State ι}

/-! ### Which micro-operation a phase performs (R148) -/

theorem engineStep_newop (hp : s.phase = .newop) : engineStep P s = newop P s := by
  simp only [engineStep, hp]

theorem engineStep_encPad (hp : s.phase = .encPad) : engineStep P s = padenc P s := by
  simp only [engineStep, hp]

theorem engineStep_encIv (hp : s.phase = .encIv) : engineStep P s = encIvStep I s := by
  simp only [engineStep, hp]

theorem engineStep_encBlk (hp : s.phase = .encBlk) : engineStep P s = encBlkStep P s := by
  simp only [engineStep, hp]

theorem engineStep_decChk (hp : s.phase = .decChk) : engineStep P s = sizechk I s := by
  simp only [engineStep, hp]

theorem engineStep_decIv (hp : s.phase = .decIv) : engineStep P s = decIvStep I s := by
  simp only [engineStep, hp]

theorem engineStep_decBlk (hp : s.phase = .decBlk) : engineStep P s = decBlkStep P s := by
  simp only [engineStep, hp]

/-- What COMPLETE leaves, with LASTOP read off the command in progress (R139). -/
theorem next_complete {k : ErrKind} {info : ι} {i : Nat} {out : Option Bytes} {lo : BitVec 2}
    (ho : s.op.lastop = lo) :
    (.next (complete k info i out s) : Outcome ι) = .next { s with
      err := k.code, errinfo := info, erridx := i, outbuf := out, done := true, lastop := lo
      fb := none, blk := none, tmp := none, outb := none, idx := none, nblk := none, work := none, acc := none
      op := .none, phase := .idle } := by
  subst ho
  rfl

/-- Settles O19, by the two outcomes of NEWOP. -/
theorem newopStep : Obligations.NewopStep := by
  intro ι I P s bs key hp ho
  rw [engineStep_newop hp]
  exact ⟨fun hs => (newop_of_supported ho hs).trans (next_complete (congrArg Op.lastop ho)),
    fun hs => (newop_of_unsupported ho hs).trans (next_complete (congrArg Op.lastop ho))⟩

/-! ### PADENC (R140) -/

section
variable {iv data : Bytes}

theorem padenc_of_fitting (ho : s.op = .encrypt iv data) (hb : s.bs ≠ 0)
    (ha : (P.pad.encode s.pbs data).length % s.bs = 0) (hf : P.fits (P.pad.encode s.pbs data).length = true) :
    padenc P s = .next { addEvent (.evPadEncode s.pbs data (P.pad.encode s.pbs data)) s with
      work := some (P.pad.encode s.pbs data), nblk := some ((P.pad.encode s.pbs data).length / s.bs)
      idx := some 0, acc := some [], phase := .encIv } := by
  simp only [padenc, ho, hb, ha, hf, if_false, ne_eq, not_true, Bool.true_eq_false]

theorem padenc_of_unaligned (ho : s.op = .encrypt iv data) (hb : s.bs ≠ 0)
    (ha : (P.pad.encode s.pbs data).length % s.bs ≠ 0) : padenc P s = .refused .framingUnaligned := by
  simp only [padenc, ho, hb, ha, if_false, ne_eq, not_false_iff, if_true]

theorem padenc_of_overCapacity (ho : s.op = .encrypt iv data) (hb : s.bs ≠ 0)
    (ha : (P.pad.encode s.pbs data).length % s.bs = 0) (hf : P.fits (P.pad.encode s.pbs data).length = false) :
    padenc P s = .refused .framingOverCapacity := by
  simp only [padenc, ho, hb, ha, hf, if_false, ne_eq, not_true, if_true]

end

/-- Settles O20, by the outcomes of PADENC. -/
theorem padencStep : Obligations.PadencStep := by
  intro ι I P s iv data hp ho hb
  dsimp only
  rw [engineStep_encPad hp]
  exact ⟨padenc_of_fitting ho hb, padenc_of_unaligned ho hb, padenc_of_overCapacity ho hb⟩

/-! ### SIZECHK (R141) -/

section
variable {iv data : Bytes}

theorem sizechk_of_unaligned (ho : s.op = .decrypt iv data) (hb : s.bs ≠ 0) (ha : data.length % s.bs ≠ 0) :
    sizechk I s = .next (complete .invalidSize (I.number (data.length % s.bs)) 0 none s) := by
  simp only [sizechk, ho, hb, ha, if_false, ne_eq, not_false_iff, if_true]

theorem sizechk_of_aligned (ho : s.op = .decrypt iv data) (hb : s.bs ≠ 0) (ha : data.length % s.bs = 0) :
    sizechk I s =
      .next { s with nblk := some (data.length / s.bs), idx := some 0, acc := some [], phase := .decIv } := by
  simp only [sizechk, ho, hb, ha, if_false, ne_eq, not_true]

end

/-- Settles O21, by the two outcomes of SIZECHK. -/
theorem sizechkStep : Obligations.SizechkStep := by
  intro ι I P s iv data hp ho hb
  rw [engineStep_decChk hp]
  exact ⟨fun ha => (sizechk_of_unaligned ho hb ha).trans (next_complete (congrArg Op.lastop ho)), sizechk_of_aligned ho hb⟩

/-! ### IVLOAD (R142) -/

section
variable {iv data : Bytes} {ph : Phase}

theorem encIvStep_of_encrypt (ho : s.op = .encrypt iv data) : encIvStep I s = ivload I iv .encBlk s := by
  simp only [encIvStep, ho]

theorem decIvStep_of_decrypt (ho : s.op = .decrypt iv data) : decIvStep I s = ivload I iv .decBlk s := by
  simp only [decIvStep, ho]

theorem ivload_of_length (h : iv.length = s.bs) : ivload I iv ph s = .next { s with fb := some iv, phase := ph } :=
  if_pos h

/-- Raising IvSizeError is COMPLETE of the state with the fault in the run's record (R205). -/
theorem raiseIvSize_eq_complete (m : Nat) :
    raiseIvSize I m s = complete .ivSize (I.number m) 0 none (addRunFault (.ivSize m) s) := rfl

theorem ivload_of_wrong_length (h : iv.length ≠ s.bs) :
    ivload I iv ph s =
      .next (complete .ivSize (I.number iv.length) 0 none (addRunFault (.ivSize iv.length) s)) :=
  if_neg h

end

/-- Settles O22: both phases are IVLOAD on the latched IV, and differ in the block phase that follows and in LASTOP. -/
theorem ivloadStep : Obligations.IvloadStep := by
  rintro ι I P s iv data (⟨hp, ho⟩ | ⟨hp, ho⟩)
  · rw [engineStep_encIv hp, encIvStep_of_encrypt ho, if_pos hp, if_pos hp]
    exact ⟨ivload_of_length, fun h => (ivload_of_wrong_length h).trans (next_complete (congrArg Op.lastop ho))⟩
  · have hne : s.phase ≠ .encIv := by simp [hp]
    rw [engineStep_decIv hp, decIvStep_of_decrypt ho, if_neg hne, if_neg hne]
    exact ⟨ivload_of_length, fun h => (ivload_of_wrong_length h).trans (next_complete (congrArg Op.lastop ho))⟩

/-! ### ENCBLK and ENCFIN (R143, R145) -/

section
variable {i n : Nat} {key acc : Bytes} {blk fb ob d : Block s.bs} {info : ι}

theorem encBlkStep_of_lt (hi : s.idx = some i) (hn : s.nblk = some n) (hin : i < n) :
    encBlkStep P s = encblk P i s := by
  simp only [encBlkStep, hi, hn, hin, if_true]

theorem encBlkStep_of_end (hi : s.idx = some n) (hn : s.nblk = some n) : encBlkStep P s = encfin I s := by
  simp only [encBlkStep, hi, hn, lt_irrefl, if_false, if_true]

/-- With all its operands there, ENCBLK works on them. -/
theorem encblk_of_operands (hk : s.keystore = some key) (hm : memRead s.work (i * s.bs) s.bs = some blk)
    (hf : s.fb = some fb.val) (ha : s.acc = some acc) : encblk P i s = encblkOn P s i key acc blk fb := by
  simp only [encblk, hk, hm, hf, ha, asBlock_val]

theorem encblkOn_of_ok (he : P.ciph.enc key s.bs (xorblk blk fb) = .ok ob) :
    encblkOn P s i key acc blk fb = .next
      { addEvent (.evEnc i (xorblk blk fb).val (.ok ob.val))
          { s with blk := some blk.val, tmp := some (xorblk blk fb).val } with
        outb := some ob.val, acc := some (acc ++ ob.val), fb := some ob.val, idx := some (i + 1) } := by
  simp only [encblkOn, he, Result.map_ok, memAppend]

theorem encblkOn_of_err (he : P.ciph.enc key s.bs (xorblk blk fb) = .err info) :
    encblkOn P s i key acc blk fb = .next (complete .cipher info i none
      (addEvent (.evEnc i (xorblk blk fb).val (.err info))
        { s with blk := some blk.val, tmp := some (xorblk blk fb).val })) := by
  simp only [encblkOn, he, Result.map_err]

theorem encfin_of_acc (ha : s.acc = some acc) :
    encfin I s = .next (complete .ok (I.number 0) 0 (some acc) s) := by
  simp only [encfin, ha]

/-! ### DECBLK and PADDEC (R144, R146) -/

theorem decBlkStep_of_lt (hi : s.idx = some i) (hn : s.nblk = some n) (hin : i < n) :
    decBlkStep P s = decblk P i s := by
  simp only [decBlkStep, hi, hn, hin, if_true]

theorem decBlkStep_of_end (hi : s.idx = some n) (hn : s.nblk = some n) : decBlkStep P s = paddec P s := by
  simp only [decBlkStep, hi, hn, lt_irrefl, if_false, if_true]

/-- With all its operands there, DECBLK works on them. -/
theorem decblk_of_operands (hk : s.keystore = some key)
    (hm : memRead (s.space .opData) (i * s.bs) s.bs = some blk) (hf : s.fb = some fb.val) (ha : s.acc = some acc) :
    decblk P i s = decblkOn P s i key acc blk fb := by
  simp only [decblk, hk, hm, hf, ha, asBlock_val]

theorem decblkOn_of_ok (hd : P.ciph.dec key s.bs blk = .ok d) :
    decblkOn P s i key acc blk fb = .next
      { addEvent (.evDec i blk.val (.ok d.val)) { s with blk := some blk.val } with
        tmp := some d.val, outb := some (xorblk d fb).val, acc := some (acc ++ (xorblk d fb).val)
        fb := some blk.val, idx := some (i + 1) } := by
  simp only [decblkOn, hd, Result.map_ok, memAppend]

theorem decblkOn_of_err (hd : P.ciph.dec key s.bs blk = .err info) :
    decblkOn P s i key acc blk fb = .next (complete .cipher info i none
      (addEvent (.evDec i blk.val (.err info)) { s with blk := some blk.val })) := by
  simp only [decblkOn, hd, Result.map_err]

theorem paddec_of_ok {plain : Bytes} (ha : s.acc = some acc) (hd : P.pad.decode s.pbs acc = .ok plain) :
    paddec P s = .next (complete .ok (I.number 0) 0 (some plain)
      (addEvent (.evPadDecode s.pbs acc (.ok plain)) s)) := by
  simp only [paddec, ha, hd]

theorem paddec_of_err (ha : s.acc = some acc) (hd : P.pad.decode s.pbs acc = .err info) :
    paddec P s = .next (complete .padding info 0 none (addEvent (.evPadDecode s.pbs acc (.err info)) s)) := by
  simp only [paddec, ha, hd]

end

/-- The decrypting command's data is the space the blocks are read from (R50). -/
theorem space_opData_of_decrypt {iv data : Bytes} (ho : s.op = .decrypt iv data) : s.space .opData = some data := by
  simp only [State.space, ho]

/-- One more block in an accumulator of `i` blocks (R27, R29). -/
theorem length_append_block {bs i : Nat} {acc : Bytes} (h : acc.length = i * bs) (b : Block bs) :
    (acc ++ b.val).length = (i + 1) * bs := by
  rw [List.length_append, h, Nat.succ_mul, b.property]

/-- Settles O23, by the cipher's two answers to block `i` of WORK xor FB. -/
theorem encblkStep : Obligations.EncblkStep := by
  intro ι I P s iv data key work acc i n blk fb hp ho hk hi hn hin hw hle hblk hf ha
  have hm : memRead s.work (i * s.bs) s.bs = some blk := memRead_eq_some.mpr ⟨work, hw, hle, hblk⟩
  rw [engineStep_encBlk hp, encBlkStep_of_lt hi hn hin, encblk_of_operands hk hm hf ha]
  exact ⟨fun ob he => ⟨encblkOn_of_ok he, fun hal => ⟨length_append_block hal ob, List.drop_left' hal⟩⟩,
    fun info he => (encblkOn_of_err he).trans (next_complete (congrArg Op.lastop ho))⟩

/-- Settles O24, by the cipher's two answers to block `i` of the latched ciphertext. -/
theorem decblkStep : Obligations.DecblkStep := by
  intro ι I P s iv data key acc i n blk fb hp ho hk hi hn hin hle hblk hf ha
  have hm : memRead (s.space .opData) (i * s.bs) s.bs = some blk :=
    memRead_eq_some.mpr ⟨data, space_opData_of_decrypt ho, hle, hblk⟩
  rw [engineStep_decBlk hp, decBlkStep_of_lt hi hn hin, decblk_of_operands hk hm hf ha]
  exact ⟨fun d hd => ⟨decblkOn_of_ok hd, fun hal => length_append_block hal (xorblk d fb)⟩,
    fun info hd => (decblkOn_of_err hd).trans (next_complete (congrArg Op.lastop ho))⟩

/-- Settles O25: at NBLK the block phase of ENCRYPT is ENCFIN, which completes with ACC. -/
theorem encfinStep : Obligations.EncfinStep := by
  intro ι I P s iv data acc n hp ho hi hn ha
  rw [engineStep_encBlk hp, encBlkStep_of_end hi hn, encfin_of_acc ha]
  exact next_complete (congrArg Op.lastop ho)

/-- Settles O26, by the framer's two answers to ACC. -/
theorem paddecStep : Obligations.PaddecStep := by
  intro ι I P s iv data acc n hp ho hi hn ha
  rw [engineStep_decBlk hp, decBlkStep_of_end hi hn]
  exact ⟨fun plain hd => (paddec_of_ok ha hd).trans (next_complete (congrArg Op.lastop ho)),
    fun info hd => (paddec_of_err ha hd).trans (next_complete (congrArg Op.lastop ho))⟩

end Sys2Proof.Machine
end

section
/-! Accepting a command (43_xorblock_sequencer.md R138): what WRITE_CMD answers for each word, and what a command leaves
unchanged, whether it is accepted or rejected (20_memory.md R64). -/

namespace Sys2Proof.Machine

variable {ι : Type} {I : InfoRep ι} {P : Params I} {s t : State ι}

/-- Settles O17: a word that decodes is the encoding of its command, so a rejection reports the written word. -/
theorem acceptProcedure : Obligations.AcceptProcedure := by
  intro ι I P s w rest hp hh
  have hstep : stepUnder P s = writeCmd I w { s with host := rest } := stepUnder_host hp hh
  refine ⟨?_, fun bs hd => ?_, fun hd => ?_, fun hd => ?_⟩
  · rintro ⟨why, hd⟩
    exact hstep.trans (writeCmd_of_illegal hd)
  all_goals
    have hcmd := hstep.trans (writeCmd_of_legal hd)
    obtain ⟨-, rfl⟩ := encodeOfDecode w _ hd
  · exact ⟨fun h => hcmd.trans (commandNew_rejects hp h), fun key hv hk => hcmd.trans (commandNew_accepts hp hv hk)⟩
  · exact ⟨fun h => hcmd.trans (commandEncrypt_rejects hp h),
      fun iv data hv hi hd => hcmd.trans (commandEncrypt_accepts hp hv hi hd)⟩
  · exact ⟨fun h => hcmd.trans (commandDecrypt_rejects hp h),
      fun iv data hv hi hd => hcmd.trans (commandDecrypt_accepts hp hv hi hd)⟩

/-- A command is accepted into a phase of the engine, which empties the buffers it consumes and no other, or it is
rejected by USAGE (R64, R138). -/
theorem command_cases {i : Instr} (h : command I i s = .next t) :
    (∃ op ph kb ib db, t = accept I op ph { s with keybuf := kb, ivbuf := ib, inbuf := db } ∧ ph ≠ .idle ∧
      ((∀ bs, i ≠ .new bs) → kb = s.keybuf) ∧ (∀ bs, i = .new bs → ib = s.ivbuf ∧ db = s.inbuf)) ∨
    t = usage I (encode i) s := by
  cases i with
  | new bs =>
    obtain ⟨-, ⟨-, key, -, rfl⟩ | ⟨-, rfl⟩⟩ := commandNew_next h
    · exact .inl ⟨_, _, _, _, _, rfl, by decide, fun hn => absurd rfl (hn bs), fun _ _ => ⟨rfl, rfl⟩⟩
    · exact .inr rfl
  | encrypt =>
    obtain ⟨-, ⟨-, iv, data, -, -, rfl⟩ | ⟨-, rfl⟩⟩ := commandEncrypt_next h
    · exact .inl ⟨_, _, _, _, _, rfl, by decide, fun _ => rfl, fun bs hn => by cases hn⟩
    · exact .inr rfl
  | decrypt =>
    obtain ⟨-, ⟨-, iv, data, -, -, rfl⟩ | ⟨-, rfl⟩⟩ := commandDecrypt_next h
    · exact .inl ⟨_, _, _, _, _, rfl, by decide, fun _ => rfl, fun bs hn => by cases hn⟩
    · exact .inr rfl

/-- Settles O18: an acceptance touches the latches, the report and the consumed buffers, a rejection the report alone. -/
theorem commandFrame : Obligations.CommandFrame := by
  intro i s t h
  rw [exec_eq_command] at h
  obtain ⟨op, ph, kb, ib, db, rfl, hph, hkey, hbufs⟩ | rfl := command_cases h
  · refine ⟨rfl, rfl, rfl, rfl, rfl, rfl, rfl, rfl, rfl, rfl, rfl, rfl, rfl, fun a => ⟨rfl, rfl⟩, fun hn a => ?_,
      fun bs hn a => ?_, fun hid => absurd hid hph⟩
    · exact readByte_congr (sp := .keybuf) (by exact hkey hn) a
    · obtain ⟨hiv, hin⟩ := hbufs bs hn
      exact ⟨readByte_congr (sp := .ivbuf) (by exact hiv) a, readByte_congr (sp := .inbuf) (by exact hin) a⟩
  · have hbytes (sp : Space) (a : Nat) :
        (usage Config.info (encode i) s).readByte sp a = s.readByte sp a := readByte_congr (usage_space _ sp) a
    exact ⟨rfl, rfl, rfl, rfl, rfl, rfl, rfl, rfl, rfl, rfl, rfl, rfl, rfl, fun a => ⟨hbytes _ a, hbytes _ a⟩,
      fun _ a => hbytes _ a, fun _ _ a => ⟨hbytes _ a, hbytes _ a⟩, fun _ => ⟨rfl, hbytes⟩⟩

end Sys2Proof.Machine
end

section
/-! That the machine goes on (43_xorblock_sequencer.md R148, R149): from a state that meets the invariant a step never
faults, it is refused only by a framer that does not align or by a finite capacity, and each step of an operation
brings its end nearer. -/

namespace Sys2Proof.Machine

variable {ι : Type} {I : InfoRep ι} {P : Params I} {s t : State ι}

/-- The parameters give no reason to refuse a step: the framer aligns (R158) and the capacity is unbounded (R10). -/
def unrestricted (P : Params I) : Prop := PadAligned P.pad ∧ P.bufCap = none

/-- The step is no fault: it answers a next state, or it is a refusal that the parameters give a reason for. -/
def goesOn (P : Params I) (o : Outcome ι) : Prop :=
  (∃ t, o = .next t) ∨ ¬ unrestricted P ∧ ∃ r, o = .refused r

theorem goesOn_ne_fault {o : Outcome ι} (h : goesOn P o) (f : Fault) : o ≠ .fault f := by
  obtain ⟨t, rfl⟩ | ⟨-, r, rfl⟩ := h <;> simp

theorem goesOn_next {o : Outcome ι} (h : goesOn P o) (hu : unrestricted P) : ∃ t, o = .next t :=
  h.resolve_right fun hr => hr.1 hu

/-- Without a capacity every length fits (R10). -/
theorem fits_of_unbounded (h : P.bufCap = none) (m : Nat) : P.fits m = true := by
  simp [Params.fits, h]

theorem not_unrestricted_of_not_fits {m : Nat} (h : P.fits m = false) : ¬ unrestricted P := by
  rintro ⟨-, hcap⟩
  simp [fits_of_unbounded hcap] at h

/-- ZeroPad fills the last block, or appends one (R161). -/
theorem zeroPad_aligned (I : InfoRep ι) : PadAligned (zeroPad I) := by
  intro bs d hbs
  have hlt : d.length % bs < bs := Nat.mod_lt _ hbs
  have hlen : (zeroPadEncode bs d).length = bs * (d.length / bs + 1) := by
    rw [zeroPadEncode, List.length_append, List.length_replicate]
    have hdiv := Nat.div_add_mod d.length bs
    rw [Nat.mul_succ]
    omega
  exact hlen ▸ Nat.mul_mod_right _ _

/-! ### What the invariant says the operands of the block phases are -/

/-- A constructed engine holds a key, and gives the framer its own block size (R23, R24). -/
theorem cfgInv_constructed (hc : s.cfgInv P) (hv : s.cfgValid = true) :
    s.bs ≠ 0 ∧ s.pbs = s.bs ∧ ∃ key, s.keystore = some key := by
  obtain ⟨-, hpbs, key, hk, -⟩ := hc.2 hv
  exact ⟨cfgInv_bs_ne_zero hc hv, congrArg BitVec.toNat hpbs, key, hk⟩

/-- At block `i` of ENCRYPT the last block of IV and output has the block size (R143). -/
theorem length_chain_last {iv acc : Bytes} {bs i : Nat} (hiv : iv.length = bs) (ha : acc.length = i * bs) :
    ((iv ++ acc).drop (i * bs)).length = bs := by
  rw [List.length_drop, List.length_append, hiv, ha, Nat.add_sub_cancel]

/-- Block `i` of IV and ciphertext has the block size, the block after the last included (R144). -/
theorem length_chain_block {iv data : Bytes} {bs i n : Nat} (hiv : iv.length = bs) (hd : data.length = n * bs)
    (hin : i ≤ n) : (((iv ++ data).drop (i * bs)).take bs).length = bs := by
  have hle : i * bs ≤ n * bs := Nat.mul_le_mul_right bs hin
  rw [List.length_take, List.length_drop, List.length_append, hiv, hd]
  omega

/-! ### The micro-operations -/

theorem newop_goesOn {bs : BitVec 8} {key : Bytes} (ho : s.op = .new bs key) : goesOn P (newop P s) := by
  cases hs : P.ciph.supports key.length bs.toNat with
  | true => exact .inl ⟨_, newop_of_supported ho hs⟩
  | false => exact .inl ⟨_, newop_of_unsupported ho hs⟩

/-- PADENC stops only for a framer that does not align or for a capacity (R140). -/
theorem padenc_goesOn {iv data : Bytes} (hc : s.cfgInv P) (hv : s.cfgValid = true) (ho : s.op = .encrypt iv data) :
    goesOn P (padenc P s) := by
  obtain ⟨hb, hpbs, -⟩ := cfgInv_constructed hc hv
  by_cases ha : (P.pad.encode s.pbs data).length % s.bs = 0
  · cases hf : P.fits (P.pad.encode s.pbs data).length with
    | true => exact .inl ⟨_, padenc_of_fitting ho hb ha hf⟩
    | false => exact .inr ⟨not_unrestricted_of_not_fits hf, _, padenc_of_overCapacity ho hb ha hf⟩
  · refine .inr ⟨fun hu => ha ?_, _, padenc_of_unaligned ho hb ha⟩
    rw [hpbs]
    exact hu.1 s.bs data (Nat.pos_of_ne_zero hb)

theorem sizechk_goesOn {iv data : Bytes} (hb : s.bs ≠ 0) (ho : s.op = .decrypt iv data) :
    goesOn P (sizechk I s) := by
  by_cases ha : data.length % s.bs = 0
  · exact .inl ⟨_, sizechk_of_aligned ho hb ha⟩
  · exact .inl ⟨_, sizechk_of_unaligned ho hb ha⟩

theorem ivload_goesOn (iv : Bytes) (ph : Phase) : goesOn P (ivload I iv ph s) := by
  by_cases h : iv.length = s.bs
  · exact .inl ⟨_, ivload_of_length h⟩
  · exact .inl ⟨_, ivload_of_wrong_length h⟩

theorem encblkOn_goesOn (i : Nat) (key acc : Bytes) (blk fb : Block s.bs) :
    goesOn P (encblkOn P s i key acc blk fb) := by
  cases he : P.ciph.enc key s.bs (xorblk blk fb) with
  | ok ob => exact .inl ⟨_, encblkOn_of_ok he⟩
  | err info => exact .inl ⟨_, encblkOn_of_err he⟩

theorem decblkOn_goesOn (i : Nat) (key acc : Bytes) (blk fb : Block s.bs) :
    goesOn P (decblkOn P s i key acc blk fb) := by
  cases hd : P.ciph.dec key s.bs blk with
  | ok d => exact .inl ⟨_, decblkOn_of_ok hd⟩
  | err info => exact .inl ⟨_, decblkOn_of_err hd⟩

/-- The invariant of ENC_BLK gives ENCBLK all its operands: the block lies in WORK and FB has the block size. -/
theorem encBlkStep_goesOn (hc : s.cfgInv P) (hv : s.cfgValid = true) (he : s.encInv P) :
    goesOn P (encBlkStep P s) := by
  obtain ⟨iv, data, work, acc, n, i, -, -, hw, hwl, hn, hi, hin, ha, hal, hiv, hf, -⟩ := he
  obtain ⟨-, -, key, hk⟩ := cfgInv_constructed hc hv
  obtain hlt | rfl := Nat.lt_or_eq_of_le hin
  · have hm := memRead_eq_some.mpr ⟨work, hw, block_inside hwl hlt, blockAt_val (block_inside hwl hlt)⟩
    rw [encBlkStep_of_lt hi hn hlt,
      encblk_of_operands (fb := ⟨_, length_chain_last hiv hal⟩) hk hm hf ha]
    exact encblkOn_goesOn ..
  · rw [encBlkStep_of_end hi hn]
    exact .inl ⟨_, encfin_of_acc ha⟩

/-- The invariant of DEC_BLK gives DECBLK all its operands: the block lies in the latched ciphertext and FB has the
block size. -/
theorem decBlkStep_goesOn (hc : s.cfgInv P) (hv : s.cfgValid = true) (hd : s.decInv) :
    goesOn P (decBlkStep P s) := by
  obtain ⟨iv, data, acc, n, i, ho, -, hdl, hn, hi, hin, ha, hal, hiv, hf, -⟩ := hd
  obtain ⟨-, -, key, hk⟩ := cfgInv_constructed hc hv
  obtain hlt | rfl := Nat.lt_or_eq_of_le hin
  · have hm := memRead_eq_some.mpr
      ⟨data, space_opData_of_decrypt ho, block_inside hdl hlt, blockAt_val (block_inside hdl hlt)⟩
    rw [decBlkStep_of_lt hi hn hlt,
      decblk_of_operands (fb := ⟨_, length_chain_block hiv hdl hin⟩) hk hm hf ha]
    exact decblkOn_goesOn ..
  · rw [decBlkStep_of_end hi hn]
    cases hr : P.pad.decode s.pbs acc with
    | ok plain => exact .inl ⟨_, paddec_of_ok ha hr⟩
    | err info => exact .inl ⟨_, paddec_of_err ha hr⟩

/-- Every phase finds in the invariant what its micro-operation needs (R148). -/
theorem engineStep_goesOn (hi : s.Inv P) : goesOn P (engineStep P s) := by
  obtain ⟨hc, hp, -⟩ := hi
  cases hph : s.phase <;> simp only [State.phaseInv, hph] at hp
  case idle => exact .inl ⟨s, by simp only [engineStep, hph]⟩
  case newop =>
    obtain ⟨-, -, -, bs, key, ho⟩ := hp
    exact engineStep_newop hph ▸ newop_goesOn ho
  case encPad =>
    obtain ⟨-, -, hv, iv, data, ho⟩ := hp
    exact engineStep_encPad hph ▸ padenc_goesOn hc hv ho
  case encIv =>
    obtain ⟨-, -, -, -, -, -, iv, data, n, ho, -⟩ := hp
    rw [engineStep_encIv hph, encIvStep_of_encrypt ho]
    exact ivload_goesOn iv _
  case encBlk =>
    obtain ⟨-, hv, he⟩ := hp
    exact engineStep_encBlk hph ▸ encBlkStep_goesOn hc hv he
  case decChk =>
    obtain ⟨-, -, hv, iv, data, ho⟩ := hp
    exact engineStep_decChk hph ▸ sizechk_goesOn (cfgInv_bs_ne_zero hc hv) ho
  case decIv =>
    obtain ⟨-, -, -, -, -, -, -, iv, data, n, ho, -⟩ := hp
    rw [engineStep_decIv hph, decIvStep_of_decrypt ho]
    exact ivload_goesOn iv _
  case decBlk =>
    obtain ⟨-, hv, hd⟩ := hp
    exact engineStep_decBlk hph ▸ decBlkStep_goesOn hc hv hd

/-! ### The host's moves and the step -/

/-- ENCRYPT and DECRYPT find all they need, or something is missing (R138). -/
theorem operands_missing_or_loaded (s : State ι) : (s.cfgValid = false ∨ s.ivbuf = none ∨ s.inbuf = none) ∨
    (s.cfgValid = true ∧ ∃ iv data, s.ivbuf = some iv ∧ s.inbuf = some data) := by
  cases s.cfgValid <;> cases s.ivbuf <;> cases s.inbuf <;> simp

/-- In IDLE a command is accepted or rejected, and answers a next state either way (R138). -/
theorem command_answers (i : Instr) (hid : s.phase = .idle) : ∃ t, command I i s = .next t := by
  cases i with
  | new bs =>
    by_cases h : s.cfgValid = true ∨ s.keybuf = none
    · exact ⟨_, commandNew_rejects hid h⟩
    · obtain ⟨hv, hk⟩ := not_or.mp h
      obtain ⟨key, hk⟩ := Option.ne_none_iff_exists'.mp hk
      exact ⟨_, commandNew_accepts hid (Bool.not_eq_true _ ▸ hv) hk⟩
  | encrypt =>
    obtain h | ⟨hv, iv, data, hi, hd⟩ := operands_missing_or_loaded s
    · exact ⟨_, commandEncrypt_rejects hid h⟩
    · exact ⟨_, commandEncrypt_accepts hid hv hi hd⟩
  | decrypt =>
    obtain h | ⟨hv, iv, data, hi, hd⟩ := operands_missing_or_loaded s
    · exact ⟨_, commandDecrypt_rejects hid h⟩
    · exact ⟨_, commandDecrypt_accepts hid hv hi hd⟩

/-- A LOAD is refused for its length only (R59). -/
theorem load_goesOn (m : Nat) (t : State ι) :
    goesOn P (if P.fits m then .next t else .refused .loadOverCapacity) := by
  cases hf : P.fits m with
  | true => exact .inl ⟨t, rfl⟩
  | false => exact .inr ⟨not_unrestricted_of_not_fits hf, _, rfl⟩

theorem hostMove_goesOn (m : HostMove) (hid : s.phase = .idle) : goesOn P (hostMove P m s) := by
  cases m with
  | loadKey b | loadIv b | loadIn b => exact load_goesOn b.length _
  | writeCmd w =>
    cases hd : decode w with
    | legal i =>
      obtain ⟨t, ht⟩ := command_answers (I := I) i hid
      exact .inl ⟨t, (writeCmd_of_legal hd).trans ht⟩
    | illegal why => exact .inl ⟨_, writeCmd_of_illegal hd⟩
  | readStatus | readErrinfo | readErridx | readCfg | readOut | readLen | rst | rstDuring => exact .inl ⟨_, rfl⟩

/-- While an operation runs, the step is a reset or the engine's (R12, R230). -/
theorem busyStep_goesOn (hi : s.Inv P) : goesOn P (busyStep P s) := by
  unfold busyStep
  split
  · exact .inl ⟨_, rfl⟩
  · exact engineStep_goesOn (inv_of_host hi _)
  · exact engineStep_goesOn hi

theorem stepUnder_goesOn (hi : s.Inv P) : goesOn P (stepUnder P s) := by
  by_cases hid : s.phase = .idle
  · cases hh : s.host with
    | nil => exact .inl ⟨s, stepUnder_waits hid hh⟩
    | cons m rest => exact stepUnder_host hid hh ▸ hostMove_goesOn m hid
  · exact stepUnder_of_busy P s hid ▸ busyStep_goesOn hi

/-- Settles O40: no step from the invariant is a fault, and ZeroPad with unbounded capacity leaves no refusal. -/
theorem invariantStatesNeverStop : Obligations.InvariantStatesNeverStop := by
  have hnext (ι : Type) (I : InfoRep ι) (P : Params I) (s : State ι) (hpad : P.pad = zeroPad I)
      (hcap : P.bufCap = none) (hi : s.Inv P) : ∃ t, stepUnder P s = .next t :=
    goesOn_next (stepUnder_goesOn hi) ⟨hpad ▸ zeroPad_aligned I, hcap⟩
  exact ⟨fun _ _ _ _ f hi => goesOn_ne_fault (stepUnder_goesOn hi) f, hnext,
    fun s hi => hnext _ _ params s rfl rfl hi⟩

/-! ### The end of an operation (R149) -/

theorem stepsLeft_idle (hp : s.phase = .idle) : s.stepsLeft P = 0 := by
  simp [State.stepsLeft, hp]

theorem stepsLeft_complete {k : ErrKind} {info : ι} {i : Nat} {out : Option Bytes} :
    (complete k info i out s).stepsLeft P = 0 :=
  stepsLeft_idle rfl

theorem stepsLeft_newop (hp : s.phase = .newop) : s.stepsLeft P = 1 := by
  simp [State.stepsLeft, hp]

theorem stepsLeft_encPad {iv data : Bytes} (hp : s.phase = .encPad) (ho : s.op = .encrypt iv data) :
    s.stepsLeft P = 3 + (P.pad.encode s.pbs data).length / s.bs := by
  simp [State.stepsLeft, hp, ho]

theorem stepsLeft_decChk {iv data : Bytes} (hp : s.phase = .decChk) (ho : s.op = .decrypt iv data) :
    s.stepsLeft P = 3 + data.length / s.bs := by
  simp [State.stepsLeft, hp, ho]

theorem stepsLeft_iv (hp : s.phase = .encIv ∨ s.phase = .decIv) : s.stepsLeft P = 2 + s.nblk.getD 0 := by
  obtain hp | hp := hp <;> simp [State.stepsLeft, hp]

theorem stepsLeft_blk (hp : s.phase = .encBlk ∨ s.phase = .decBlk) :
    s.stepsLeft P = 1 + (s.nblk.getD 0 - s.idx.getD 0) := by
  obtain hp | hp := hp <;> simp [State.stepsLeft, hp]

theorem newop_stepsLeft_lt (hp : s.phase = .newop) (h : newop P s = .next t) : t.stepsLeft P < s.stepsLeft P := by
  rw [stepsLeft_newop hp]
  obtain ⟨bs, key, -, ⟨-, rfl⟩ | ⟨-, rfl⟩⟩ := newop_next h <;> exact stepsLeft_complete.trans_lt Nat.one_pos

theorem padenc_stepsLeft_lt (hp : s.phase = .encPad) (h : padenc P s = .next t) :
    t.stepsLeft P < s.stepsLeft P := by
  obtain ⟨iv, data, ho, -, -, -, rfl⟩ := padenc_next h
  rw [stepsLeft_encPad hp ho, stepsLeft_iv (.inl rfl), Option.getD_some]
  omega

theorem sizechk_stepsLeft_lt (hp : s.phase = .decChk) (h : sizechk I s = .next t) :
    t.stepsLeft P < s.stepsLeft P := by
  obtain ⟨iv, data, ho, -, ⟨-, rfl⟩ | ⟨-, rfl⟩⟩ := sizechk_next h
  · rw [stepsLeft_complete, stepsLeft_decChk hp ho]
    exact Nat.add_pos_left (by decide) _
  · rw [stepsLeft_decChk hp ho, stepsLeft_iv (.inr rfl), Option.getD_some]
    omega

theorem ivload_stepsLeft_lt {iv : Bytes} {ph : Phase} (hp : s.phase = .encIv ∨ s.phase = .decIv)
    (hph : ph = .encBlk ∨ ph = .decBlk) (h : ivload I iv ph s = .next t) : t.stepsLeft P < s.stepsLeft P := by
  rw [stepsLeft_iv hp]
  obtain ⟨-, rfl⟩ | ⟨-, rfl⟩ := ivload_next h
  · rw [stepsLeft_blk hph]
    dsimp only
    omega
  · rw [raiseIvSize_eq_complete, stepsLeft_complete]
    omega

/-- A block more done is a step less to do. -/
theorem next_block_stepsLeft_lt {i n : Nat} (hs : s.phase = .encBlk ∨ s.phase = .decBlk)
    (ht : t.phase = s.phase) (hi : s.idx = some i) (hn : s.nblk = some n) (hin : i < n) (hi' : t.idx = some (i + 1))
    (hn' : t.nblk = s.nblk) : t.stepsLeft P < s.stepsLeft P := by
  rw [stepsLeft_blk hs, stepsLeft_blk (ht ▸ hs), hn', hi', hi, hn]
  simp only [Option.getD_some]
  omega

theorem complete_stepsLeft_lt_of_blk {k : ErrKind} {info : ι} {i : Nat} {out : Option Bytes} {u : State ι}
    (hs : s.phase = .encBlk ∨ s.phase = .decBlk) : (complete k info i out u).stepsLeft P < s.stepsLeft P := by
  rw [stepsLeft_complete, stepsLeft_blk hs]
  omega

theorem encBlkStep_stepsLeft_lt (hp : s.phase = .encBlk) (h : encBlkStep P s = .next t) :
    t.stepsLeft P < s.stepsLeft P := by
  obtain ⟨i, n, hi, hn, ⟨hin, hb⟩ | ⟨-, hf⟩⟩ := encBlkStep_next h
  · obtain ⟨key, blk, fb, acc, -, -, -, -, ho⟩ := encblk_next hb
    obtain ⟨info, -, rfl⟩ | ⟨ob, -, rfl⟩ := encblkOn_next ho
    · exact complete_stepsLeft_lt_of_blk (.inl hp)
    · exact next_block_stepsLeft_lt (.inl hp) rfl hi hn hin rfl rfl
  · obtain ⟨acc, -, rfl⟩ := encfin_next hf
    exact complete_stepsLeft_lt_of_blk (.inl hp)

theorem decBlkStep_stepsLeft_lt (hp : s.phase = .decBlk) (h : decBlkStep P s = .next t) :
    t.stepsLeft P < s.stepsLeft P := by
  obtain ⟨i, n, hi, hn, ⟨hin, hb⟩ | ⟨-, hf⟩⟩ := decBlkStep_next h
  · obtain ⟨key, blk, fb, acc, -, -, -, -, ho⟩ := decblk_next hb
    obtain ⟨info, -, rfl⟩ | ⟨d, -, rfl⟩ := decblkOn_next ho
    · exact complete_stepsLeft_lt_of_blk (.inr hp)
    · exact next_block_stepsLeft_lt (.inr hp) rfl hi hn hin rfl rfl
  · obtain ⟨acc, -, ⟨info, -, rfl⟩ | ⟨plain, -, rfl⟩⟩ := paddec_next hf <;>
      exact complete_stepsLeft_lt_of_blk (.inr hp)

/-- Every step of an operation leaves fewer to do (R149). -/
theorem engineStep_stepsLeft_lt (hid : s.phase ≠ .idle) (h : engineStep P s = .next t) :
    t.stepsLeft P < s.stepsLeft P := by
  obtain ⟨hp, -⟩ | ⟨hp, h⟩ | ⟨hp, h⟩ | ⟨hp, h⟩ | ⟨hp, h⟩ | ⟨hp, h⟩ | ⟨hp, h⟩ | ⟨hp, h⟩ := engineStep_next h
  · exact absurd hp hid
  · exact newop_stepsLeft_lt hp h
  · exact padenc_stepsLeft_lt hp h
  · obtain ⟨iv, data, -, hl⟩ := encIvStep_next h
    exact ivload_stepsLeft_lt (.inl hp) (.inl rfl) hl
  · exact encBlkStep_stepsLeft_lt hp h
  · exact sizechk_stepsLeft_lt hp h
  · obtain ⟨iv, data, -, hl⟩ := decIvStep_next h
    exact ivload_stepsLeft_lt (.inr hp) (.inr rfl) hl
  · exact decBlkStep_stepsLeft_lt hp h

/-- A step of the engine takes no move from the host's program, so no reset comes nearer. -/
theorem engineStep_rstPending (h : engineStep P s = .next t) : t.rstPending = s.rstPending := by
  obtain ⟨hhost, -⟩ := hostGroup_eq_iff.mp (engineStep_hostGroup h)
  rw [State.rstPending, hhost, State.rstPending]

/-- With nothing to refuse, an operation takes its next step, and comes nearer to its end. -/
theorem operation_step (hu : unrestricted P) (hi : s.Inv P) (hid : s.phase ≠ .idle) (hr : s.rstPending = false) :
    ∃ t, stepUnder P s = .next t ∧ t.Inv P ∧ t.rstPending = false ∧ t.stepsLeft P < s.stepsLeft P := by
  obtain ⟨t, ht⟩ := goesOn_next (stepUnder_goesOn hi) hu
  have he : engineStep P s = .next t := stepUnder_busy hid hr ▸ ht
  exact ⟨t, ht, stepUnder_keeps_inv hi ht, (engineStep_rstPending he).trans hr, engineStep_stepsLeft_lt hid he⟩

/-- With nothing to refuse, an operation runs to its end, by induction on the steps left. -/
theorem runsTo_idle (hu : unrestricted P) (s : State ι) (hi : s.Inv P) (hr : s.rstPending = false) :
    ∃ k t, k ≤ s.stepsLeft P ∧ runsTo P k s t ∧ t.phase = .idle := by
  by_cases hid : s.phase = .idle
  · exact ⟨0, s, Nat.zero_le _, runsTo_zero, hid⟩
  · obtain ⟨t, ht, hti, htr, hlt⟩ := operation_step hu hi hid hr
    obtain ⟨k, u, hk, hrun, hidle⟩ := runsTo_idle hu t hti htr
    exact ⟨k + 1, u, by omega, runsTo_cons ht hrun, hidle⟩
termination_by s.stepsLeft P

/-- Settles O43: an aligned framer and an unbounded capacity leave nothing to refuse. -/
theorem operationsEnd : Obligations.OperationsEnd :=
  fun _ _ _ s hi hpad hcap _ hr => runsTo_idle ⟨hpad, hcap⟩ s hi hr

end Sys2Proof.Machine
end

section
/-! Where each step leads (43_xorblock_sequencer.md R139, R148): the phase table row by row, and that every way out of an
operation but reset is COMPLETE (60_exceptions.md R208). -/

namespace Sys2Proof.Machine

variable {ι : Type} {I : InfoRep ι} {P : Params I} {s t : State ι}

/-! ### Every exit is COMPLETE -/

/-- The step from `s` to `t` is a COMPLETE of the command in progress, without a result if it is an error (R139). -/
def completes (s t : State ι) : Prop :=
  ∃ k info i out u, t = complete k info i out u ∧ u.op = s.op ∧ (k ≠ .ok → out = none)

theorem completes_err {k : ErrKind} {info : ι} {i : Nat} {u : State ι} (ho : u.op = s.op) :
    completes s (complete k info i none u) :=
  ⟨_, _, _, _, _, rfl, ho, fun _ => rfl⟩

theorem completes_ok {info : ι} {i : Nat} {out : Option Bytes} {u : State ι} (ho : u.op = s.op) :
    completes s (complete .ok info i out u) :=
  ⟨_, _, _, _, _, rfl, ho, fun hne => absurd rfl hne⟩

theorem newop_completes (h : newop P s = .next t) : completes s t := by
  obtain ⟨bs, key, -, ⟨-, rfl⟩ | ⟨-, rfl⟩⟩ := newop_next h
  · exact completes_ok rfl
  · exact completes_err rfl

theorem ivload_completes {iv : Bytes} {ph : Phase} (hph : ph ≠ .idle) (h : ivload I iv ph s = .next t)
    (ht : t.phase = .idle) : completes s t := by
  obtain ⟨-, rfl⟩ | ⟨-, rfl⟩ := ivload_next h
  · exact absurd ht hph
  · exact raiseIvSize_eq_complete (s := s) iv.length ▸ completes_err rfl

theorem sizechk_completes (h : sizechk I s = .next t) (ht : t.phase = .idle) : completes s t := by
  obtain ⟨iv, data, -, -, ⟨-, rfl⟩ | ⟨-, rfl⟩⟩ := sizechk_next h
  · exact completes_err rfl
  · cases ht

theorem encBlkStep_completes (hp : s.phase ≠ .idle) (h : encBlkStep P s = .next t) (ht : t.phase = .idle) :
    completes s t := by
  obtain ⟨i, n, -, -, ⟨-, hb⟩ | ⟨-, hf⟩⟩ := encBlkStep_next h
  · obtain ⟨key, blk, fb, acc, -, -, -, -, ho⟩ := encblk_next hb
    obtain ⟨info, -, rfl⟩ | ⟨ob, -, rfl⟩ := encblkOn_next ho
    · exact completes_err rfl
    · exact absurd ht hp
  · obtain ⟨acc, -, rfl⟩ := encfin_next hf
    exact completes_ok rfl

theorem decBlkStep_completes (hp : s.phase ≠ .idle) (h : decBlkStep P s = .next t) (ht : t.phase = .idle) :
    completes s t := by
  obtain ⟨i, n, -, -, ⟨-, hb⟩ | ⟨-, hf⟩⟩ := decBlkStep_next h
  · obtain ⟨key, blk, fb, acc, -, -, -, -, ho⟩ := decblk_next hb
    obtain ⟨info, -, rfl⟩ | ⟨d, -, rfl⟩ := decblkOn_next ho
    · exact completes_err rfl
    · exact absurd ht hp
  · obtain ⟨acc, -, ⟨info, -, rfl⟩ | ⟨plain, -, rfl⟩⟩ := paddec_next hf
    · exact completes_err rfl
    · exact completes_ok rfl

/-- The engine returns to IDLE by COMPLETE only (R139, R208). -/
theorem engineStep_completes (hid : s.phase ≠ .idle) (h : engineStep P s = .next t) (ht : t.phase = .idle) :
    completes s t := by
  obtain ⟨hp, -⟩ | ⟨-, h⟩ | ⟨-, h⟩ | ⟨-, h⟩ | ⟨-, h⟩ | ⟨-, h⟩ | ⟨-, h⟩ | ⟨-, h⟩ := engineStep_next h
  · exact absurd hp hid
  · exact newop_completes h
  · obtain ⟨iv, data, -, -, -, -, rfl⟩ := padenc_next h
    cases ht
  · obtain ⟨iv, data, -, hl⟩ := encIvStep_next h
    exact ivload_completes (by decide) hl ht
  · exact encBlkStep_completes hid h ht
  · exact sizechk_completes h ht
  · obtain ⟨iv, data, -, hl⟩ := decIvStep_next h
    exact ivload_completes (by decide) hl ht
  · exact decBlkStep_completes hid h ht

/-- The engine's step leaves the configuration group, unless it is a NEWOP that succeeds (R93, R147). -/
theorem engineStep_cfgGroup (h : engineStep P s = .next t) (hne : s.phase ≠ .newop ∨ t.err ≠ 0#4) :
    t.cfgGroup = s.cfgGroup := by
  by_cases hp : s.phase = .newop
  · obtain ⟨bs, key, -, ⟨-, rfl⟩ | ⟨-, rfl⟩⟩ := newop_next (engineStep_newop hp ▸ h)
    · exact absurd rfl (hne.resolve_left (not_not_intro hp))
    · rfl
  · exact (engineStep_frame h).1.resolve_right fun hc => hp hc.1

/-- Settles O44: the exit is a COMPLETE, and its error code is 0 for the outcome without error alone. -/
theorem everyExitIsComplete : Obligations.EveryExitIsComplete := by
  intro ι I P s t hid hr h ht
  rw [stepUnder_busy hid hr] at h
  have hcfg := fun hne => cfgGroup_eq_iff.mp (engineStep_cfgGroup h hne)
  obtain ⟨k, info, i, out, u, rfl, hop, hout⟩ := engineStep_completes hid h ht
  refine ⟨⟨rfl, rfl, rfl, rfl, rfl, rfl, rfl, rfl⟩, rfl, rfl, congrArg Op.lastop hop, fun he => hout ?_, hcfg⟩
  rintro rfl
  exact he rfl

/-! ### The phase table -/

/-- A host move other than WRITE_CMD leaves the engine in IDLE (R148). -/
theorem hostMove_idle {m : HostMove} (hm : ∀ w, m ≠ .writeCmd w) (hid : s.phase = .idle)
    (h : hostMove P m s = .next t) : t.phase = .idle := by
  cases m with
  | loadKey | loadIv | loadIn =>
    obtain ⟨-, rfl⟩ := load_next h
    exact hid
  | writeCmd w => exact absurd rfl (hm w)
  | readOut =>
    rw [← next_inj h, readOut]
    split <;> exact hid
  | rst | rstDuring => exact next_inj h ▸ rfl
  | readStatus | readErrinfo | readErridx | readCfg | readLen => exact next_inj h ▸ hid

/-- A word that is no acceptable command leaves IDLE with code 15 (R138, R148). -/
theorem writeCmd_rejects {w : Word} (hid : s.phase = .idle) (hn : ∀ i, decode w = .legal i → ¬ s.accepts i)
    (h : writeCmd I w s = .next t) : t.phase = .idle ∧ t.err = 15#4 := by
  obtain ⟨i, hd, hc⟩ | ⟨why, -, rfl⟩ := writeCmd_next h
  · obtain ⟨-, rfl⟩ := command_usage_of_not_accepts hc (hn i hd)
    exact ⟨hid, rfl⟩
  · exact ⟨hid, rfl⟩

/-- IVLOAD's row: the block phase that follows, or IDLE with code 5 (R142, R148). -/
theorem ivload_row {iv : Bytes} {ph : Phase} (h : ivload I iv ph s = .next t) :
    (iv.length = s.bs → t.phase = ph) ∧ (iv.length ≠ s.bs → t.phase = .idle ∧ t.err = 5#4) := by
  obtain ⟨hl, rfl⟩ | ⟨hl, rfl⟩ := ivload_next h
  · exact ⟨fun _ => rfl, fun hne => absurd hl hne⟩
  · exact ⟨fun he => absurd he hl, fun _ => ⟨rfl, rfl⟩⟩

/-- ENCBLK's row on its operands, by the cipher's answer (R143, R148). -/
theorem encblkOn_row {i : Nat} {key acc : Bytes} {blk fb : Block s.bs} (h : encblkOn P s i key acc blk fb = .next t) :
    ((∃ ob, P.ciph.enc key s.bs (xorblk blk fb) = .ok ob) → t.phase = s.phase ∧ t.idx = some (i + 1)) ∧
    ((∃ info, P.ciph.enc key s.bs (xorblk blk fb) = .err info) → t.phase = .idle ∧ t.err = 3#4) := by
  obtain ⟨info, he, rfl⟩ | ⟨ob, he, rfl⟩ := encblkOn_next h <;> rw [he]
  · exact ⟨by simp, fun _ => ⟨rfl, rfl⟩⟩
  · exact ⟨fun _ => ⟨rfl, rfl⟩, by simp⟩

/-- DECBLK's row on its operands, by the cipher's answer (R144, R148). -/
theorem decblkOn_row {i : Nat} {key acc : Bytes} {blk fb : Block s.bs} (h : decblkOn P s i key acc blk fb = .next t) :
    ((∃ d, P.ciph.dec key s.bs blk = .ok d) → t.phase = s.phase ∧ t.idx = some (i + 1)) ∧
    ((∃ info, P.ciph.dec key s.bs blk = .err info) → t.phase = .idle ∧ t.err = 3#4) := by
  obtain ⟨info, hd, rfl⟩ | ⟨d, hd, rfl⟩ := decblkOn_next h <;> rw [hd]
  · exact ⟨by simp, fun _ => ⟨rfl, rfl⟩⟩
  · exact ⟨fun _ => ⟨rfl, rfl⟩, by simp⟩

/-- PADDEC's row, by the framer's answer (R146, R148). -/
theorem paddec_row (h : paddec P s = .next t) :
    ∃ acc, s.acc = some acc ∧ t.phase = .idle ∧ ((∃ plain, P.pad.decode s.pbs acc = .ok plain) → t.err = 0#4) ∧
      ((∃ info, P.pad.decode s.pbs acc = .err info) → t.err = 4#4) := by
  obtain ⟨acc, ha, ⟨info, hd, rfl⟩ | ⟨plain, hd, rfl⟩⟩ := paddec_next h
  · exact ⟨acc, ha, rfl, by simp [hd], fun _ => rfl⟩
  · exact ⟨acc, ha, rfl, fun _ => rfl, by simp [hd]⟩

/-- Settles O42, row by row: the host's moves in IDLE, and each phase by what its micro-operation answers. -/
theorem phaseTable : Obligations.PhaseTable := by
  intro ι I P s t _ hr h
  have hwrite {w : Word} {rest : List HostMove} (hid : s.phase = .idle) (hh : s.host = .writeCmd w :: rest) :
      writeCmd I w { s with host := rest } = .next t := (stepUnder_host hid hh).symm.trans h
  have hcmd {w : Word} {rest : List HostMove} {i : Instr} (hid : s.phase = .idle)
      (hh : s.host = .writeCmd w :: rest) (hd : decode w = .legal i) : command I i { s with host := rest } = .next t :=
    (writeCmd_of_legal hd).symm.trans (hwrite hid hh)
  have hengine (hp : s.phase ≠ .idle) : engineStep P s = .next t := (stepUnder_busy hp (hr hp)).symm.trans h
  refine ⟨fun hid => ⟨fun w rest bs hh hd ha => ?_, fun w rest hh hd ha => ?_, fun w rest hh hd ha => ?_,
    fun w rest hh hn => writeCmd_rejects (s := { s with host := rest }) hid hn (hwrite hid hh), fun hh => ?_⟩,
    fun hp => ?_, fun hp => ?_, fun hp => ?_, fun hp => ?_, fun hp => ?_, fun hp => ?_, fun hp => ?_⟩
  · exact command_phase_of_accepts (hcmd hid hh hd) ha
  · exact command_phase_of_accepts (hcmd hid hh hd) ha
  · exact command_phase_of_accepts (hcmd hid hh hd) ha
  · cases hs : s.host with
    | nil => exact next_inj ((stepUnder_waits hid hs).symm.trans h) ▸ hid
    | cons m rest =>
      exact hostMove_idle (s := { s with host := rest }) (fun w e => hh w rest (e ▸ hs)) hid
        ((stepUnder_host hid hs).symm.trans h)
  all_goals have he := hengine (by simp [hp])
  · obtain ⟨bs, key, ho, ⟨hs, rfl⟩ | ⟨hs, rfl⟩⟩ := newop_next (engineStep_newop hp ▸ he) <;>
      exact ⟨rfl, bs, key, ho, by rw [hs]; rfl⟩
  · obtain ⟨iv, data, -, -, -, -, rfl⟩ := padenc_next (engineStep_encPad hp ▸ he)
    rfl
  · obtain ⟨iv, data, ho, hl⟩ := encIvStep_next (engineStep_encIv hp ▸ he)
    exact ⟨iv, data, ho, ivload_row hl⟩
  · obtain ⟨i, n, hi, hn, ⟨hin, hb⟩ | ⟨rfl, hf⟩⟩ := encBlkStep_next (engineStep_encBlk hp ▸ he)
    · obtain ⟨key, blk, fb, acc, hk, hm, hfb, -, ho⟩ := encblk_next hb
      exact ⟨i, n, hi, hn, hin.le, fun _ => ⟨key, blk, fb, hk, hm, hfb, hp ▸ encblkOn_row ho⟩,
        fun e => absurd e hin.ne⟩
    · obtain ⟨acc, -, rfl⟩ := encfin_next hf
      exact ⟨i, i, hi, hn, le_rfl, fun hlt => absurd hlt (lt_irrefl i), fun _ => ⟨rfl, rfl⟩⟩
  · obtain ⟨iv, data, ho, -, ⟨ha, rfl⟩ | ⟨ha, rfl⟩⟩ := sizechk_next (engineStep_decChk hp ▸ he)
    · exact ⟨iv, data, ho, fun h0 => absurd h0 ha, fun _ => ⟨rfl, rfl⟩⟩
    · exact ⟨iv, data, ho, fun _ => rfl, fun hne => absurd ha hne⟩
  · obtain ⟨iv, data, ho, hl⟩ := decIvStep_next (engineStep_decIv hp ▸ he)
    exact ⟨iv, data, ho, ivload_row hl⟩
  · obtain ⟨i, n, hi, hn, ⟨hin, hb⟩ | ⟨rfl, hf⟩⟩ := decBlkStep_next (engineStep_decBlk hp ▸ he)
    · obtain ⟨key, blk, fb, acc, hk, hm, -, -, ho⟩ := decblk_next hb
      exact ⟨i, n, hi, hn, hin.le, fun _ => ⟨key, blk, hk, hm, hp ▸ decblkOn_row ho⟩, fun e => absurd e hin.ne⟩
    · exact ⟨i, i, hi, hn, le_rfl, fun hlt => absurd hlt (lt_irrefl i), fun _ => paddec_row hf⟩

end Sys2Proof.Machine
end

section
/-! ZeroPad (44_collaborators.md R161 to R163): encode appends 1 to `bs` zero bytes, decode strips every trailing zero
byte of a sequence that has one; so decode after encode strips the data's own trailing zero bytes too. -/

namespace Sys2Proof.Machine

variable {ι : Type} {I : InfoRep ι}

/-! ### stripZeros: what it removes, and what it leaves as it is -/

/-- A byte goes when it is zero and nothing of what follows it stays (R162). -/
theorem stripZeros_cons (b : Byte) (rest : Bytes) :
    stripZeros (b :: rest) = if stripZeros rest = [] ∧ b = 0#8 then [] else b :: stripZeros rest := by
  rw [stripZeros]
  cases stripZeros rest <;> simp

theorem stripZeros_append_zeros (m : Bytes) (z : Nat) : stripZeros (m ++ List.replicate z 0#8) = stripZeros m := by
  induction m with
  | nil =>
    induction z with
    | zero => rfl
    | succ z ih => exact (stripZeros_cons _ _).trans (if_pos ⟨ih, rfl⟩)
  | cons b rest ih => rw [List.cons_append, stripZeros_cons, stripZeros_cons, ih]

theorem stripZeros_eq_self {m : Bytes} (h : m.getLast? ≠ some 0#8) : stripZeros m = m := by
  induction m with
  | nil => rfl
  | cons b rest ih =>
    cases rest with
    | nil => simpa [stripZeros] using h
    | cons c cs => rw [stripZeros_cons, ih (by simpa using h), if_neg (by simp)]

/-- `stripZeros` leaves exactly the sequences that do not end in a zero byte: a final zero byte makes the result
shorter. -/
theorem stripZeros_eq_self_iff (p : Bytes) : stripZeros p = p ↔ p.getLast? ≠ some 0#8 := by
  refine ⟨fun hs hlast => ?_, stripZeros_eq_self⟩
  obtain ⟨q, rfl⟩ := List.getLast?_eq_some_iff.mp hlast
  have hstrip : stripZeros (q ++ [0#8]) = stripZeros q := stripZeros_append_zeros q 1
  have hlen := stripZeros_length_le q
  rw [← hstrip, hs, List.length_append, List.length_singleton] at hlen
  omega

/-- "Empty, or not ended by `00`" says no more than its second part: an empty sequence has no last byte. -/
theorem nil_or_getLast?_ne_iff (p : Bytes) : p = [] ∨ p.getLast? ≠ some 0#8 ↔ p.getLast? ≠ some 0#8 :=
  or_iff_right_of_imp fun h => by simp [h]

/-! ### What ZeroPad answers -/

theorem zeroPad_encode (I : InfoRep ι) (bs : Nat) (d : Bytes) :
    (zeroPad I).encode bs d = d ++ List.replicate (bs - d.length % bs) 0#8 := rfl

/-- At a block size of at least 1 there is always something to append (R161). -/
theorem zeroPad_count_pos {bs : Nat} (hbs : 1 ≤ bs) (n : Nat) : 1 ≤ bs - n % bs :=
  Nat.sub_pos_of_lt (Nat.mod_lt n hbs)

theorem zeroPad_encode_length {bs : Nat} (hbs : 1 ≤ bs) (d : Bytes) :
    ((zeroPad I).encode bs d).length = (d.length / bs + 1) * bs := by
  have hlt : d.length % bs < bs := Nat.mod_lt _ hbs
  have hdiv := Nat.div_add_mod' d.length bs
  rw [zeroPad_encode, List.length_append, List.length_replicate, Nat.succ_mul]
  omega

theorem zeroPad_extends (I : InfoRep ι) : PadExtends (zeroPad I) :=
  fun _ _ _ => List.prefix_append _ _

theorem zeroPad_always (I : InfoRep ι) : PadAlways (zeroPad I) := by
  intro bs d hbs
  rw [zeroPad_encode, List.length_append, List.length_replicate]
  exact Nat.add_le_add_left (zeroPad_count_pos hbs d.length) d.length

theorem zeroPad_decode_err {p : Bytes} (bs : Nat) (h : p.getLast? ≠ some 0#8) :
    (zeroPad I).decode bs p = .err (I.number 0) := if_neg h

/-- Zero bytes at the end, at least one: decode takes them off, and those in front of them (R162). -/
theorem zeroPad_decode_append_zeros (bs : Nat) {z : Nat} (hz : 1 ≤ z) (m : Bytes) :
    (zeroPad I).decode bs (m ++ List.replicate z 0#8) = .ok (stripZeros m) := by
  have hlast : (m ++ List.replicate z 0#8).getLast? = some 0#8 := by
    rw [List.getLast?_append, List.getLast?_replicate, if_neg (Nat.one_le_iff_ne_zero.mp hz), Option.some_or]
  exact (if_pos hlast).trans (congrArg _ (stripZeros_append_zeros m z))

theorem zeroPad_decode_encode {bs : Nat} (hbs : 1 ≤ bs) (d : Bytes) :
    (zeroPad I).decode bs ((zeroPad I).encode bs d) = .ok (stripZeros d) :=
  zeroPad_decode_append_zeros bs (zeroPad_count_pos hbs d.length) d

theorem zeroPad_inverse_iff {bs : Nat} (hbs : 1 ≤ bs) (d : Bytes) :
    PadInverse (zeroPad I) bs d ↔ d.getLast? ≠ some 0#8 := by
  rw [PadInverse, zeroPad_decode_encode hbs, Result.ok.injEq, stripZeros_eq_self_iff]

/-! ### The statements -/

/-- Settles O14: the count of appended bytes, from which the length and the three properties of the scheme follow. -/
theorem zeroPadEncodes : Obligations.ZeroPadEncodes := by
  refine ⟨fun ι I bs d hbs => ⟨?_, zeroPad_encode_length hbs d, zeroPad_aligned I bs d hbs, zeroPad_extends I bs d hbs,
    zeroPad_always I bs d hbs⟩, fun ι I => ⟨zeroPad_aligned I, zeroPad_extends I, zeroPad_always I⟩, ?_⟩
  · exact ⟨_, rfl, zeroPad_count_pos hbs _, Nat.sub_le _ _, zeroPad_encode I bs d⟩
  · decide

/-- Settles O15: decode fails unless the last byte is zero, and what stands in front of the zero bytes stays. -/
theorem zeroPadDecodes : Obligations.ZeroPadDecodes := by
  refine ⟨fun ι I bs p hp => zeroPad_decode_err bs ((nil_or_getLast?_ne_iff p).mp hp), fun ι I bs z m hz hm => ?_⟩
  rw [zeroPad_decode_append_zeros bs hz, stripZeros_eq_self ((nil_or_getLast?_ne_iff m).mp hm)]

/-- Settles O16: decode after encode strips the data, which leaves it as it is exactly when it does not end in `00`. -/
theorem zeroPadInvertsUnlessDataEndsInZero : Obligations.ZeroPadInvertsUnlessDataEndsInZero := by
  refine fun ι I bs d hbs => ⟨(zeroPad_inverse_iff hbs d).trans (nil_or_getLast?_ne_iff d).symm, ?_⟩
  rintro m z - rfl hm
  rw [zeroPad_decode_encode hbs, stripZeros_append_zeros, stripZeros_eq_self ((nil_or_getLast?_ne_iff m).mp hm)]

end Sys2Proof.Machine
end

section
/-! ENCRYPT and DECRYPT from acceptance to IDLE (43_xorblock_sequencer.md R138 to R149): the engine ends in the state
that the reference functions (45_properties.md R183, R184) give. -/

namespace Sys2Proof.Machine

variable {ι : Type} {I : InfoRep ι} {P : Params I} {s t : State ι}

/-! ### The end of an operation -/

/-- `s` after the operation whose reference function answers `r` has ended, its calls `evs` standing in TRACE; an
IvSizeError is recorded with the length of `iv` (R139, R183, R205). -/
def operationEnd (I : InfoRep ι) (r : Res Bytes ι) (lo : BitVec 2) (evs : List (Event ι)) (iv : Bytes)
    (s : State ι) : State ι :=
  match r with
  | .ok out => finished .ok (I.number 0) 0 (some out) lo evs s
  | .err kind info idx => { finished kind info idx none lo evs s with
      runFaults := if kind = .ivSize then s.runFaults ++ [.ivSize iv.length] else s.runFaults }

/-- `s` right after acceptance of ENCRYPT or DECRYPT, which consumes IVBUF and INBUF (R138). -/
def started (I : InfoRep ι) (op : Op) (ph : Phase) (s : State ι) : State ι :=
  accept I op ph { s with ivbuf := none, inbuf := none }

theorem operationEnd_phase (r : Res Bytes ι) (lo : BitVec 2) (evs : List (Event ι)) (iv : Bytes) :
    (operationEnd I r lo evs iv s).phase = .idle := by
  cases r <;> rfl

/-- The STATUS word at the end of an operation (R32, R139). -/
theorem statusWord_of_done (lo : BitVec 2) (e : BitVec 4) (hp : s.phase = .idle) (hd : s.done = true)
    (hl : s.lastop = lo) (he : s.err = e) : s.statusWord = 0#24 ++ lo ++ 0#1 ++ 1#1 ++ e := by
  rw [State.statusWord, State.busy, hp, hd, hl, he]
  rfl

/-- An operation that starts between two operations leaves the working group and OP as it found them (R31, R139). -/
theorem finished_started {op : Op} {ph : Phase} (hi : s.Inv P) (hid : s.phase = .idle) (k : ErrKind) (info : ι)
    (i : Nat) (out : Option Bytes) (lo : BitVec 2) (evs : List (Event ι)) :
    finished k info i out lo evs (started I op ph s) = { s with
      ivbuf := none, inbuf := none, outbuf := out, err := k.code, done := true, lastop := lo
      errinfo := info, erridx := i, trace := s.trace ++ evs } := by
  obtain ⟨⟨hfb, hblk, htmp, houtb, hidx, hnblk, hwork, hacc⟩, hop⟩ := inv_quiet_of_idle hi hid
  simp only [finished, started, accept, clear, hfb, hblk, htmp, houtb, hidx, hnblk, hwork, hacc, hop, hid]

/-! ### ENCRYPT -/

section
variable {iv pt key : Bytes} (hp : t.phase = .encPad) (hr : t.rstPending = false) (ho : t.op = .encrypt iv pt)
  (hb : t.bs ≠ 0) (ha : (P.pad.encode t.pbs pt).length % t.bs = 0)
  (hf : P.fits (P.pad.encode t.pbs pt).length = true)

/-- `t` after PADENC has framed the plaintext `pt` (R140). -/
def framed (P : Params I) (pt : Bytes) (t : State ι) : State ι :=
  { addEvent (.evPadEncode t.pbs pt (P.pad.encode t.pbs pt)) t with
    work := some (P.pad.encode t.pbs pt), nblk := some ((P.pad.encode t.pbs pt).length / t.bs)
    idx := some 0, acc := some [], phase := .encIv }

include hp hr ho hb ha hf in
theorem stepUnder_padenc : stepUnder P t = .next (framed P pt t) := by
  rw [stepUnder_busy (by simp [hp]) hr, engineStep_encPad hp]
  exact padenc_of_fitting ho hb ha hf

include hr ho in
/-- After the framing comes IVLOAD on the latched IV (R142, R148). -/
theorem stepUnder_framed : stepUnder P (framed P pt t) = ivload I iv .encBlk (framed P pt t) := by
  rw [stepUnder_busy (by simp [framed]) (by exact hr), engineStep_encIv rfl]
  exact encIvStep_of_encrypt ho

include hp hr ho hb ha hf in
/-- PADENC and IVLOAD take ENCRYPT with an IV of one block to its block phase (R140, R142). -/
theorem encrypt_reaches_encBlk (hiv : iv.length = t.bs) :
    runsTo P 2 t { framed P pt t with fb := some iv, phase := .encBlk } :=
  runsTo_cons (stepUnder_padenc hp hr ho hb ha hf)
    (runsTo_one ((stepUnder_framed hr ho).trans (ivload_of_length hiv)))

include hp hr ho hb ha hf in
/-- An accepted ENCRYPT ends as `cbc_encrypt` says: the IV's length decides whether the chain runs (R140 to R145). -/
theorem encrypt_run (hk : t.keystore = some key) :
    ∃ k, k ≤ 3 + (P.pad.encode t.pbs pt).length / t.bs ∧ runsTo P k t
      (operationEnd I (cbcEncrypt P key t.bs t.pbs iv pt) 2#2 (encryptEvents P key t.bs t.pbs iv pt) iv t) := by
  by_cases hiv : iv.length = t.bs
  · obtain ⟨k, hle, hrun⟩ := encBlk_run (P := P) ((P.pad.encode t.pbs pt).length / t.bs)
      { framed P pt t with fb := some iv, phase := .encBlk } iv pt key (P.pad.encode t.pbs pt) []
      ((P.pad.encode t.pbs pt).length / t.bs) 0 ⟨iv, hiv⟩ rfl hr ho hk rfl
      (Nat.div_mul_cancel (Nat.dvd_of_mod_eq_zero ha)).symm rfl rfl (Nat.zero_add _) rfl rfl
    refine ⟨2 + k, by omega, ?_⟩
    convert runsTo_trans (encrypt_reaches_encBlk hp hr ho hb ha hf hiv) hrun using 1
    simp only [cbcEncrypt, encryptEvents, asBlock_of_length hiv]
    show operationEnd I (chainEnc P.ciph key t.bs (P.pad.encode t.pbs pt) _ 0 ⟨iv, hiv⟩ []) _ _ _ _ =
      encEnd I (chainEnc P.ciph key t.bs (P.pad.encode t.pbs pt) _ 0 ⟨iv, hiv⟩ []) _ _
    cases hc : chainEnc P.ciph key t.bs (P.pad.encode t.pbs pt) _ 0 ⟨iv, hiv⟩ [] with
    | ok ct => simp [operationEnd, encEnd, finished, framed, State.bs]
    | err kind info idx =>
      obtain rfl := chainEnc_err hc
      simp [operationEnd, encEnd, finished, framed, State.bs]
  · refine ⟨2, Nat.le_add_right_of_le (by decide), runsTo_cons (stepUnder_padenc hp hr ho hb ha hf) (runsTo_one ?_)⟩
    rw [cbcEncrypt_of_wrong_iv P key iv pt t.bs t.pbs hiv, encryptEvents_of_wrong_iv P key iv pt t.bs t.pbs hiv,
      stepUnder_framed hr ho, ivload_of_wrong_length (s := framed P pt t) hiv]
    exact next_complete (congrArg Op.lastop ho)

end

/-! ### DECRYPT -/

section
variable {iv ct key : Bytes} (hp : t.phase = .decChk) (hr : t.rstPending = false) (ho : t.op = .decrypt iv ct)
  (hb : t.bs ≠ 0)

/-- `t` after SIZECHK has counted the blocks of the ciphertext `ct` (R141). -/
def sized (ct : Bytes) (t : State ι) : State ι :=
  { t with nblk := some (ct.length / t.bs), idx := some 0, acc := some [], phase := .decIv }

include hp hr in
theorem stepUnder_sizechk : stepUnder P t = sizechk I t := by
  rw [stepUnder_busy (by simp [hp]) hr, engineStep_decChk hp]

include hr ho in
/-- After the size check comes IVLOAD on the latched IV (R142, R148). -/
theorem stepUnder_sized : stepUnder P (sized ct t) = ivload I iv .decBlk (sized ct t) := by
  rw [stepUnder_busy (by simp [sized]) (by exact hr), engineStep_decIv rfl]
  exact decIvStep_of_decrypt ho

include hp hr ho hb in
/-- SIZECHK and IVLOAD take DECRYPT of whole blocks with an IV of one block to its block phase (R141, R142). -/
theorem decrypt_reaches_decBlk (ha : ct.length % t.bs = 0) (hiv : iv.length = t.bs) :
    runsTo P 2 t { sized ct t with fb := some iv, phase := .decBlk } :=
  runsTo_cons ((stepUnder_sizechk hp hr).trans (sizechk_of_aligned ho hb ha))
    (runsTo_one ((stepUnder_sized hr ho).trans (ivload_of_length hiv)))

include hp hr ho hb in
/-- A ciphertext that is no whole number of blocks ends DECRYPT at SIZECHK (R116, R141). -/
theorem decrypt_rejects_size (ha : ct.length % t.bs ≠ 0) :
    stepUnder P t = .next (finished .invalidSize (I.number (ct.length % t.bs)) 0 none 3#2 [] t) := by
  rw [stepUnder_sizechk hp hr, sizechk_of_unaligned ho hb ha, next_complete (congrArg Op.lastop ho), finished,
    List.append_nil]
  rfl

/-- The recovery and the deframing together: `chain_dec` and PADDEC end DECRYPT as `cbc_decrypt` says (R184). -/
theorem decEnd_eq_operationEnd {pbs : Nat} (hiv : iv.length = s.bs) (ha : ct.length % s.bs = 0) :
    decEnd P (chainDec P.ciph key s.bs ct (ct.length / s.bs) 0 ⟨iv, hiv⟩ []) pbs
        (chainDecEvents P.ciph key s.bs ct (ct.length / s.bs) 0) s =
      operationEnd I (cbcDecrypt P key s.bs pbs iv ct) 3#2 (decryptEvents P key s.bs pbs iv ct) iv s := by
  simp only [cbcDecrypt, decryptEvents, cbcRecover, ha, asBlock_of_length hiv, hiv, ne_eq, not_true, if_false]
  cases hc : chainDec P.ciph key s.bs ct (ct.length / s.bs) 0 ⟨iv, hiv⟩ [] with
  | err kind info idx =>
    obtain rfl := chainDec_err hc
    simp [operationEnd, decEnd, finished]
  | ok acc => cases hd : P.pad.decode pbs acc <;> simp [operationEnd, decEnd, finished, hd]

include hp hr ho hb in
/-- An accepted DECRYPT ends as `cbc_decrypt` says: the ciphertext's length comes first, then the IV's, then the chain
(R141 to R146). -/
theorem decrypt_run (hk : t.keystore = some key) :
    ∃ k, k ≤ 3 + ct.length / t.bs ∧ runsTo P k t
      (operationEnd I (cbcDecrypt P key t.bs t.pbs iv ct) 3#2 (decryptEvents P key t.bs t.pbs iv ct) iv t) := by
  by_cases ha : ct.length % t.bs = 0
  · by_cases hiv : iv.length = t.bs
    · obtain ⟨k, hle, hrun⟩ := decBlk_run (P := P) (ct.length / t.bs)
        { sized ct t with fb := some iv, phase := .decBlk } iv ct key [] (ct.length / t.bs) 0 ⟨iv, hiv⟩ rfl hr ho hk
        (Nat.div_mul_cancel (Nat.dvd_of_mod_eq_zero ha)).symm rfl rfl (Nat.zero_add _) rfl rfl
      refine ⟨2 + k, by omega, ?_⟩
      convert runsTo_trans (decrypt_reaches_decBlk hp hr ho hb ha hiv) hrun using 1
      exact (decEnd_eq_operationEnd (s := { sized ct t with fb := some iv, phase := .decBlk }) hiv ha).symm
    · refine ⟨2, Nat.le_add_right_of_le (by decide),
        runsTo_cons ((stepUnder_sizechk hp hr).trans (sizechk_of_aligned ho hb ha)) (runsTo_one ?_)⟩
      have hc : cbcDecrypt P key t.bs t.pbs iv ct = .err .ivSize (I.number iv.length) 0 := by
        simp only [cbcDecrypt, cbcRecover, ha, asBlock_eq_none.mpr hiv, ne_eq, not_true, if_false]
      rw [hc, decryptEvents_of_rejected P key iv ct t.bs t.pbs (.inr hiv), operationEnd, finished, List.append_nil]
      exact (stepUnder_sized hr ho).trans
        ((ivload_of_wrong_length (s := sized ct t) hiv).trans (next_complete (congrArg Op.lastop ho)))
  · refine ⟨1, Nat.le_add_right_of_le (by decide), runsTo_one ?_⟩
    have hc : cbcDecrypt P key t.bs t.pbs iv ct = .err .invalidSize (I.number (ct.length % t.bs)) 0 := by
      simp only [cbcDecrypt, cbcRecover, ne_eq, ha, not_false_iff, if_true]
    rw [hc, decryptEvents_of_rejected P key iv ct t.bs t.pbs (.inl ha)]
    exact decrypt_rejects_size hp hr ho hb ha

end

/-! ### The commands of a constructed engine -/

section
variable {iv data key : Bytes} (h : s.ready P key) (hi : s.ivbuf = some iv) (hd : s.inbuf = some data)

/-- A constructed engine has a block size, and gives it to the framer (R22, R23). -/
theorem ready_sizes (h : s.ready P key) : s.bs ≠ 0 ∧ s.pbs = s.bs := by
  obtain ⟨⟨hc, -⟩, -, -, hv, -⟩ := h
  obtain ⟨hb, hpbs, -⟩ := cfgInv_constructed hc hv
  exact ⟨hb, hpbs⟩

include h hi hd in
theorem ready_accepts_encrypt : command I .encrypt s = .next (started I (.encrypt iv data) .encPad s) := by
  obtain ⟨-, hid, -, hv, -⟩ := h
  exact commandEncrypt_accepts hid hv hi hd

include h hi hd in
theorem ready_accepts_decrypt : command I .decrypt s = .next (started I (.decrypt iv data) .decChk s) := by
  obtain ⟨-, hid, -, hv, -⟩ := h
  exact commandDecrypt_accepts hid hv hi hd

include h in
theorem ready_encrypt_run (ha : (P.pad.encode s.pbs data).length % s.bs = 0)
    (hf : P.fits (P.pad.encode s.pbs data).length = true) :
    ∃ k, k ≤ 3 + (P.pad.encode s.pbs data).length / s.bs ∧ runsTo P k (started I (.encrypt iv data) .encPad s)
      (operationEnd I (cbcEncrypt P key s.bs s.pbs iv data) 2#2 (encryptEvents P key s.bs s.pbs iv data) iv
        (started I (.encrypt iv data) .encPad s)) := by
  obtain ⟨-, -, hr, -, hk⟩ := id h
  exact encrypt_run (t := started I (.encrypt iv data) .encPad s) rfl hr rfl (ready_sizes h).1 ha hf hk

include h in
theorem ready_decrypt_run :
    ∃ k, k ≤ 3 + data.length / s.bs ∧ runsTo P k (started I (.decrypt iv data) .decChk s)
      (operationEnd I (cbcDecrypt P key s.bs s.pbs iv data) 3#2 (decryptEvents P key s.bs s.pbs iv data) iv
        (started I (.decrypt iv data) .decChk s)) := by
  obtain ⟨-, -, hr, -, hk⟩ := id h
  exact decrypt_run (t := started I (.decrypt iv data) .decChk s) rfl hr rfl (ready_sizes h).1 hk

end

/-- Settles O28: an accepted ENCRYPT runs to what `cbc_encrypt` gives, and finds the working group empty before and
after. -/
theorem encryptCommand : Obligations.EncryptCommand := by
  intro P s key iv pt h hi hd ha hf
  obtain ⟨hinv, hid, -⟩ := id h
  obtain ⟨k, hk, hrun⟩ := ready_encrypt_run (iv := iv) h ha hf
  refine ⟨_, k, (exec_eq_command _ s).trans (ready_accepts_encrypt h hi hd), rfl, hk, ?_⟩
  cases hc : cbcEncrypt P key s.bs s.pbs iv pt <;> rw [hc, operationEnd, finished_started hinv hid] at hrun <;>
    exact hrun

/-- Settles O29: an accepted DECRYPT runs to what `cbc_decrypt` gives, and finds the working group empty before and
after. -/
theorem decryptCommand : Obligations.DecryptCommand := by
  intro P s key iv ct h hi hd
  obtain ⟨hinv, hid, -⟩ := id h
  obtain ⟨k, hk, hrun⟩ := ready_decrypt_run (iv := iv) (data := ct) h
  refine ⟨_, k, (exec_eq_command _ s).trans (ready_accepts_decrypt h hi hd), rfl, hk, ?_⟩
  cases hc : cbcDecrypt P key s.bs s.pbs iv ct <;> rw [hc, operationEnd, finished_started hinv hid] at hrun <;>
    exact hrun

end Sys2Proof.Machine
end

section
/-! The reference functions block by block (45_properties.md R175 to R178, R182): each ciphertext block is the
encryption of a plaintext block xor the feedback, each recovered block a decryption xor the feedback. -/

namespace Sys2Proof.Machine

variable {ι : Type} {I : InfoRep ι} {P : Params I} {c : BlockCipher ι} {key : Bytes} {bs : Nat}

/-! ### Blocks of sequences -/

/-- The feedback block `i` of the ciphertext `ct`: the IV, then the ciphertext block before (R104, R119). -/
def feedback (iv : Block bs) (ct : Bytes) : Nat → Block bs
  | 0 => iv
  | i + 1 => blockAt bs ct i

/-- A block inside a sequence is the same in every longer one. -/
theorem blockAt_of_prefix {s t : Bytes} {i : Nat} (h : s <+: t) (hi : i * bs + bs ≤ s.length) :
    blockAt bs t i = blockAt bs s i := by
  obtain ⟨r, rfl⟩ := h
  have hd : bs ≤ (s.drop (i * bs)).length := by
    rw [List.length_drop]
    omega
  have ht : i * bs + bs ≤ (s ++ r).length := by
    rw [List.length_append]
    omega
  exact Subtype.ext (by
    rw [blockAt_val ht, blockAt_val hi, List.drop_append_of_le_length (by omega), List.take_append_of_le_length hd])

/-- The feedback for block `i` is known when the blocks before it are. -/
theorem feedback_of_prefix {s t : Bytes} {i : Nat} {iv : Block bs} (h : s <+: t) (hs : s.length = i * bs) :
    feedback iv t i = feedback iv s i := by
  cases i with
  | zero => rfl
  | succ i => exact blockAt_of_prefix h (by rw [hs, Nat.succ_mul])

/-- The block appended to `i` blocks is block `i`. -/
theorem blockAt_append {s : Bytes} {i : Nat} (hs : s.length = i * bs) (b : Block bs) :
    blockAt bs (s ++ b.val) i = b := by
  refine Subtype.ext ?_
  rw [blockAt_val (by rw [List.length_append, hs, b.property]), List.drop_left' hs,
    List.take_of_length_le b.property.le]

theorem blockAt_append_rest {s : Bytes} {i : Nat} (h : i * bs + bs ≤ s.length) :
    (blockAt bs s i).val ++ s.drop ((i + 1) * bs) = s.drop (i * bs) := by
  rw [blockAt_val h, Nat.succ_mul, ← List.drop_drop, List.take_append_drop]

/-- A sequence of whole blocks is determined by its blocks. -/
theorem eq_of_blocks {n : Nat} {s t : Bytes} (hs : s.length = n * bs) (ht : t.length = n * bs)
    (h : ∀ j, j < n → blockAt bs s j = blockAt bs t j) : s = t := by
  have hdrop (m : Nat) (hm : m ≤ n) : s.drop ((n - m) * bs) = t.drop ((n - m) * bs) := by
    induction m with
    | zero => rw [Nat.sub_zero, List.drop_of_length_le hs.le, List.drop_of_length_le ht.le]
    | succ m ih =>
      have hj : n - (m + 1) < n := by omega
      rw [← blockAt_append_rest (block_inside hs hj), ← blockAt_append_rest (block_inside ht hj), h _ hj,
        show n - (m + 1) + 1 = n - m by omega, ih (by omega)]
  simpa using hdrop n le_rfl

/-- XORBLK with one block can be undone (R137 (f)). -/
theorem xorblk_right_cancel {a a' b : Block bs} (h : xorblk a b = xorblk a' b) : a = a' := by
  rw [← xorblk_cancel a b, h, xorblk_cancel]

/-! ### The chains -/

/-- The blocks of `chain_enc` from block `i` on (R104, R183). -/
theorem chainEnc_blocks {padded out ct : Bytes} {left i : Nat} {iv : Block bs} (ho : out.length = i * bs)
    (h : chainEnc c key bs padded left i (feedback iv out i) out = .ok ct) :
    out <+: ct ∧ ct.length = (i + left) * bs ∧ ∀ j, i ≤ j → j < i + left →
      c.enc key bs (xorblk (blockAt bs padded j) (feedback iv ct j)) = .ok (blockAt bs ct j) := by
  induction left generalizing i out with
  | zero =>
    cases h
    exact ⟨List.prefix_rfl, ho, fun j _ _ => by omega⟩
  | succ left ih =>
    simp only [chainEnc] at h
    split at h
    · cases h
    · next ob he =>
      have hlen := length_append_block ho ob
      have hfb : feedback iv (out ++ ob.val) (i + 1) = ob := blockAt_append ho ob
      obtain ⟨hpre, hct, hblocks⟩ := ih hlen (hfb.symm ▸ h)
      have hout : out <+: ct := (List.prefix_append _ _).trans hpre
      refine ⟨hout, by rw [hct]; ring_nf, fun j hij hj => ?_⟩
      obtain rfl | hlt := Nat.eq_or_lt_of_le hij
      · rw [feedback_of_prefix hout ho, he, blockAt_of_prefix hpre (by rw [hlen, Nat.succ_mul]),
          blockAt_append ho]
      · exact hblocks j hlt (by omega)

/-- The blocks of `chain_dec` from block `i` on (R119, R184). -/
theorem chainDec_blocks {ct acc out : Bytes} {left i : Nat} {iv : Block bs} (ha : acc.length = i * bs)
    (h : chainDec c key bs ct left i (feedback iv ct i) acc = .ok out) :
    acc <+: out ∧ out.length = (i + left) * bs ∧ ∀ j, i ≤ j → j < i + left →
      ∃ d, c.dec key bs (blockAt bs ct j) = .ok d ∧ blockAt bs out j = xorblk d (feedback iv ct j) := by
  induction left generalizing i acc with
  | zero =>
    cases h
    exact ⟨List.prefix_rfl, ha, fun j _ _ => by omega⟩
  | succ left ih =>
    simp only [chainDec] at h
    split at h
    · cases h
    · next d hd =>
      have hlen := length_append_block ha (xorblk d (feedback iv ct i))
      obtain ⟨hpre, hout, hblocks⟩ := ih hlen h
      refine ⟨(List.prefix_append _ _).trans hpre, by rw [hout]; ring_nf, fun j hij hj => ?_⟩
      obtain rfl | hlt := Nat.eq_or_lt_of_le hij
      · exact ⟨d, hd, by rw [blockAt_of_prefix hpre (by rw [hlen, Nat.succ_mul]), blockAt_append ha]⟩
      · exact hblocks j hlt (by omega)

theorem chainEnc_ok_of_enc_ok (henc : ∀ x, ∃ y, c.enc key bs x = .ok y) (padded : Bytes) (left i : Nat)
    (fb : Block bs) (out : Bytes) : ∃ ct, chainEnc c key bs padded left i fb out = .ok ct := by
  induction left generalizing i fb out with
  | zero => exact ⟨out, rfl⟩
  | succ left ih =>
    obtain ⟨ob, he⟩ := henc (xorblk (blockAt bs padded i) fb)
    simp only [chainEnc, he]
    exact ih _ _ _

theorem chainDec_ok_of_dec_ok {ct : Bytes} {left i : Nat}
    (hdec : ∀ j, i ≤ j → j < i + left → ∃ d, c.dec key bs (blockAt bs ct j) = .ok d) (fb : Block bs) (acc : Bytes) :
    ∃ out, chainDec c key bs ct left i fb acc = .ok out := by
  induction left generalizing i fb acc with
  | zero => exact ⟨acc, rfl⟩
  | succ left ih =>
    obtain ⟨d, hd⟩ := hdec i le_rfl (by omega)
    simp only [chainDec, hd]
    exact ih (fun j hij hj => hdec j (by omega) (by omega)) _ _

/-! ### The commands -/

variable {iv data : Bytes} {pbs : Nat}

/-- A successful encryption, block by block (R104, R105). -/
theorem cbcEncrypt_blocks {ct : Bytes} (h : cbcEncrypt P key bs pbs iv data = .ok ct) :
    ∃ hiv : iv.length = bs, ct.length = (P.pad.encode pbs data).length / bs * bs ∧
      ∀ j, j < (P.pad.encode pbs data).length / bs →
        P.ciph.enc key bs (xorblk (blockAt bs (P.pad.encode pbs data) j) (feedback ⟨iv, hiv⟩ ct j)) =
          .ok (blockAt bs ct j) := by
  by_cases hiv : iv.length = bs
  · simp only [cbcEncrypt, asBlock_of_length hiv] at h
    obtain ⟨-, hlen, hblocks⟩ := chainEnc_blocks (iv := ⟨iv, hiv⟩) (by simp) h
    rw [Nat.zero_add] at hlen hblocks
    exact ⟨hiv, hlen, fun j hj => hblocks j (Nat.zero_le j) hj⟩
  · rw [cbcEncrypt_of_wrong_iv P key iv data bs pbs hiv] at h
    cases h

/-- A successful recovery, block by block (R119, R120). -/
theorem cbcRecover_blocks {acc : Bytes} (h : cbcRecover P key bs iv data = .ok acc) :
    ∃ hiv : iv.length = bs, acc.length = data.length ∧ ∀ j, j < data.length / bs →
      ∃ d, P.ciph.dec key bs (blockAt bs data j) = .ok d ∧
        blockAt bs acc j = xorblk d (feedback ⟨iv, hiv⟩ data j) := by
  obtain ⟨info, hr⟩ | ⟨info, hr⟩ | ⟨ha, hiv, hr⟩ := cbcRecover_cases P key iv data bs <;> rw [hr] at h
  · cases h
  · cases h
  · obtain ⟨-, hlen, hblocks⟩ := chainDec_blocks (iv := ⟨iv, hiv⟩) (by simp) h
    rw [Nat.zero_add] at hlen hblocks
    exact ⟨hiv, hlen.trans (Nat.div_mul_cancel (Nat.dvd_of_mod_eq_zero ha)), fun j hj => hblocks j (Nat.zero_le j) hj⟩

theorem cbcEncrypt_ok_of_enc_ok (henc : ∀ x, ∃ y, P.ciph.enc key bs x = .ok y) (hiv : iv.length = bs)
    (pbs : Nat) (data : Bytes) : ∃ ct, cbcEncrypt P key bs pbs iv data = .ok ct := by
  simp only [cbcEncrypt, asBlock_of_length hiv]
  exact chainEnc_ok_of_enc_ok henc _ _ _ _ _

theorem cbcRecover_ok_of_dec_ok (ha : data.length % bs = 0) (hiv : iv.length = bs)
    (hdec : ∀ j, j < data.length / bs → ∃ d, P.ciph.dec key bs (blockAt bs data j) = .ok d) :
    ∃ acc, cbcRecover P key bs iv data = .ok acc := by
  simp only [cbcRecover, ha, asBlock_of_length hiv, ne_eq, not_true, if_false]
  exact chainDec_ok_of_dec_ok (fun j _ hj => hdec j (by omega)) _ _

/-! ### Lengths (R182) -/

/-- The ciphertext is as long as the framed plaintext (R105). -/
theorem cbcEncrypt_length {ct : Bytes} (ha : (P.pad.encode pbs data).length % bs = 0)
    (h : cbcEncrypt P key bs pbs iv data = .ok ct) : ct.length = (P.pad.encode pbs data).length := by
  obtain ⟨-, hlen, -⟩ := cbcEncrypt_blocks h
  rw [hlen, Nat.div_mul_cancel (Nat.dvd_of_mod_eq_zero ha)]

/-- ZeroPad's decode takes off at least one byte (R162). -/
theorem zeroPad_decode_length_lt {p d : Bytes} (h : (zeroPad I).decode bs p = .ok d) : d.length + 1 ≤ p.length := by
  by_cases hlast : p.getLast? = some 0#8
  · obtain ⟨m, rfl⟩ := List.getLast?_eq_some_iff.mp hlast
    have hd := (zeroPad_decode_append_zeros (I := I) bs le_rfl m).symm.trans h
    cases hd
    simpa using stripZeros_length_le m
  · rw [zeroPad_decode_err bs hlast] at h
    cases h

/-- Settles O37, by the lengths of the two chains and of ZeroPad's answers. -/
theorem outputLengths : Obligations.OutputLengths := by
  intro ι I P key iv d out bs hbs
  have hacc (h : cbcDecrypt P key bs bs iv d = .ok out) :
      ∃ acc, acc.length = d.length ∧ P.pad.decode bs acc = .ok out := by
    obtain ⟨acc, hr, hd⟩ := cbcDecrypt_ok h
    obtain ⟨-, hlen, -⟩ := cbcRecover_blocks hr
    exact ⟨acc, hlen, hd⟩
  refine ⟨fun hpad h => ?_, hacc, fun hpad h => ?_, fun hpad h => ?_⟩
  · have hlen := cbcEncrypt_length (hpad bs d hbs) h
    exact ⟨hlen, hlen ▸ hpad bs d hbs⟩
  · have hlen := cbcEncrypt_length (by rw [hpad]; exact zeroPad_aligned I bs d hbs) h
    rw [hpad, zeroPad_encode_length hbs] at hlen
    have hdiv := Nat.div_add_mod' d.length bs
    have hlt : d.length % bs < bs := Nat.mod_lt _ hbs
    rw [Nat.succ_mul] at hlen
    exact ⟨by rw [hlen, Nat.succ_mul], by omega, by omega⟩
  · obtain ⟨acc, hlen, hd⟩ := hacc h
    rw [hpad] at hd
    exact hlen ▸ zeroPad_decode_length_lt hd

/-! ### Error propagation (R178) -/

/-- The feedback of two ciphertexts is the same where the blocks before it are (R119). -/
theorem feedback_congr {iv : Block bs} {ct ct' : Bytes} {j : Nat}
    (h : ∀ m, j = m + 1 → blockAt bs ct' m = blockAt bs ct m) : feedback iv ct' j = feedback iv ct j := by
  cases j with
  | zero => rfl
  | succ m => exact h m rfl

/-- Settles O34: block `j` of the recovered bytes depends on blocks `j` and `j - 1` of the ciphertext alone, and on the
latter by an xor. -/
theorem errorPropagation : Obligations.ErrorPropagation := by
  intro ι I P key iv ct ct' acc acc' bs n i hbs hct hct' hin hiv hsame hdiff hr hr'
  obtain ⟨_, hlen, hblk⟩ := cbcRecover_blocks hr
  obtain ⟨_, hlen', hblk'⟩ := cbcRecover_blocks hr'
  rw [hct, Nat.mul_div_cancel _ hbs] at hblk
  rw [hct', Nat.mul_div_cancel _ hbs] at hblk'
  refine ⟨hlen.trans hct, hlen'.trans hct', fun j hj hji hji1 => ?_, fun hi1 => ?_, fun hinj heq => ?_⟩
  · obtain ⟨d, hd, hb⟩ := hblk j hj
    obtain ⟨d', hd', hb'⟩ := hblk' j hj
    rw [hsame j hj hji, hd] at hd'
    cases hd'
    rw [hb, hb', feedback_congr fun m hm => hsame m (by omega) (by omega)]
  · obtain ⟨d, hd, hb⟩ := hblk (i + 1) hi1
    obtain ⟨d', hd', hb'⟩ := hblk' (i + 1) hi1
    rw [hsame (i + 1) hi1 (by omega), hd] at hd'
    cases hd'
    rw [hb, hb', ← xorblk_assoc]
    exact congrArg (xorblk · _) (xorblk_cancel d _).symm
  · obtain ⟨d, hd, hb⟩ := hblk i hin
    obtain ⟨d', hd', hb'⟩ := hblk' i hin
    rw [hb, hb', feedback_congr fun m hm => hsame m (by omega) (by omega)] at heq
    exact hdiff (hinj _ _ d' hd' (xorblk_right_cancel heq ▸ hd))

/-! ### The round trip (R175) -/

/-- What CBC encrypts to a ciphertext it recovers from it: each recovered block is the plaintext block with the same
feedback xored in twice. -/
theorem cbcRecover_of_cbcEncrypt {ct : Bytes} (hinv : CiphInverse P.ciph key bs)
    (ha : (P.pad.encode pbs data).length % bs = 0) (h : cbcEncrypt P key bs pbs iv data = .ok ct) :
    cbcRecover P key bs iv ct = .ok (P.pad.encode pbs data) := by
  have hlen := cbcEncrypt_length ha h
  obtain ⟨hiv, -, henc⟩ := cbcEncrypt_blocks h
  rw [← hlen] at henc
  have hdec (j : Nat) (hj : j < ct.length / bs) : P.ciph.dec key bs (blockAt bs ct j) =
      .ok (xorblk (blockAt bs (P.pad.encode pbs data) j) (feedback ⟨iv, hiv⟩ ct j)) := by
    obtain ⟨y, he, hd⟩ := hinv (xorblk (blockAt bs (P.pad.encode pbs data) j) (feedback ⟨iv, hiv⟩ ct j))
    rw [henc j hj] at he
    cases he
    exact hd
  obtain ⟨acc, hr⟩ := cbcRecover_ok_of_dec_ok (hlen ▸ ha) hiv fun j hj => ⟨_, hdec j hj⟩
  obtain ⟨_, hacc, hblk⟩ := cbcRecover_blocks hr
  have hn : ct.length = ct.length / bs * bs := (Nat.div_mul_cancel (Nat.dvd_of_mod_eq_zero (hlen ▸ ha))).symm
  rw [hr, eq_of_blocks (hacc.trans hn) (hlen.symm.trans hn) fun j hj => ?_]
  obtain ⟨d, hd, hb⟩ := hblk j hj
  rw [hdec j hj] at hd
  cases hd
  rw [hb, xorblk_cancel]

theorem cbcDecrypt_of_recovered {acc plain : Bytes} (h : cbcRecover P key bs iv data = .ok acc)
    (hd : P.pad.decode pbs acc = .ok plain) : cbcDecrypt P key bs pbs iv data = .ok plain := by
  simp only [cbcDecrypt, h, hd]

section
variable {s : State ι} {out : Bytes} (h : s.ready P key) (hi : s.ivbuf = some iv) (hd : s.inbuf = some data)

include h hi hd in
/-- ENCRYPT succeeds when its reference function does (R183). -/
theorem ready_encrypt_succeeds (ha : (P.pad.encode s.pbs data).length % s.bs = 0)
    (hf : P.fits (P.pad.encode s.pbs data).length = true) (hc : cbcEncrypt P key s.bs s.pbs iv data = .ok out) :
    ∃ t k u, command I .encrypt s = .next t ∧ runsTo P k t u ∧ u.phase = .idle ∧
      u.statusWord = 0x00000090#32 ∧ u.outbuf = some out := by
  obtain ⟨k, -, hrun⟩ := ready_encrypt_run (iv := iv) h ha hf
  rw [hc] at hrun
  exact ⟨_, k, _, ready_accepts_encrypt h hi hd, hrun, rfl,
    (statusWord_of_done 2#2 0#4 rfl rfl rfl rfl).trans (by decide), rfl⟩

include h hi hd in
/-- DECRYPT succeeds when its reference function does (R184). -/
theorem ready_decrypt_succeeds (hc : cbcDecrypt P key s.bs s.pbs iv data = .ok out) :
    ∃ t k u, command I .decrypt s = .next t ∧ runsTo P k t u ∧ u.phase = .idle ∧
      u.statusWord = 0x000000D0#32 ∧ u.outbuf = some out := by
  obtain ⟨k, -, hrun⟩ := ready_decrypt_run (iv := iv) (data := data) h
  rw [hc] at hrun
  exact ⟨_, k, _, ready_accepts_decrypt h hi hd, hrun, rfl,
    (statusWord_of_done 3#2 0#4 rfl rfl rfl rfl).trans (by decide), rfl⟩

end

/-- Settles O32: DECRYPT recovers the framed plaintext, whose deframing is what the padding scheme says. -/
theorem roundTrip : Obligations.RoundTrip := by
  intro ι I P s key iv pt h hinv hpad hiv hi hd hf
  obtain ⟨hb, hpbs⟩ := ready_sizes h
  have hbs : 1 ≤ s.bs := Nat.pos_of_ne_zero hb
  have ha : (P.pad.encode s.pbs pt).length % s.bs = 0 := hpbs ▸ hpad s.bs pt hbs
  obtain ⟨ct, hc⟩ := cbcEncrypt_ok_of_enc_ok (fun x => (hinv x).imp fun _ hy => hy.1) hiv s.pbs pt
  obtain ⟨t, k, u, hcmd, hrun, hid, hst, hout⟩ := ready_encrypt_succeeds h hi hd ha hf hc
  refine ⟨t, k, u, ct, hcmd, hrun, hid, hst, hout, cbcEncrypt_length ha hc, fun s' h' hcfg hi' hd' => ?_⟩
  have hbs' : s'.bs = s.bs := congrArg BitVec.toNat hcfg
  have hdecrypt (plain : Bytes) (hp : P.pad.decode s.bs (P.pad.encode s.bs pt) = .ok plain) :
      ∃ t' k' u', command I .decrypt s' = .next t' ∧ runsTo P k' t' u' ∧ u'.phase = .idle ∧
        u'.statusWord = 0x000000D0#32 ∧ u'.outbuf = some plain := by
    refine ready_decrypt_succeeds h' hi' hd' (cbcDecrypt_of_recovered (acc := P.pad.encode s.bs pt) ?_ ?_)
    · rw [hbs', cbcRecover_of_cbcEncrypt hinv ha hc, hpbs]
    · rw [(ready_sizes h').2, hbs', hp]
  refine ⟨hdecrypt pt, fun hz m z hm hlast => hdecrypt m ?_⟩
  rw [hz, zeroPad_decode_encode hbs, hm, stripZeros_append_zeros,
    stripZeros_eq_self ((nil_or_getLast?_ne_iff m).mp hlast)]

/-! ### The IV (R176) -/

/-- Two encryptions of one framed plaintext under different IVs: the difference goes from block to block, because the
cipher is injective and the feedback of each block is the ciphertext block before. -/
theorem cbcEncrypt_blocks_ne {iv' ct ct' : Bytes}
    (hinj : ∀ x x' : Block bs, P.ciph.enc key bs x = P.ciph.enc key bs x' → x = x') (hne : iv ≠ iv')
    (h : cbcEncrypt P key bs pbs iv data = .ok ct) (h' : cbcEncrypt P key bs pbs iv' data = .ok ct') (i : Nat)
    (hi : i < (P.pad.encode pbs data).length / bs) : blockAt bs ct i ≠ blockAt bs ct' i := by
  obtain ⟨hiv, -, henc⟩ := cbcEncrypt_blocks h
  obtain ⟨hiv', -, henc'⟩ := cbcEncrypt_blocks h'
  have hstep (j : Nat) (hj : j < (P.pad.encode pbs data).length / bs)
      (hfb : feedback ⟨iv, hiv⟩ ct j ≠ feedback ⟨iv', hiv'⟩ ct' j) : blockAt bs ct j ≠ blockAt bs ct' j := by
    intro heq
    have hx := hinj _ _ ((henc j hj).trans (heq ▸ (henc' j hj).symm))
    rw [xorblk_comm _ (feedback ⟨iv, hiv⟩ ct j), xorblk_comm _ (feedback ⟨iv', hiv'⟩ ct' j)] at hx
    exact hfb (xorblk_right_cancel hx)
  induction i with
  | zero => exact hstep 0 hi fun heq => hne (congrArg Subtype.val heq)
  | succ i ih => exact hstep (i + 1) hi (ih (by omega))

/-- Settles O33, by the blocks of the two ciphertexts. -/
theorem ivChangesEveryBlock : Obligations.IvChangesEveryBlock := by
  intro ι I P s s' key iv iv' pt h h' hcfg henc hinj hpad hf hiv hiv' hne hi hi' hd hd'
  obtain ⟨hb, hpbs⟩ := ready_sizes h
  have hbs' : s'.bs = s.bs := congrArg BitVec.toNat hcfg
  have hpbs' : s'.pbs = s.bs := (ready_sizes h').2.trans hbs'
  have ha := hpad s.bs pt (Nat.pos_of_ne_zero hb)
  obtain ⟨ct, hc⟩ := cbcEncrypt_ok_of_enc_ok henc hiv s.bs pt
  obtain ⟨ct', hc'⟩ := cbcEncrypt_ok_of_enc_ok henc hiv' s.bs pt
  obtain ⟨t, k, u, hcmd, hrun, hid, -, hout⟩ :=
    ready_encrypt_succeeds h hi hd (by rwa [hpbs]) (by rwa [hpbs]) (by rwa [hpbs])
  obtain ⟨t', k', u', hcmd', hrun', hid', -, hout'⟩ :=
    ready_encrypt_succeeds h' hi' hd' (by rwa [hpbs', hbs']) (by rwa [hpbs']) (by rwa [hpbs', hbs'])
  have hlen := cbcEncrypt_length ha hc
  have hlen' := cbcEncrypt_length ha hc'
  refine ⟨t, t', k, k', u, u', ct, ct', hcmd, hcmd', hrun, hrun', hid, hid', hout, hout', hlen.trans hlen'.symm, hlen,
    fun i hin heq => ?_⟩
  have hn : ct.length = ct.length / s.bs * s.bs := (Nat.div_mul_cancel (Nat.dvd_of_mod_eq_zero (hlen ▸ ha))).symm
  refine cbcEncrypt_blocks_ne hinj hne hc hc' i (hlen ▸ hin) (Subtype.ext ?_)
  rw [blockAt_val (block_inside hn hin), blockAt_val (block_inside (hlen'.trans (hlen.symm.trans hn)) hin), heq]

end Sys2Proof.Machine
end

section
/-! What an accepted command leaves depends on the configuration and its own operands only (45_properties.md R179): the
engine reads nothing of the host's buffers, of TRACE or of the host's data. -/

namespace Sys2Proof.Machine

variable {ι : Type} {I : InfoRep ι} {P : Params I} {s s' t t' u o : State ι}

/-- The engine's part of `s` with the rest of `o`: the host's buffers, TRACE and the host's own data. -/
def State.withRest (s o : State ι) : State ι :=
  { s with
    keybuf := o.keybuf, ivbuf := o.ivbuf, inbuf := o.inbuf, trace := o.trace
    host := o.host, replies := o.replies, runFaults := o.runFaults }

/-! ### One step -/

/-- The step from `s` to `t` is one that another rest does not alter. -/
def stepsWithRest (P : Params I) (s t : State ι) : Prop :=
  ∀ o : State ι, ∃ o', engineStep P (s.withRest o) = .next (t.withRest o')

theorem newop_withRest (hp : s.phase = .newop) (h : newop P s = .next t) : stepsWithRest P s t := by
  intro o
  rw [engineStep_newop (by exact hp)]
  obtain ⟨bs, key, ho, ⟨hs, rfl⟩ | ⟨hs, rfl⟩⟩ := newop_next h
  · exact ⟨addEvent _ o, newop_of_supported (s := s.withRest o) ho hs⟩
  · exact ⟨addEvent _ o, newop_of_unsupported (s := s.withRest o) ho hs⟩

theorem padenc_withRest (hp : s.phase = .encPad) (h : padenc P s = .next t) : stepsWithRest P s t := by
  intro o
  rw [engineStep_encPad (by exact hp)]
  obtain ⟨iv, data, ho, hb, ha, hf, rfl⟩ := padenc_next h
  exact ⟨addEvent _ o, padenc_of_fitting (s := s.withRest o) ho hb ha hf⟩

theorem sizechk_withRest (hp : s.phase = .decChk) (h : sizechk I s = .next t) : stepsWithRest P s t := by
  intro o
  rw [engineStep_decChk (by exact hp)]
  obtain ⟨iv, data, ho, hb, ⟨ha, rfl⟩ | ⟨ha, rfl⟩⟩ := sizechk_next h
  · exact ⟨o, sizechk_of_unaligned (s := s.withRest o) ho hb ha⟩
  · exact ⟨o, sizechk_of_aligned (s := s.withRest o) ho hb ha⟩

theorem ivload_withRest {iv : Bytes} {ph : Phase} (h : ivload I iv ph s = .next t) (o : State ι) :
    ∃ o', ivload I iv ph (s.withRest o) = .next (t.withRest o') := by
  obtain ⟨hl, rfl⟩ | ⟨hl, rfl⟩ := ivload_next h
  · exact ⟨o, ivload_of_length (s := s.withRest o) hl⟩
  · exact ⟨addRunFault _ o, ivload_of_wrong_length (s := s.withRest o) hl⟩

theorem encBlkStep_withRest (hp : s.phase = .encBlk) (h : encBlkStep P s = .next t) : stepsWithRest P s t := by
  intro o
  rw [engineStep_encBlk (by exact hp)]
  obtain ⟨i, n, hi, hn, ⟨hin, hb⟩ | ⟨rfl, hf⟩⟩ := encBlkStep_next h
  · obtain ⟨key, blk, fb, acc, hk, hm, hfb, ha, hon⟩ := encblk_next hb
    rw [encBlkStep_of_lt (s := s.withRest o) hi hn hin, encblk_of_operands (s := s.withRest o) hk hm hfb ha]
    obtain ⟨info, he, rfl⟩ | ⟨ob, he, rfl⟩ := encblkOn_next hon
    · exact ⟨addEvent _ o, encblkOn_of_err (s := s.withRest o) he⟩
    · exact ⟨addEvent _ o, encblkOn_of_ok (s := s.withRest o) he⟩
  · obtain ⟨acc, ha, rfl⟩ := encfin_next hf
    exact ⟨o, (encBlkStep_of_end (s := s.withRest o) hi hn).trans (encfin_of_acc (s := s.withRest o) ha)⟩

theorem decBlkStep_withRest (hp : s.phase = .decBlk) (h : decBlkStep P s = .next t) : stepsWithRest P s t := by
  intro o
  rw [engineStep_decBlk (by exact hp)]
  obtain ⟨i, n, hi, hn, ⟨hin, hb⟩ | ⟨rfl, hf⟩⟩ := decBlkStep_next h
  · obtain ⟨key, blk, fb, acc, hk, hm, hfb, ha, hon⟩ := decblk_next hb
    rw [decBlkStep_of_lt (s := s.withRest o) hi hn hin, decblk_of_operands (s := s.withRest o) hk hm hfb ha]
    obtain ⟨info, hd, rfl⟩ | ⟨d, hd, rfl⟩ := decblkOn_next hon
    · exact ⟨addEvent _ o, decblkOn_of_err (s := s.withRest o) hd⟩
    · exact ⟨addEvent _ o, decblkOn_of_ok (s := s.withRest o) hd⟩
  · rw [decBlkStep_of_end (s := s.withRest o) hi hn]
    obtain ⟨acc, ha, ⟨info, hd, rfl⟩ | ⟨plain, hd, rfl⟩⟩ := paddec_next hf
    · exact ⟨addEvent _ o, paddec_of_err (s := s.withRest o) ha hd⟩
    · exact ⟨addEvent _ o, paddec_of_ok (s := s.withRest o) ha hd⟩

theorem engineStep_withRest (hid : s.phase ≠ .idle) (h : engineStep P s = .next t) : stepsWithRest P s t := by
  obtain ⟨hp, -⟩ | ⟨hp, h⟩ | ⟨hp, h⟩ | ⟨hp, h⟩ | ⟨hp, h⟩ | ⟨hp, h⟩ | ⟨hp, h⟩ | ⟨hp, h⟩ := engineStep_next h
  · exact absurd hp hid
  · exact newop_withRest hp h
  · exact padenc_withRest hp h
  · obtain ⟨iv, data, ho, hl⟩ := encIvStep_next h
    intro o
    rw [engineStep_encIv (by exact hp), encIvStep_of_encrypt (s := s.withRest o) ho]
    exact ivload_withRest hl o
  · exact encBlkStep_withRest hp h
  · exact sizechk_withRest hp h
  · obtain ⟨iv, data, ho, hl⟩ := decIvStep_next h
    intro o
    rw [engineStep_decIv (by exact hp), decIvStep_of_decrypt (s := s.withRest o) ho]
    exact ivload_withRest hl o
  · exact decBlkStep_withRest hp h

/-! ### The whole operation -/

/-- An operation that reaches IDLE ends with any other rest too, after the same number of steps and with the same engine
part, by induction on the steps of the run. -/
theorem endsAfter_withRest {k : Nat} (hr : s.rstPending = false) (hro : o.rstPending = false)
    (h : runsTo P k s u) (hid : u.phase = .idle) :
    ∃ j v o', endsAfter P j s v ∧ endsAfter P j (s.withRest o) (v.withRest o') := by
  by_cases hs : s.phase = .idle
  · exact ⟨0, s, o, endsAfter_zero hs, endsAfter_zero hs⟩
  · induction k generalizing s o with
    | zero => exact absurd (next_inj h ▸ hid) hs
    | succ k ih =>
      obtain ⟨t, hst, hrun⟩ := runsTo_succ.mp h
      have he : engineStep P s = .next t := stepUnder_busy hs hr ▸ hst
      obtain ⟨o', heo⟩ := engineStep_withRest hs he o
      have hsto : stepUnder P (s.withRest o) = .next (t.withRest o') :=
        (stepUnder_busy (s := s.withRest o) hs hro).trans heo
      by_cases ht : t.phase = .idle
      · exact ⟨1, t, o', endsAfter_cons hs hst (endsAfter_zero ht), endsAfter_cons hs hsto (endsAfter_zero ht)⟩
      · obtain ⟨j, v, o'', hj, hjo⟩ :=
          ih ((engineStep_rstPending he).trans hr) ((engineStep_rstPending heo).trans hro) hrun ht
        exact ⟨j + 1, v, o'', endsAfter_cons hs hst hj, endsAfter_cons hs hsto hjo⟩

/-! ### Two engines that accept one command -/

/-- The framer's block size is the cipher's, constructed or not (R21, R23). -/
theorem cfgInv_cfgPbs (hc : s.cfgInv P) : s.cfgPbs = s.cfgBs := by
  cases hv : s.cfgValid with
  | true => exact (hc.2 hv).2.1
  | false =>
    obtain ⟨hbs, hpbs, -⟩ := hc.1 hv
    exact hpbs.trans hbs.symm

/-- The acceptance of one command in two engines of one configuration, the working group being empty, leaves states with
one engine part (R31, R138). -/
theorem accept_eq_withRest {op : Op} {ph : Phase} (hq : s.quiet) (hq' : s'.quiet)
    (hc : s'.cfgGroup = s.cfgGroup) : accept I op ph s' = (accept I op ph s).withRest (accept I op ph s') := by
  obtain ⟨hfb, hblk, htmp, houtb, hidx, hnblk, hwork, hacc⟩ := hq
  obtain ⟨hfb', hblk', htmp', houtb', hidx', hnblk', hwork', hacc'⟩ := hq'
  obtain ⟨hv, hbs, hpbs, hk⟩ := cfgGroup_eq_iff.mp hc
  simp only [accept, clear, State.withRest, hfb, hblk, htmp, houtb, hidx, hnblk, hwork, hacc, hfb', hblk', htmp',
    houtb', hidx', hnblk', hwork', hacc', hv, hbs, hpbs, hk]

/-- The operands the command `i` latches, from what KEYBUF, IVBUF and INBUF hold when it is accepted (R138). -/
def latched (i : Instr) (key iv data : Option Bytes) : Op :=
  match i with
  | .new bs => .new (BitVec.ofNat 8 bs) (key.getD [])
  | .encrypt => .encrypt (iv.getD []) (data.getD [])
  | .decrypt => .decrypt (iv.getD []) (data.getD [])

/-- The phase the command `i` enters when it is accepted (R138, R148). -/
def firstPhase : Instr → Phase
  | .new _ => .newop
  | .encrypt => .encPad
  | .decrypt => .decChk

/-- A command that leaves IDLE has been accepted: it has latched its operands, and touched the buffers and the report
alone (R138). -/
theorem command_accepted {i : Instr} (h : command I i s = .next t) (ht : t.phase ≠ .idle) :
    s.phase = .idle ∧ ∃ kb ib db, t = accept I (latched i s.keybuf s.ivbuf s.inbuf) (firstPhase i)
      { s with keybuf := kb, ivbuf := ib, inbuf := db } := by
  cases i with
  | new bs =>
    obtain ⟨hid, ⟨-, key, hk, rfl⟩ | ⟨-, rfl⟩⟩ := commandNew_next h
    · exact ⟨hid, _, _, _, by rw [hk]; rfl⟩
    · exact absurd hid ht
  | encrypt =>
    obtain ⟨hid, ⟨-, iv, data, hi, hd, rfl⟩ | ⟨-, rfl⟩⟩ := commandEncrypt_next h
    · exact ⟨hid, _, _, _, by rw [hi, hd]; rfl⟩
    · exact absurd hid ht
  | decrypt =>
    obtain ⟨hid, ⟨-, iv, data, hi, hd, rfl⟩ | ⟨-, rfl⟩⟩ := commandDecrypt_next h
    · exact ⟨hid, _, _, _, by rw [hi, hd]; rfl⟩
    · exact absurd hid ht

/-- Two engines of one configuration that accept a command with the same operands have one engine part (R31, R138). -/
theorem accepted_eq_withRest {i : Instr} (hinv : s.Inv P) (hinv' : s'.Inv P) (hc : s'.cfgGroup = s.cfgGroup)
    (hop : latched i s'.keybuf s'.ivbuf s'.inbuf = latched i s.keybuf s.ivbuf s.inbuf)
    (h : command I i s = .next t) (h' : command I i s' = .next t') (ht : t.phase ≠ .idle) (ht' : t'.phase ≠ .idle) :
    t' = t.withRest t' := by
  obtain ⟨hid, kb, ib, db, rfl⟩ := command_accepted h ht
  obtain ⟨hid', kb', ib', db', rfl⟩ := command_accepted h' ht'
  rw [hop]
  exact accept_eq_withRest (by exact (inv_quiet_of_idle hinv hid).1) (by exact (inv_quiet_of_idle hinv' hid').1) hc

/-- NEW ends in its one step (R147). -/
theorem newop_runs_to_idle {bs : BitVec 8} {key : Bytes} (hp : s.phase = .newop) (hr : s.rstPending = false)
    (ho : s.op = .new bs key) : ∃ k u, runsTo P k s u ∧ u.phase = .idle := by
  cases hs : P.ciph.supports key.length bs.toNat with
  | true => exact ⟨1, _, runsTo_one ((stepUnder_newop hp hr).trans (newop_of_supported ho hs)), rfl⟩
  | false => exact ⟨1, _, runsTo_one ((stepUnder_newop hp hr).trans (newop_of_unsupported ho hs)), rfl⟩

/-- An accepted command ends: NEW in its one step, ENCRYPT and DECRYPT as their reference functions do (R149). -/
theorem accepted_runs_to_idle {i : Instr} (hinv : s.Inv P) (hr : s.rstPending = false) (hpad : PadAligned P.pad)
    (hf : ∀ pt, i = .encrypt → s.inbuf = some pt → P.fits (P.pad.encode s.pbs pt).length = true)
    (h : command I i s = .next t) (ht : t.phase ≠ .idle) : ∃ k u, runsTo P k t u ∧ u.phase = .idle := by
  have hready (hid : s.phase = .idle) (hv : s.cfgValid = true) : ∃ key, s.ready P key := by
    obtain ⟨-, -, key, hk⟩ := cfgInv_constructed hinv.1 hv
    exact ⟨key, hinv, hid, hr, hv, hk⟩
  cases i with
  | new bs =>
    obtain ⟨hid, ⟨-, key, -, rfl⟩ | ⟨-, rfl⟩⟩ := commandNew_next h
    · exact newop_runs_to_idle rfl hr rfl
    · exact absurd hid ht
  | encrypt =>
    obtain ⟨hid, ⟨hv, iv, data, -, hd, rfl⟩ | ⟨-, rfl⟩⟩ := commandEncrypt_next h
    · obtain ⟨key, hs⟩ := hready hid hv
      obtain ⟨hb, hpbs⟩ := ready_sizes hs
      have ha : (P.pad.encode s.pbs data).length % s.bs = 0 := hpbs ▸ hpad s.bs data (Nat.pos_of_ne_zero hb)
      obtain ⟨k, -, hrun⟩ := ready_encrypt_run (iv := iv) hs ha (hf data rfl hd)
      exact ⟨k, _, hrun, operationEnd_phase ..⟩
    · exact absurd hid ht
  | decrypt =>
    obtain ⟨hid, ⟨hv, iv, data, -, -, rfl⟩ | ⟨-, rfl⟩⟩ := commandDecrypt_next h
    · obtain ⟨key, hs⟩ := hready hid hv
      obtain ⟨k, -, hrun⟩ := ready_decrypt_run (iv := iv) (data := data) hs
      exact ⟨k, _, hrun, operationEnd_phase ..⟩
    · exact absurd hid ht

/-- An accepted command leaves the host's program, so no reset comes nearer (R138). -/
theorem accepted_rstPending {i : Instr} (h : command I i s = .next t) (ht : t.phase ≠ .idle) :
    t.rstPending = s.rstPending := by
  obtain ⟨-, kb, ib, db, rfl⟩ := command_accepted h ht
  rfl

/-- Settles O35: after acceptance the two engines have one engine part, and keep it to the end of the operation. -/
theorem resultsAreAFunctionOfTheOperands : Obligations.ResultsAreAFunctionOfTheOperands := by
  intro ι I P i s s' t t' hinv hinv' hpad hf hr hr' hv hbs hk hkey hdata h h' ht ht'
  have hc : s'.cfgGroup = s.cfgGroup :=
    cfgGroup_eq_iff.mpr ⟨hv, hbs, by rw [cfgInv_cfgPbs hinv'.1, cfgInv_cfgPbs hinv.1, hbs], hk⟩
  have hop : latched i s'.keybuf s'.ivbuf s'.inbuf = latched i s.keybuf s.ivbuf s.inbuf := by
    cases i with
    | new bs => rw [latched, hkey bs rfl, latched]
    | encrypt =>
      obtain ⟨hiv, hin⟩ := hdata (.inl rfl)
      rw [latched, hiv, hin, latched]
    | decrypt =>
      obtain ⟨hiv, hin⟩ := hdata (.inr rfl)
      rw [latched, hiv, hin, latched]
  obtain ⟨k, u, hrun, hid⟩ := accepted_runs_to_idle hinv hr hpad hf h ht
  obtain ⟨j, v, o, hend, hend'⟩ := endsAfter_withRest ((accepted_rstPending h ht).trans hr)
    ((accepted_rstPending h' ht').trans hr') hrun hid
  rw [← accepted_eq_withRest hinv hinv' hc hop h h' ht ht'] at hend'
  exact ⟨j, v, v.withRest o, hend, hend', rfl, rfl, rfl, rfl⟩

end Sys2Proof.Machine
end

section
/-! The empty plaintext with ZeroPad (45_properties.md R181): one block of zeros in each direction, four steps each. -/

namespace Sys2Proof.Machine

variable {ι : Type} {I : InfoRep ι} {P : Params I} {s t : State ι} {key iv data : Bytes} {bs : Nat}

/-! ### The block of zeros -/

/-- The block of zero bytes, which ZeroPad makes of the empty plaintext (R161). -/
def zeroBlock (bs : Nat) : Block bs := ⟨List.replicate bs 0#8, List.length_replicate⟩

theorem zeroBlock_getD (k : Nat) : (zeroBlock bs).val.getD k 0#8 = 0#8 := by
  simp [zeroBlock]

theorem zeroBlock_xorblk (b : Block bs) : xorblk (zeroBlock bs) b = b :=
  block_ext fun k => by rw [xorblk_getD, zeroBlock_getD, BitVec.zero_xor]

theorem xorblk_self (b : Block bs) : xorblk b b = zeroBlock bs :=
  block_ext fun k => by rw [xorblk_getD, zeroBlock_getD, BitVec.xor_self]

theorem zeroPad_encode_nil : (zeroPad I).encode bs [] = (zeroBlock bs).val := by
  simp [zeroPad_encode, zeroBlock]

theorem zeroPad_decode_zeroBlock (hbs : 1 ≤ bs) : (zeroPad I).decode bs (zeroBlock bs).val = .ok [] := by
  rw [← zeroPad_encode_nil (I := I)]
  exact zeroPad_decode_encode hbs []

/-! ### A block phase of one block -/

/-- A sequence of one block is its own block 0. -/
theorem whole_block (x : Block bs) : 0 * bs + bs ≤ x.val.length ∧ x.val = (x.val.drop (0 * bs)).take bs := by
  simp [x.property]

/-- ENCRYPT of one block: ENCBLK and ENCFIN (R143, R145). -/
theorem encBlk_single {x fb y : Block bs} (hbs : s.bs = bs) (hp : s.phase = .encBlk)
    (hr : s.rstPending = false) (ho : s.op = .encrypt iv data) (hk : s.keystore = some key) (hi : s.idx = some 0)
    (hn : s.nblk = some 1) (hw : s.work = some x.val) (hf : s.fb = some fb.val) (ha : s.acc = some [])
    (he : P.ciph.enc key bs (xorblk x fb) = .ok y) :
    ∃ u, runsTo P 2 s u ∧ u.phase = .idle ∧ u.statusWord = 0x00000090#32 ∧ u.outbuf = some y.val := by
  subst hbs
  obtain ⟨hle, hx⟩ := whole_block x
  obtain ⟨hstep, -⟩ := (encblkStep ι I P s iv data key x.val [] 0 1 x fb hp ho hk hi hn Nat.one_pos hw
    hle hx hf ha).1 y he
  exact ⟨_, runsTo_cons ((stepUnder_busy (by simp [hp]) hr).trans hstep)
    (runsTo_one ((stepUnder_busy (by simp [hp]) (by exact hr)).trans
      (encfinStep ι I P _ iv data y.val 1 hp ho rfl hn rfl))),
    rfl, (statusWord_of_done 2#2 0#4 rfl rfl rfl rfl).trans (by decide), rfl⟩

/-- DECRYPT of one block: DECBLK and PADDEC (R144, R146). -/
theorem decBlk_single {x fb d : Block bs} {plain : Bytes} (hbs : s.bs = bs) (hp : s.phase = .decBlk)
    (hr : s.rstPending = false) (ho : s.op = .decrypt iv x.val) (hk : s.keystore = some key) (hi : s.idx = some 0)
    (hn : s.nblk = some 1) (hf : s.fb = some fb.val) (ha : s.acc = some []) (hd : P.ciph.dec key bs x = .ok d)
    (hpad : P.pad.decode s.pbs (xorblk d fb).val = .ok plain) :
    ∃ u, runsTo P 2 s u ∧ u.phase = .idle ∧ u.statusWord = 0x000000D0#32 ∧ u.outbuf = some plain := by
  subst hbs
  obtain ⟨hle, hx⟩ := whole_block x
  obtain ⟨hstep, -⟩ := (decblkStep ι I P s iv x.val key [] 0 1 x fb hp ho hk hi hn Nat.one_pos hle
    hx hf ha).1 d hd
  exact ⟨_, runsTo_cons ((stepUnder_busy (by simp [hp]) hr).trans hstep)
    (runsTo_one ((stepUnder_busy (by simp [hp]) (by exact hr)).trans
      ((paddecStep ι I P _ iv x.val (xorblk d fb).val 1 (by exact hp) (by exact ho) (by rfl) (by exact hn)
        (by rfl)).1 plain (by exact hpad)))),
    rfl, (statusWord_of_done 3#2 0#4 rfl rfl rfl rfl).trans (by decide), rfl⟩

/-- Settles O36: PADENC or SIZECHK, IVLOAD, and the block phase of one block. -/
theorem emptyPlaintext : Obligations.EmptyPlaintext := by
  intro ι I P s key iv y hz h hf he
  obtain ⟨hb, hpbs⟩ := ready_sizes h
  obtain ⟨-, -, hr, -, hk⟩ := id h
  have hbs : 1 ≤ s.bs := Nat.pos_of_ne_zero hb
  refine ⟨fun hi hd => ?_, fun hinv hi hd => ?_⟩
  · have hpad : P.pad.encode s.pbs [] = (zeroBlock s.bs).val := by rw [hz, hpbs, zeroPad_encode_nil]
    have hlen : (P.pad.encode s.pbs []).length = s.bs := by rw [hpad, (zeroBlock s.bs).property]
    have ha : (P.pad.encode s.pbs []).length % s.bs = 0 := by rw [hlen, Nat.mod_self]
    have hn : (P.pad.encode s.pbs []).length / s.bs = 1 := by rw [hlen, Nat.div_self hbs]
    have henc : P.ciph.enc key s.bs (xorblk (zeroBlock s.bs) iv) = .ok y := by rwa [zeroBlock_xorblk]
    have hrun := encrypt_reaches_encBlk (P := P) (t := started I (.encrypt iv.val []) .encPad s) rfl hr rfl hb ha
      (by rwa [← hlen] at hf) iv.property
    obtain ⟨u, hu, hend⟩ := encBlk_single (P := P) (x := zeroBlock s.bs) (fb := iv)
      (s := { framed P [] (started I (.encrypt iv.val []) .encPad s) with fb := some iv.val, phase := .encBlk })
      rfl rfl hr rfl hk rfl (congrArg some hn) (congrArg some hpad) rfl rfl henc
    exact ⟨_, u, ready_accepts_encrypt h hi hd, runsTo_trans hrun hu, hend⟩
  · obtain ⟨y', hy', hdec⟩ := hinv iv
    rw [he] at hy'
    cases hy'
    have ha : y.val.length % s.bs = 0 := by rw [y.property, Nat.mod_self]
    have hn : y.val.length / s.bs = 1 := by rw [y.property, Nat.div_self hbs]
    have hpad : P.pad.decode s.pbs (xorblk iv iv).val = .ok [] := by
      rw [xorblk_self, hz, hpbs, zeroPad_decode_zeroBlock hbs]
    have hrun := decrypt_reaches_decBlk (P := P) (t := started I (.decrypt iv.val y.val) .decChk s) rfl hr rfl hb ha
      iv.property
    obtain ⟨u, hu, hend⟩ := decBlk_single (P := P) (x := y) (fb := iv)
      (s := { sized y.val (started I (.decrypt iv.val y.val) .decChk s) with fb := some iv.val, phase := .decBlk })
      rfl rfl hr rfl hk rfl (congrArg some hn) rfl rfl hdec hpad
    exact ⟨_, u, ready_accepts_decrypt h hi hd, runsTo_trans hrun hu, hend⟩

end Sys2Proof.Machine
end

section
/-! InvalidSizeError (45_properties.md R177): SIZECHK raises it before any call, and no other step reports it. -/

namespace Sys2Proof.Machine

variable {ι : Type} {I : InfoRep ι} {P : Params I} {s t : State ι}

/-- The step from `s` to `t` reports no InvalidSizeError of its own: STATUS.ERR stays, or another code stands there. -/
def reportsOther (s t : State ι) : Prop :=
  t.err = s.err ∨ ∃ k : ErrKind, k ≠ .invalidSize ∧ t.err = k.code

theorem ErrKind.code_eq_two {k : ErrKind} (h : k.code = 2#4) : k = .invalidSize := by
  cases k with
  | invalidSize => rfl
  | ok | configuration | cipher | padding | ivSize | usage => exact absurd h (by decide)

theorem reportsOther_ne_two (h : reportsOther s t) (hs : s.err ≠ 2#4) : t.err ≠ 2#4 := by
  obtain h | ⟨k, hk, h⟩ := h <;> rw [h]
  · exact hs
  · exact fun hc => hk (ErrKind.code_eq_two hc)

theorem command_reportsOther {i : Instr} (h : command I i s = .next t) : reportsOther s t := by
  obtain ⟨op, ph, kb, ib, db, rfl, -⟩ | rfl := command_cases h
  · exact .inr ⟨.ok, by decide, rfl⟩
  · exact .inr ⟨.usage, by decide, rfl⟩

theorem hostMove_reportsOther {m : HostMove} (h : hostMove P m s = .next t) : reportsOther s t := by
  cases m with
  | loadKey | loadIv | loadIn =>
    obtain ⟨-, rfl⟩ := load_next h
    exact .inl rfl
  | writeCmd w =>
    obtain ⟨i, -, hc⟩ | ⟨why, -, rfl⟩ := writeCmd_next h
    · exact command_reportsOther hc
    · exact .inr ⟨.usage, by decide, rfl⟩
  | readOut =>
    rw [← next_inj h, readOut]
    split <;> exact .inl rfl
  | rst | rstDuring => exact next_inj h ▸ .inr ⟨.ok, by decide, rfl⟩
  | readStatus | readErrinfo | readErridx | readCfg | readLen => exact next_inj h ▸ .inl rfl

theorem ivload_reportsOther {iv : Bytes} {ph : Phase} (h : ivload I iv ph s = .next t) : reportsOther s t := by
  obtain ⟨-, rfl⟩ | ⟨-, rfl⟩ := ivload_next h
  · exact .inl rfl
  · exact .inr ⟨.ivSize, by decide, rfl⟩

theorem encBlkStep_reportsOther (h : encBlkStep P s = .next t) : reportsOther s t := by
  obtain ⟨i, n, -, -, ⟨-, hb⟩ | ⟨-, hf⟩⟩ := encBlkStep_next h
  · obtain ⟨key, blk, fb, acc, -, -, -, -, ho⟩ := encblk_next hb
    obtain ⟨info, -, rfl⟩ | ⟨ob, -, rfl⟩ := encblkOn_next ho
    · exact .inr ⟨.cipher, by decide, rfl⟩
    · exact .inl rfl
  · obtain ⟨acc, -, rfl⟩ := encfin_next hf
    exact .inr ⟨.ok, by decide, rfl⟩

theorem decBlkStep_reportsOther (h : decBlkStep P s = .next t) : reportsOther s t := by
  obtain ⟨i, n, -, -, ⟨-, hb⟩ | ⟨-, hf⟩⟩ := decBlkStep_next h
  · obtain ⟨key, blk, fb, acc, -, -, -, -, ho⟩ := decblk_next hb
    obtain ⟨info, -, rfl⟩ | ⟨d, -, rfl⟩ := decblkOn_next ho
    · exact .inr ⟨.cipher, by decide, rfl⟩
    · exact .inl rfl
  · obtain ⟨acc, -, ⟨info, -, rfl⟩ | ⟨plain, -, rfl⟩⟩ := paddec_next hf
    · exact .inr ⟨.padding, by decide, rfl⟩
    · exact .inr ⟨.ok, by decide, rfl⟩

/-- SIZECHK on a ciphertext that is no whole number of blocks reports InvalidSizeError (R116, R141); every other step of
the engine reports something else. -/
theorem engineStep_reports (h : engineStep P s = .next t) : reportsOther s t ∨
    s.phase = .decChk ∧ ∃ iv ct, s.op = .decrypt iv ct ∧ ct.length % s.bs ≠ 0 := by
  obtain ⟨-, rfl⟩ | ⟨-, h⟩ | ⟨-, h⟩ | ⟨-, h⟩ | ⟨-, h⟩ | ⟨hp, h⟩ | ⟨-, h⟩ | ⟨-, h⟩ := engineStep_next h
  · exact .inl (.inl rfl)
  · obtain ⟨bs, key, -, ⟨-, rfl⟩ | ⟨-, rfl⟩⟩ := newop_next h
    · exact .inl (.inr ⟨.ok, by decide, rfl⟩)
    · exact .inl (.inr ⟨.configuration, by decide, rfl⟩)
  · obtain ⟨iv, data, -, -, -, -, rfl⟩ := padenc_next h
    exact .inl (.inl rfl)
  · obtain ⟨iv, data, -, hl⟩ := encIvStep_next h
    exact .inl (ivload_reportsOther hl)
  · exact .inl (encBlkStep_reportsOther h)
  · obtain ⟨iv, ct, ho, -, ⟨ha, -⟩ | ⟨-, rfl⟩⟩ := sizechk_next h
    · exact .inr ⟨hp, iv, ct, ho, ha⟩
    · exact .inl (.inl rfl)
  · obtain ⟨iv, data, -, hl⟩ := decIvStep_next h
    exact .inl (ivload_reportsOther hl)
  · exact .inl (decBlkStep_reportsOther h)

/-- Whoever has the step, only SIZECHK reports InvalidSizeError (R177). -/
theorem stepUnder_reports (h : stepUnder P s = .next t) : reportsOther s t ∨
    s.phase = .decChk ∧ ∃ iv ct, s.op = .decrypt iv ct ∧ ct.length % s.bs ≠ 0 := by
  obtain ⟨-, -, rfl⟩ | ⟨-, m, rest, -, hm⟩ | ⟨-, rest, -, rfl⟩ | ⟨-, k, rest, -, he⟩ | ⟨-, -, he⟩ := stepUnder_next h
  · exact .inl (.inl rfl)
  · exact .inl (hostMove_reportsOther (s := { s with host := rest }) hm)
  · exact .inl (.inr ⟨.ok, by decide, rfl⟩)
  · exact engineStep_reports (s := { s with host := .rstDuring k :: rest }) he
  · exact engineStep_reports he

/-- Settles O30: the accepted DECRYPT stands at SIZECHK, which rejects the size, and no other step reports this. -/
theorem sizeValidation : Obligations.SizeValidation := by
  refine ⟨fun ι I P s key iv ct h hi hd ha => ?_, fun ι I P s t _ hstep ht hs => ?_⟩
  · obtain ⟨-, -, hr, -⟩ := id h
    refine ⟨_, _, ready_accepts_decrypt h hi hd,
      decrypt_rejects_size (t := started I (.decrypt iv ct) .decChk s) rfl hr rfl (ready_sizes h).1 ha, rfl,
      (statusWord_of_done 3#2 2#4 rfl rfl rfl rfl).trans (by decide), rfl, rfl, rfl, ?_⟩
    exact List.append_nil s.trace
  · exact (stepUnder_reports hstep).resolve_left fun hn => reportsOther_ne_two hn hs ht

end Sys2Proof.Machine
end

section
/-! The error codes (60_exceptions.md R200): each is raised at its own step, with the payload and the index of the table,
and every other step keeps STATUS.ERR or leaves code 0. -/

namespace Sys2Proof.Machine

variable {ι : Type} {I : InfoRep ι} {P : Params I} {s t : State ι}

/-- The rows of R200's table other than OK, one constructor for each cause: the step at which the error is raised, and
the payload and the index it records there. -/
inductive errorRow (P : Params I) (s : State ι) : ErrKind → ι → Nat → Prop where
  | configuration {bs : BitVec 8} {key : Bytes} (hp : s.phase = .newop) (ho : s.op = .new bs key) :
      errorRow P s .configuration (P.ciph.cfgErr key.length bs.toNat) 0
  | invalidSize {iv data : Bytes} (hp : s.phase = .decChk) (ho : s.op = .decrypt iv data) :
      errorRow P s .invalidSize (I.number (data.length % s.bs)) 0
  | encCipher {i : Nat} {key : Bytes} {x : Block s.bs} {info : ι} (hp : s.phase = .encBlk) (hi : s.idx = some i)
      (hk : s.keystore = some key) (he : P.ciph.enc key s.bs x = .err info) : errorRow P s .cipher info i
  | decCipher {i : Nat} {key : Bytes} {y : Block s.bs} {info : ι} (hp : s.phase = .decBlk) (hi : s.idx = some i)
      (hk : s.keystore = some key) (hd : P.ciph.dec key s.bs y = .err info) : errorRow P s .cipher info i
  | padding {acc : Bytes} {info : ι} (hp : s.phase = .decBlk) (ha : s.acc = some acc)
      (hd : P.pad.decode s.pbs acc = .err info) : errorRow P s .padding info 0
  | ivSize {iv : Bytes} (hp : s.phase = .encIv ∨ s.phase = .decIv) (hiv : s.space .opIv = some iv)
      (hl : iv.length ≠ s.bs) : errorRow P s .ivSize (I.number iv.length) 0
  | usage {w : Word} {rest : List HostMove} (hp : s.phase = .idle) (hh : s.host = .writeCmd w :: rest) :
      errorRow P s .usage (I.word w) 0

/-- The step from `s` to `t` raises no error (STATUS.ERR stays, or is 0), or one that is a row of the table. -/
def raisesByTable (P : Params I) (s t : State ι) : Prop :=
  t.err = s.err ∨ t.err = 0#4 ∨
    ∃ kind info i, t.err = kind.code ∧ t.errinfo = info ∧ t.erridx = i ∧ errorRow P s kind info i

/-- COMPLETE with the code, payload and index of a row. -/
theorem complete_raisesByTable {k : ErrKind} {info : ι} {i : Nat} {out : Option Bytes} {u : State ι}
    (h : errorRow P s k info i) : raisesByTable P s (complete k info i out u) :=
  .inr (.inr ⟨k, info, i, rfl, rfl, rfl, h⟩)

/-! ### The engine -/

theorem newop_raisesByTable (hp : s.phase = .newop) (h : newop P s = .next t) : raisesByTable P s t := by
  obtain ⟨bs, key, ho, ⟨-, rfl⟩ | ⟨-, rfl⟩⟩ := newop_next h
  · exact .inr (.inl rfl)
  · exact complete_raisesByTable (.configuration hp ho)

theorem sizechk_raisesByTable (hp : s.phase = .decChk) (h : sizechk I s = .next t) : raisesByTable P s t := by
  obtain ⟨iv, data, ho, -, ⟨-, rfl⟩ | ⟨-, rfl⟩⟩ := sizechk_next h
  · exact complete_raisesByTable (.invalidSize hp ho)
  · exact .inl rfl

theorem ivload_raisesByTable {iv : Bytes} {ph : Phase} (hp : s.phase = .encIv ∨ s.phase = .decIv)
    (hiv : s.space .opIv = some iv) (h : ivload I iv ph s = .next t) : raisesByTable P s t := by
  obtain ⟨-, rfl⟩ | ⟨hl, rfl⟩ := ivload_next h
  · exact .inl rfl
  · exact .inr (.inr ⟨_, _, _, rfl, rfl, rfl, .ivSize hp hiv hl⟩)

theorem encBlkStep_raisesByTable (hp : s.phase = .encBlk) (h : encBlkStep P s = .next t) : raisesByTable P s t := by
  obtain ⟨i, n, hi, -, ⟨-, hb⟩ | ⟨-, hf⟩⟩ := encBlkStep_next h
  · obtain ⟨key, blk, fb, acc, hk, -, -, -, ho⟩ := encblk_next hb
    obtain ⟨info, he, rfl⟩ | ⟨ob, -, rfl⟩ := encblkOn_next ho
    · exact complete_raisesByTable (.encCipher hp hi hk he)
    · exact .inl rfl
  · obtain ⟨acc, -, rfl⟩ := encfin_next hf
    exact .inr (.inl rfl)

theorem decBlkStep_raisesByTable (hp : s.phase = .decBlk) (h : decBlkStep P s = .next t) : raisesByTable P s t := by
  obtain ⟨i, n, hi, -, ⟨-, hb⟩ | ⟨-, hf⟩⟩ := decBlkStep_next h
  · obtain ⟨key, blk, fb, acc, hk, -, -, -, ho⟩ := decblk_next hb
    obtain ⟨info, hd, rfl⟩ | ⟨d, -, rfl⟩ := decblkOn_next ho
    · exact complete_raisesByTable (.decCipher hp hi hk hd)
    · exact .inl rfl
  · obtain ⟨acc, ha, ⟨info, hd, rfl⟩ | ⟨plain, -, rfl⟩⟩ := paddec_next hf
    · exact complete_raisesByTable (.padding hp ha hd)
    · exact .inr (.inl rfl)

/-- Every phase raises the errors of its own rows only (R148, R200). -/
theorem engineStep_raisesByTable (h : engineStep P s = .next t) : raisesByTable P s t := by
  obtain ⟨-, rfl⟩ | ⟨hp, h⟩ | ⟨-, h⟩ | ⟨hp, h⟩ | ⟨hp, h⟩ | ⟨hp, h⟩ | ⟨hp, h⟩ | ⟨hp, h⟩ := engineStep_next h
  · exact .inl rfl
  · exact newop_raisesByTable hp h
  · obtain ⟨iv, data, -, -, -, -, rfl⟩ := padenc_next h
    exact .inl rfl
  · obtain ⟨iv, data, ho, hl⟩ := encIvStep_next h
    exact ivload_raisesByTable (.inl hp) (by rw [State.space, ho]) hl
  · exact encBlkStep_raisesByTable hp h
  · exact sizechk_raisesByTable hp h
  · obtain ⟨iv, data, ho, hl⟩ := decIvStep_next h
    exact ivload_raisesByTable (.inr hp) (by rw [State.space, ho]) hl
  · exact decBlkStep_raisesByTable hp h

/-! ### The host's moves and the step -/

/-- WRITE_CMD clears the report, or rejects the word it was given: a legal word is the encoding of its command
(R82, R138). -/
theorem writeCmd_err {w : Word} (h : writeCmd I w s = .next t) : t.err = 0#4 ∨ t = usage I w s := by
  obtain ⟨i, hd, hc⟩ | ⟨why, -, rfl⟩ := writeCmd_next h
  · obtain ⟨op, ph, kb, ib, db, rfl, -⟩ | rfl := command_cases hc
    · exact .inl rfl
    · exact .inr (by rw [(decode_eq_legal_iff.mp hd).2])
  · exact .inr rfl

/-- Of the host's moves only WRITE_CMD raises an error (R200, R206). -/
theorem hostMove_raisesByTable {m : HostMove} {rest : List HostMove} (hp : s.phase = .idle) (hh : s.host = m :: rest)
    (h : hostMove P m { s with host := rest } = .next t) : raisesByTable P s t := by
  cases m with
  | loadKey | loadIv | loadIn =>
    obtain ⟨-, rfl⟩ := load_next h
    exact .inl rfl
  | writeCmd w =>
    obtain h0 | rfl := writeCmd_err h
    · exact .inr (.inl h0)
    · exact .inr (.inr ⟨_, _, _, rfl, rfl, rfl, .usage hp hh⟩)
  | readOut =>
    rw [← next_inj h, readOut]
    split <;> exact .inl rfl
  | rst | rstDuring => exact next_inj h ▸ .inr (.inl rfl)
  | readStatus | readErrinfo | readErridx | readCfg | readLen => exact next_inj h ▸ .inl rfl

/-- The countdown to a reset in mid-operation is in no row of a step of the engine. -/
theorem raisesByTable_of_host {l : List HostMove} (hp : s.phase ≠ .idle)
    (h : raisesByTable P { s with host := l } t) : raisesByTable P s t := by
  obtain h | h | ⟨kind, info, i, he, hinfo, hidx, hrow⟩ := h
  · exact .inl h
  · exact .inr (.inl h)
  · refine .inr (.inr ⟨kind, info, i, he, hinfo, hidx, ?_⟩)
    cases hrow with
    | configuration hp ho => exact .configuration hp ho
    | invalidSize hp ho => exact .invalidSize hp ho
    | encCipher hp hi hk he => exact .encCipher hp hi hk he
    | decCipher hp hi hk hd => exact .decCipher hp hi hk hd
    | padding hp ha hd => exact .padding hp ha hd
    | ivSize hp hiv hl => exact .ivSize hp hiv hl
    | usage hid _ => exact absurd hid hp

/-- Whoever has the step, an error it raises is a row of the table (R200). -/
theorem stepUnder_raisesByTable (h : stepUnder P s = .next t) : raisesByTable P s t := by
  obtain ⟨-, -, rfl⟩ | ⟨hp, m, rest, hh, hm⟩ | ⟨-, rest, -, rfl⟩ | ⟨hp, k, rest, -, he⟩ | ⟨-, -, he⟩ := stepUnder_next h
  · exact .inl rfl
  · exact hostMove_raisesByTable hp hh hm
  · exact .inr (.inl rfl)
  · exact raisesByTable_of_host hp (engineStep_raisesByTable he)
  · exact engineStep_raisesByTable he

/-- Settles O49, row by row of the table. The steps bring every guard a row needs, so the invariant is not used. -/
theorem errorCodesComeFromTheirSteps : Obligations.ErrorCodesComeFromTheirSteps := by
  intro ι I P s t _ h hne h0
  obtain he | he | ⟨kind, info, i, he, rfl, rfl, hrow⟩ := stepUnder_raisesByTable h
  · exact absurd he hne
  · exact absurd he h0
  · generalize hinfo : t.errinfo = info, hidx : t.erridx = i at hrow ⊢
    cases hrow with
    | configuration hp ho => exact .inl ⟨he, hp, rfl, _, _, ho, rfl⟩
    | invalidSize hp ho => exact .inr (.inl ⟨he, hp, rfl, _, _, ho, rfl⟩)
    | encCipher hp hi hk hc => exact .inr (.inr (.inl ⟨he, hp, hi, _, _, hk, hc⟩))
    | decCipher hp hi hk hc => exact .inr (.inr (.inr (.inl ⟨he, hp, hi, _, _, hk, hc⟩)))
    | padding hp ha hd => exact .inr (.inr (.inr (.inr (.inl ⟨he, hp, rfl, _, ha, hd⟩))))
    | ivSize hp hiv hl => exact .inr (.inr (.inr (.inr (.inr (.inl ⟨he, hp, rfl, _, hiv, hl, rfl⟩)))))
    | usage hp hh => exact .inr (.inr (.inr (.inr (.inr (.inr ⟨he, hp, rfl, _, _, hh, rfl⟩)))))

end Sys2Proof.Machine
end

section
/-! What the host can read back (60_exceptions.md R214): STATUS, the error report, CFG, OUTBUF and the lengths of the
buffers, so neither the key nor the working group nor what an input buffer holds. -/

namespace Sys2Proof.Machine

variable {ι : Type} {I : InfoRep ι} {P : Params I} {s t : State ι}

/-- What a host move returns: a READ the value of its port, every other move nothing (R40). -/
def State.returned (s : State ι) : HostMove → Option (Reply ι)
  | .readStatus => some (.status s.statusWord)
  | .readErrinfo => some (.errinfo s.errinfo)
  | .readErridx => some (.erridx s.erridx)
  | .readCfg => some (.cfg s.cfgWord)
  | .readOut => some (s.outbuf.elim .noValue .out)
  | .readLen which => some (.len (s.len which))
  | .loadKey _ | .loadIv _ | .loadIn _ | .writeCmd _ | .rst | .rstDuring _ => none

/-- A host move adds to the replies what it returns, and nothing else (R40, R57). -/
theorem hostMove_replies {m : HostMove} (h : hostMove P m s = .next t) :
    t.replies = s.replies ++ (s.returned m).toList := by
  cases m with
  | loadKey | loadIv | loadIn =>
    obtain ⟨-, rfl⟩ := load_next h
    exact (List.append_nil s.replies).symm
  | writeCmd w =>
    obtain ⟨i, -, hc⟩ | ⟨why, -, rfl⟩ := writeCmd_next h
    · rw [(command_frame hc).2, State.returned, Option.toList_none, List.append_nil]
    · exact (List.append_nil s.replies).symm
  | readOut =>
    cases ho : s.outbuf with
    | none => rw [← next_inj h, readOut_absent ho, State.returned, ho]; rfl
    | some b => rw [← next_inj h, readOut_present ho, State.returned, ho]; rfl
  | rst | rstDuring => exact next_inj h ▸ (List.append_nil s.replies).symm
  | readStatus | readErrinfo | readErridx | readCfg | readLen => exact next_inj h ▸ rfl

/-- A step in IDLE adds to the replies what its host move returns (R12, R40). -/
theorem stepUnder_replies {m : HostMove} {rest : List HostMove} (hp : s.phase = .idle) (hh : s.host = m :: rest)
    (h : stepUnder P s = .next t) : t.replies = s.replies ++ (s.returned m).toList :=
  hostMove_replies (s := { s with host := rest }) ((stepUnder_host hp hh).symm.trans h)

/-- What the ports read decides what every move returns: the lengths of the buffers, STATUS, CFG, ERRINFO, ERRIDX and
OUTBUF (R40). -/
theorem returned_congr {s' : State ι} (hl : ∀ which, s'.len which = s.len which)
    (hs : s'.statusWord = s.statusWord) (hc : s'.cfgWord = s.cfgWord) (hinfo : s'.errinfo = s.errinfo)
    (hidx : s'.erridx = s.erridx) (ho : s'.outbuf = s.outbuf) (m : HostMove) : s'.returned m = s.returned m := by
  cases m <;> simp only [State.returned, hs, hc, hinfo, hidx, ho, hl]

/-- Settles O54: the two engines return the same to the move, for they differ in nothing a port reads. -/
theorem secretsAreNotReadable : Obligations.SecretsAreNotReadable := by
  intro ι I P s t t' m rest op key kb ib db fb blk tmp outb work acc idx nblk hp hh _ hk hi hd h h'
  have hl (which : LenSel) : State.len { s with
      keystore := key, keybuf := kb, ivbuf := ib, inbuf := db, op := op, fb := fb, blk := blk, tmp := tmp
      outb := outb, work := work, acc := acc, idx := idx, nblk := nblk } which = s.len which := by
    cases which with
    | key => exact hk
    | iv => exact hi
    | inp => exact hd
    | out => rfl
  rw [stepUnder_replies hp hh h, stepUnder_replies (by exact hp) (by exact hh) h']
  exact congrArg (fun r : Option (Reply ι) => s.replies ++ r.toList) (returned_congr hl rfl rfl rfl rfl rfl m)

end Sys2Proof.Machine
end

section
/-! Reset from every phase (70_reset_and_hazards.md R230): the move RST in IDLE and the reset in mid-operation. -/

namespace Sys2Proof.Machine

variable {ι : Type} {I : InfoRep ι} {P : Params I} {s : State ι} {rest : List HostMove}

/-- A reset counted down to 0 strikes in the next step, whether an operation runs or not (R230). -/
theorem stepUnder_of_rstDuring (hh : s.host = .rstDuring 0 :: rest) :
    stepUnder P s = .next (resetEngine I { s with host := rest }) := by
  by_cases hp : s.phase = .idle
  · exact stepUnder_host hp hh
  · rw [stepUnder_of_busy P s hp, busyStep, hh]

/-- Settles O11: the step is the reset of the engine in IDLE and in mid-operation alike, and it keeps what is the
host's (log entry 8). -/
theorem rstResetsFromEveryPhase : Obligations.RstResetsFromEveryPhase := by
  intro ι I P s rest hreset
  have hstep : stepUnder P s = .next (resetEngine I { s with host := rest }) := by
    obtain ⟨hp, hh⟩ | hh := hreset
    · exact stepUnder_host hp hh
    · exact stepUnder_of_rstDuring hh
  exact ⟨_, hstep, resetEngine_atReset _, rfl, rfl, rfl⟩

end Sys2Proof.Machine
end
